-- ==== Sys2Proof/Word.lean ====
section
/-! DEFINITION. The word types of Lab4 CORE: the 64-bit command and response word (R51, R54), the BCD
digit (R20), and a bit vector that is never zero (the divisors and counts of R8). -/

namespace Sys2Proof

/-- A command or a response: one 64-bit word, bit 0 the least significant (R14, R51, R54). -/
abbrev Word64 := BitVec 64

/-- One BCD digit as the block stores it: four bits, every value 0 to 15 (R20). -/
abbrev Nibble := BitVec 4

/-- A bit vector of width `w` that is not zero: a parameter whose range is [1, 2^w - 1] (R8). -/
structure Positive (w : Nat) where
  val : BitVec w
  nonzero : val ≠ 0
  deriving DecidableEq, Repr

/-- A number below `2^w` that is not 0 stays nonzero as a bit vector of width `w`. -/
theorem ofNat_ne_zero_of_range {w k : Nat} (low : 1 ≤ k) (high : k < 2 ^ w) :
    BitVec.ofNat w k ≠ 0 := by
  intro h
  have := congrArg BitVec.toNat h
  simp [Nat.mod_eq_of_lt high] at this
  omega

/-- The positive bit vector of a number in [1, 2^w - 1]. -/
def Positive.ofRange (w k : Nat) (low : 1 ≤ k) (high : k < 2 ^ w) : Positive w :=
  { val := BitVec.ofNat w k, nonzero := ofNat_ne_zero_of_range low high }

end Sys2Proof
end

