-- ==== Sys2Proof/Syntax.lean ====
section
/-! DEFINITION. The 21 commands of Lab4 CORE (R52), one constructor per row of spec/opcode_table.json,
each with its format's operands (R56 to R64). Every operand has the width of its field, so every term of
`Instr` is a command that a word can carry. -/

namespace Sys2Proof

/-- A BcdTime: six 4-bit digits, any digit combination (R20), written in the order of the word (R50). -/
structure BcdTime where
  h10 : Nibble
  h1 : Nibble
  m10 : Nibble
  m1 : Nibble
  s10 : Nibble
  s1 : Nibble
  deriving DecidableEq, Repr

/-- 00:00:00. -/
def BcdTime.zero : BcdTime :=
  { h10 := 0, h1 := 0, m10 := 0, m1 := 0, s10 := 0, s1 := 0 }

/-- One bit for each of the buttons Accept, Cancel, Increment and Decrement (R31, R64). -/
structure Buttons where
  acc : Bool
  can : Bool
  inc : Bool
  dec : Bool
  deriving DecidableEq, Repr

/-- The commands (R52). The docstring of each names its format and its rule. -/
inductive Instr where
  /-- `CLK_GET_TIME`, format FN, R73. -/
  | clkGetTime
  /-- `CLK_SET_TIME t`, format FT, R74. -/
  | clkSetTime (time : BcdTime)
  /-- `CLK_TICK`, format FN, R75. -/
  | clkTick
  /-- `CLK_SET_ALARM t`, format FT, R76. -/
  | clkSetAlarm (time : BcdTime)
  /-- `CLK_GET_ALARM`, format FN, R77. -/
  | clkGetAlarm
  /-- `CLK_ALARM_IS_RINGING`, format FN, R78. -/
  | clkAlarmIsRinging
  /-- `CLK_SET_ALARM_ENABLED b`, format FB, R80. -/
  | clkSetAlarmEnabled (b : Bool)
  /-- `CLK_POSTPONE_ALARM`, format FN, R81. -/
  | clkPostponeAlarm
  /-- `CLK_POSTPONE_MINUTES n`, format FM, R82. -/
  | clkPostponeMinutes (minutes : BitVec 8)
  /-- `CLK_POSTPONE_ONE_DAY`, format FN, R83. -/
  | clkPostponeOneDay
  /-- `CLK_RESET_ALARM`, format FN, R84. -/
  | clkResetAlarm
  /-- `BCD_INC_MIN t`, format FT, R85. -/
  | bcdIncMin (time : BcdTime)
  /-- `BCD_DEC_MIN t`, format FT, R86. -/
  | bcdDecMin (time : BcdTime)
  /-- `BCD_INC_HR t`, format FT, R87. -/
  | bcdIncHr (time : BcdTime)
  /-- `BCD_DEC_HR t`, format FT, R88. -/
  | bcdDecHr (time : BcdTime)
  /-- `DSP_WRITE_BCD size, V`, format FW, R93; `values[i]` is `V[i]`, the value for display digit `i`. -/
  | dspWriteBcd (size : BitVec 4) (values : Vector Nibble 8)
  /-- `DSP_REFRESH`, format FN, R94. -/
  | dspRefresh
  /-- `DSP_CFG_DIGIT_BLINK from, to, div`, format FDB, R99. -/
  | dspCfgDigitBlink (first : BitVec 4) (last : BitVec 4) (divisor : BitVec 16)
  /-- `DSP_CFG_DOT_BLINK digit, div, en`, format FDD, R100. -/
  | dspCfgDotBlink (digit : BitVec 4) (divisor : BitVec 16) (enabled : Bool)
  /-- `EDG_SAMPLE idx, s`, format FE, R104. -/
  | edgSample (idx : BitVec 4) (sample : Bool)
  /-- `FSM_STEP btn, eet, eea, xa`, format FS, R108. -/
  | fsmStep (btn : Buttons) (eet : Bool) (eea : Bool) (xa : Bool)
  deriving DecidableEq, Repr

end Sys2Proof
end

