-- ==== Sys2Proof/Config.lean ====
section
/-! DEFINITION. The implementation parameters of Lab4 CORE (R8): the constants the spec fixes, the
parameters as the straps present them at reset, the configuration that reset latches (R144), and the
configuration of the model's own reset state, whose OPEN parameters are free values. -/

namespace Sys2Proof

/-- `MAX_DIGITS` = 8 (R8, D15). -/
abbrev maxDigits : Nat := 8

/-- `EDGE_N` = 6 (R8, D23). -/
abbrev edgeN : Nat := 6

/-- `SNOOZE_MIN` = 5 (R8, D29). -/
def snoozeMin : BitVec 8 := 5

/-- `ALARM_DOT` = 3 (R8, D26). -/
def alarmDot : BitVec 4 := 3

/-- The configuration as it is presented to the block while it is in reset (R8, R147): plain numbers, of
which only the legal ones have a block (R9; `Straps.wellFormed`). -/
structure Straps where
  /-- `TPS`. -/
  tps : Nat
  /-- `DIGITS`, the requested digit count. -/
  digits : Nat
  /-- `FSM_BLINK_DIV`. -/
  fsmBlinkDiv : Nat
  /-- `FSM_DOT_DIV`. -/
  fsmDotDiv : Nat
  /-- `SEG_TABLE`: ten patterns of the segments g (bit 6) to a (bit 0); bit 7 of an entry is 0 (R92), so
  seven bits hold it. -/
  segTable : Vector (BitVec 7) 10
  deriving DecidableEq, Repr

/-- The parameters a block runs with, latched at reset and fixed until the next reset (R8, R144). The
types hold R8's ranges: `TPS`, `FSM_BLINK_DIV`, `FSM_DOT_DIV` in [1, 65535] and `DIGITS` in [1, 255]. -/
structure Config where
  tps : Positive 16
  digits : Positive 8
  fsmBlinkDiv : Positive 16
  fsmDotDiv : Positive 16
  segTable : Vector (BitVec 7) 10
  deriving DecidableEq, Repr

/-- The spec's default `SEG_TABLE` (R91, R92): entry `v` is the pattern of the digit `v`. -/
def defaultSegTable : Vector (BitVec 7) 10 :=
  #v[0x3F, 0x06, 0x5B, 0x4F, 0x66, 0x6D, 0x7D, 0x07, 0x7F, 0x6F]

/-- FREE VALUE (log 1): `TPS - 1`. R8 marks `TPS` OPEN, in [1, 65535]. -/
opaque Config.freeTpsLessOne : Fin 65535

/-- FREE VALUE (log 1): `FSM_BLINK_DIV - 1`. R8 marks it OPEN, in [1, 65535]. -/
opaque Config.freeBlinkDivLessOne : Fin 65535

/-- FREE VALUE (log 1): `FSM_DOT_DIV - 1`. R8 marks it OPEN, in [1, 65535]. -/
opaque Config.freeDotDivLessOne : Fin 65535

/-- The positive 16-bit value one above `k`. -/
def Config.oneAbove (k : Fin 65535) : Positive 16 :=
  Positive.ofRange 16 (k.val + 1) (Nat.le_add_left 1 k.val) (by have := k.isLt; omega)

/-- The configuration of the model's reset state: the OPEN parameters free, `DIGITS` at the application
value 4 (R8; log 2), `SEG_TABLE` at the spec's default (R92). -/
def Config.application : Config where
  tps := Config.oneAbove Config.freeTpsLessOne
  digits := { val := 4, nonzero := by decide }
  fsmBlinkDiv := Config.oneAbove Config.freeBlinkDivLessOne
  fsmDotDiv := Config.oneAbove Config.freeDotDivLessOne
  segTable := defaultSegTable

end Sys2Proof
end

