-- ==== Sys2Proof/WellFormed.lean ====
section
/-! DEFINITION. The checks that the types of the syntax do not make. A command needs none: each operand
of `Instr` has the width of its field, and an operand value that a command rejects is legal (R66). A
configuration needs R9's and R147's. -/

namespace Sys2Proof

/-- `TPS` in [1, 65535] (R8, R9). -/
def Straps.tpsOk (p : Straps) : Bool := decide (1 ≤ p.tps) && decide (p.tps < 2 ^ 16)

/-- `DIGITS` in [1, 255] (R8, R9). -/
def Straps.digitsOk (p : Straps) : Bool := decide (1 ≤ p.digits) && decide (p.digits < 2 ^ 8)

/-- `N >= 4`, because the coordinator FSM is present (R9, R147). -/
def Straps.fsmFits (p : Straps) : Bool := decide (4 ≤ min p.digits maxDigits)

/-- `FSM_BLINK_DIV` in [1, 65535] (R8, R9). -/
def Straps.blinkDivOk (p : Straps) : Bool :=
  decide (1 ≤ p.fsmBlinkDiv) && decide (p.fsmBlinkDiv < 2 ^ 16)

/-- `FSM_DOT_DIV` in [1, 65535] (R8, R9). -/
def Straps.dotDivOk (p : Straps) : Bool :=
  decide (1 ≤ p.fsmDotDiv) && decide (p.fsmDotDiv < 2 ^ 16)

/-- The configurations that have a block (R9, R147 step 1). -/
def Straps.wellFormed (p : Straps) : Bool :=
  p.tpsOk && p.digitsOk && p.fsmFits && p.blinkDivOk && p.dotDivOk

end Sys2Proof
end

