-- ==== Sys2Proof/Decode.lean ====
section
/-! DEFINITION. The command encoding (spec/30_encoding.md): the decoder, total on every 64-bit word and
refusing by name (R53, R66), and after it the encoder (R50, R56 to R64). -/

namespace Sys2Proof

/-- Why a word is no command (R66). -/
inductive DecodeError where
  /-- The opcode byte is in no row of R52. -/
  | reservedOpcode
  /-- The opcode has a row, and a bit that its format reserves is 1. -/
  | reservedBit
  deriving DecidableEq, Repr

/-- `OPC = cmd[63:56]` (R51). -/
def opcodeOf (w : Word64) : BitVec 8 := w.extractLsb' 56 8

/-- `cmd[lo + len - 1 : lo]` is all zeros. -/
def clear (w : Word64) (lo len : Nat) : Bool := w.extractLsb' lo len == 0

/-- One bit of a word as a boolean. -/
def flag (w : Word64) (k : Nat) : Bool := w.getLsbD k

/-- `TIME[23:0]` of a word, one digit per nibble, hours tens highest (R50). -/
def unpackTime (w : Word64) : BcdTime where
  h10 := w.extractLsb' 20 4
  h1 := w.extractLsb' 16 4
  m10 := w.extractLsb' 12 4
  m1 := w.extractLsb' 8 4
  s10 := w.extractLsb' 4 4
  s1 := w.extractLsb' 0 4

/-- `V[i] = cmd[4i+3 : 4i]` for i in 0 .. 7 (R60). -/
def unpackValues (w : Word64) : Vector Nibble 8 :=
  #v[w.extractLsb' 0 4, w.extractLsb' 4 4, w.extractLsb' 8 4, w.extractLsb' 12 4,
     w.extractLsb' 16 4, w.extractLsb' 20 4, w.extractLsb' 24 4, w.extractLsb' 28 4]

/-- `BTN[3:0]` of a word: bit 0 Accept, 1 Cancel, 2 Increment, 3 Decrement (R64). -/
def unpackButtons (w : Word64) : Buttons where
  acc := flag w 0
  can := flag w 1
  inc := flag w 2
  dec := flag w 3

/-- The command, if the format's reserved bits are clear (R66). -/
def accept (reservedClear : Bool) (i : Instr) : Except DecodeError Instr :=
  if reservedClear then .ok i else .error .reservedBit

/-- Format FN: no operand, bits 55:0 reserved (R56). -/
def decodeFN (w : Word64) (i : Instr) : Except DecodeError Instr :=
  accept (clear w 0 56) i

/-- Format FT: a BcdTime, bits 55:24 reserved (R57). -/
def decodeFT (w : Word64) (mk : BcdTime → Instr) : Except DecodeError Instr :=
  accept (clear w 24 32) (mk (unpackTime w))

/-- Format FB: `B` in bit 0, bits 55:1 reserved (R58). -/
def decodeFB (w : Word64) : Except DecodeError Instr :=
  accept (clear w 1 55) (.clkSetAlarmEnabled (flag w 0))

/-- Format FM: `MIN` in bits 7:0, bits 55:8 reserved (R59). -/
def decodeFM (w : Word64) : Except DecodeError Instr :=
  accept (clear w 8 48) (.clkPostponeMinutes (w.extractLsb' 0 8))

/-- Format FW: `SIZE` in bits 35:32, `V` in bits 31:0, bits 55:36 reserved (R60). -/
def decodeFW (w : Word64) : Except DecodeError Instr :=
  accept (clear w 36 20) (.dspWriteBcd (w.extractLsb' 32 4) (unpackValues w))

/-- Format FDB: `FROM` 23:20, `TO` 19:16, `DIV` 15:0, bits 55:24 reserved (R61). -/
def decodeFDB (w : Word64) : Except DecodeError Instr :=
  accept (clear w 24 32)
    (.dspCfgDigitBlink (w.extractLsb' 20 4) (w.extractLsb' 16 4) (w.extractLsb' 0 16))

/-- Format FDD: `DIG` 23:20, `EN` 16, `DIV` 15:0, bits 55:24 and 19:17 reserved (R62). -/
def decodeFDD (w : Word64) : Except DecodeError Instr :=
  accept (clear w 24 32 && clear w 17 3)
    (.dspCfgDotBlink (w.extractLsb' 20 4) (w.extractLsb' 0 16) (flag w 16))

/-- Format FE: `IDX` 19:16, `S` 0, bits 55:20 and 15:1 reserved (R63). -/
def decodeFE (w : Word64) : Except DecodeError Instr :=
  accept (clear w 20 36 && clear w 1 15) (.edgSample (w.extractLsb' 16 4) (flag w 0))

/-- Format FS: `XA` 10, `EEA` 9, `EET` 8, `BTN` 3:0, bits 55:11 and 7:4 reserved (R64). -/
def decodeFS (w : Word64) : Except DecodeError Instr :=
  accept (clear w 11 45 && clear w 4 4)
    (.fsmStep (unpackButtons w) (flag w 8) (flag w 9) (flag w 10))

/-- The decoder: by the opcode byte (R52), then by the format of its row (R53). Every other opcode, and
every word with a reserved bit set, is illegal (R66). -/
def decode (w : Word64) : Except DecodeError Instr :=
  match (opcodeOf w).toNat with
  | 0x10 => decodeFN w .clkGetTime
  | 0x11 => decodeFT w .clkSetTime
  | 0x12 => decodeFN w .clkTick
  | 0x13 => decodeFT w .clkSetAlarm
  | 0x14 => decodeFN w .clkGetAlarm
  | 0x15 => decodeFN w .clkAlarmIsRinging
  | 0x16 => decodeFB w
  | 0x17 => decodeFN w .clkPostponeAlarm
  | 0x18 => decodeFM w
  | 0x19 => decodeFN w .clkPostponeOneDay
  | 0x1A => decodeFN w .clkResetAlarm
  | 0x1B => decodeFT w .bcdIncMin
  | 0x1C => decodeFT w .bcdDecMin
  | 0x1D => decodeFT w .bcdIncHr
  | 0x1E => decodeFT w .bcdDecHr
  | 0x20 => decodeFW w
  | 0x21 => decodeFN w .dspRefresh
  | 0x22 => decodeFDB w
  | 0x23 => decodeFDD w
  | 0x30 => decodeFE w
  | 0x40 => decodeFS w
  | _ => .error .reservedOpcode

/-- The opcode byte of a command (R52). -/
def Instr.opcode : Instr → BitVec 8
  | .clkGetTime => 0x10
  | .clkSetTime _ => 0x11
  | .clkTick => 0x12
  | .clkSetAlarm _ => 0x13
  | .clkGetAlarm => 0x14
  | .clkAlarmIsRinging => 0x15
  | .clkSetAlarmEnabled _ => 0x16
  | .clkPostponeAlarm => 0x17
  | .clkPostponeMinutes _ => 0x18
  | .clkPostponeOneDay => 0x19
  | .clkResetAlarm => 0x1A
  | .bcdIncMin _ => 0x1B
  | .bcdDecMin _ => 0x1C
  | .bcdIncHr _ => 0x1D
  | .bcdDecHr _ => 0x1E
  | .dspWriteBcd _ _ => 0x20
  | .dspRefresh => 0x21
  | .dspCfgDigitBlink _ _ _ => 0x22
  | .dspCfgDotBlink _ _ _ => 0x23
  | .edgSample _ _ => 0x30
  | .fsmStep _ _ _ _ => 0x40

/-- The mnemonic of a command (R52). -/
def Instr.mnemonic : Instr → String
  | .clkGetTime => "CLK_GET_TIME"
  | .clkSetTime _ => "CLK_SET_TIME"
  | .clkTick => "CLK_TICK"
  | .clkSetAlarm _ => "CLK_SET_ALARM"
  | .clkGetAlarm => "CLK_GET_ALARM"
  | .clkAlarmIsRinging => "CLK_ALARM_IS_RINGING"
  | .clkSetAlarmEnabled _ => "CLK_SET_ALARM_ENABLED"
  | .clkPostponeAlarm => "CLK_POSTPONE_ALARM"
  | .clkPostponeMinutes _ => "CLK_POSTPONE_MINUTES"
  | .clkPostponeOneDay => "CLK_POSTPONE_ONE_DAY"
  | .clkResetAlarm => "CLK_RESET_ALARM"
  | .bcdIncMin _ => "BCD_INC_MIN"
  | .bcdDecMin _ => "BCD_DEC_MIN"
  | .bcdIncHr _ => "BCD_INC_HR"
  | .bcdDecHr _ => "BCD_DEC_HR"
  | .dspWriteBcd _ _ => "DSP_WRITE_BCD"
  | .dspRefresh => "DSP_REFRESH"
  | .dspCfgDigitBlink _ _ _ => "DSP_CFG_DIGIT_BLINK"
  | .dspCfgDotBlink _ _ _ => "DSP_CFG_DOT_BLINK"
  | .edgSample _ _ => "EDG_SAMPLE"
  | .fsmStep _ _ _ _ => "FSM_STEP"

/-- `TIME[23:0]` of a BcdTime (R50): hexadecimal reads as the clock reads. -/
def packTime (t : BcdTime) : BitVec 24 := t.h10 ++ t.h1 ++ t.m10 ++ t.m1 ++ t.s10 ++ t.s1

/-- `V[31:0]`: value `i` in bits 4i+3 to 4i (R60). -/
def packValues (v : Vector Nibble 8) : BitVec 32 :=
  v[7] ++ v[6] ++ v[5] ++ v[4] ++ v[3] ++ v[2] ++ v[1] ++ v[0]

/-- `BTN[3:0]` (R64). -/
def packButtons (b : Buttons) : BitVec 4 :=
  BitVec.ofBool b.dec ++ BitVec.ofBool b.inc ++ BitVec.ofBool b.can ++ BitVec.ofBool b.acc

/-- The payload `cmd[55:0]` of a command, reserved bits 0 (R51, R56 to R64). -/
def Instr.payload : Instr → BitVec 56
  | .clkGetTime => 0
  | .clkSetTime t => 0#32 ++ packTime t
  | .clkTick => 0
  | .clkSetAlarm t => 0#32 ++ packTime t
  | .clkGetAlarm => 0
  | .clkAlarmIsRinging => 0
  | .clkSetAlarmEnabled b => 0#55 ++ BitVec.ofBool b
  | .clkPostponeAlarm => 0
  | .clkPostponeMinutes n => 0#48 ++ n
  | .clkPostponeOneDay => 0
  | .clkResetAlarm => 0
  | .bcdIncMin t => 0#32 ++ packTime t
  | .bcdDecMin t => 0#32 ++ packTime t
  | .bcdIncHr t => 0#32 ++ packTime t
  | .bcdDecHr t => 0#32 ++ packTime t
  | .dspWriteBcd size v => 0#20 ++ size ++ packValues v
  | .dspRefresh => 0
  | .dspCfgDigitBlink first last divisor => 0#32 ++ first ++ last ++ divisor
  | .dspCfgDotBlink digit divisor en => 0#32 ++ digit ++ 0#3 ++ BitVec.ofBool en ++ divisor
  | .edgSample idx smp => 0#36 ++ idx ++ 0#15 ++ BitVec.ofBool smp
  | .fsmStep btn eet eea xa =>
    0#45 ++ BitVec.ofBool xa ++ BitVec.ofBool eea ++ BitVec.ofBool eet ++ 0#4 ++ packButtons btn

/-- The word of a command: its opcode byte above its payload (R51). -/
def encode (i : Instr) : Word64 := i.opcode ++ i.payload

/-- The instruction that the decoder reads from the number `w` of a table row's `nbits` bits. A command
is one whole word (R38, R67), so the layout is the number itself, with zeros above `nbits`. -/
def decodeTableWord (nbits w : Nat) : Option Instr :=
  match decode (BitVec.ofNat 64 (w % 2 ^ nbits)) with
  | .ok i => some i
  | .error _ => none

end Sys2Proof
end

