-- ==== Sys2Proof/Machine/State.lean ====
section
/-! DEFINITION. The state of Lab4 CORE (spec/10_state.md), one structure per unit, the input ports it
reads, and the state after reset (R145). Plain data throughout. -/

namespace Sys2Proof.Machine

open Sys2Proof

/-- The clock engine's registers (R24). -/
structure Clk where
  /-- `CLK.cur`: the current time. -/
  cur : BcdTime
  /-- `CLK.valid`: the engine's one validity flag. -/
  valid : Bool
  /-- `CLK.acc`: the tick accumulator. -/
  acc : BitVec 16
  /-- `CLK.alarm`: the configured alarm. -/
  alarm : BcdTime
  /-- `CLK.snooze`: the snooze baseline, the time compared for ringing. -/
  snooze : BcdTime
  /-- `CLK.en`: alarm enabled. -/
  en : Bool
  /-- `CLK.ring`: the ringing latch. -/
  ring : Bool
  deriving DecidableEq, Repr

/-- A dot-blink descriptor with its phase (R26, R33): `DSP.dper[d]`, `DSP.den[d]`, `DSP.dph[d]`. -/
structure Dot where
  per : BitVec 17
  en : Bool
  ph : BitVec 17
  deriving DecidableEq, Repr

/-- The display engine's registers (R26). `DSP.n` is a constant of the latched configuration and is read
through `digitCount`. -/
structure Dsp where
  /-- `DSP.cur`: the mux cursor. -/
  cur : BitVec 3
  /-- `DSP.seg[0..7]`: the segment values. -/
  seg : Vector (BitVec 8) 8
  /-- `DSP.bfrom`: first digit of the blink window. -/
  bfrom : BitVec 3
  /-- `DSP.bto`: last digit of the blink window. -/
  bto : BitVec 3
  /-- `DSP.bper`: the window's period, 0 for no blink. -/
  bper : BitVec 17
  /-- `DSP.bph`: the window's phase counter. -/
  bph : BitVec 17
  /-- `DSP.dper`, `DSP.den`, `DSP.dph` of digits 0 to 7. -/
  dots : Vector Dot 8
  deriving DecidableEq, Repr

/-- A call of the display driver (R95). -/
inductive DrvEvent where
  /-- `OFF_ALL`: `turn_off_all_digits()`. -/
  | offAll
  /-- `UPDATE(p)`: `update_segments(pattern)`. -/
  | update (pattern : BitVec 8)
  /-- `ON(d)`: `turn_on_digit(index)`. -/
  | on (digit : BitVec 3)
  deriving DecidableEq, Repr

/-- The display driver's outputs and the record of its calls, oldest first (R28). -/
structure Drv where
  /-- `DRV.seg_out`. -/
  segOut : BitVec 8
  /-- `DRV.dig_on`: the lit digit, or none. -/
  digOn : Option (BitVec 3)
  /-- `DRV.trace`. -/
  trace : List DrvEvent
  deriving DecidableEq, Repr

/-- The six states of the coordinator (R30, R107). -/
inductive FsmState where
  | showTime
  | adjustTimeMinutes
  | adjustTimeHours
  | adjustAlarmMinutes
  | adjustAlarmHours
  | controlAlarm
  deriving DecidableEq, Repr

/-- The coordinator's registers (R30, R31). -/
structure Fsm where
  /-- `FSM.state`. -/
  state : FsmState
  /-- `FSM.etime`: the time edit buffer. -/
  etime : BcdTime
  /-- `FSM.ealarm`: the alarm edit buffer. -/
  ealarm : BcdTime
  /-- `FSM.armed[b]`: the edge-consumption latches. -/
  armed : Buttons
  /-- `FSM.active`: `alarm_is_active`. -/
  active : Bool
  /-- `ALARM_OUT`, which drives the port `alarm_out`. -/
  alarmOut : Bool
  deriving DecidableEq, Repr

/-- The fields of a response word (R54). A field that a command does not name is 0. -/
structure Response where
  ill : Bool := false
  aout : Bool := false
  state : BitVec 3 := 0
  dig : BitVec 3 := 0
  edge : BitVec 2 := 0
  res : Bool := false
  pat : BitVec 8 := 0
  time : BcdTime := BcdTime.zero
  deriving DecidableEq, Repr

/-- The agents that issue commands (R11). -/
inductive Agent where
  | tick
  | fsm
  | host
  deriving DecidableEq, Repr

/-- What the event delivery presents: `evt_btn[3:0]` and `evt_cond[2:0]` (R10, R13). -/
structure Event where
  btn : BitVec 4
  cond : BitVec 3
  deriving DecidableEq, Repr

/-- The requests on the input ports in one clock cycle (R10, R131): the reset with the configuration it
latches, the tick strobe, a delivered event (`evt_valid`), a command word (`cmd_valid`). -/
structure Ports where
  rst : Option Straps := none
  tick : Bool := false
  evt : Option Event := none
  cmd : Option Word64 := none
  deriving DecidableEq, Repr

/-- A fault: something that stops the machine. Lab4 CORE raises no exception and no failure stops it
(R126, R129), so there is none. Safe: a step can end in a next state or in a refusal, never here. -/
inductive Fault : Type
  deriving DecidableEq, Repr

/-- Why the model gives no next state. -/
inductive Refusal where
  /-- Raised by no arm of `exec`: every command has its meaning. Safe. -/
  | notModelled (mnemonic : String)
  /-- Raised by the reset input when the configuration it would latch has no block (R9, R147), and by
  `FSM_STEP` when the latched digit count is below 4, where R9 gives the coordinator no block. Safe: the
  spec says that no model exists for such a configuration. -/
  | illegalConfiguration
  deriving DecidableEq, Repr

/-- The state of the block. The fields `cfg` to `fsm` and `rsp` are the spec's. `resp`, `tickRsp`,
`fsmRsp` and `inbox` are the model's: the response of the last retired command, the records of the
agents that have no `rsp` port (R45), and the requests still to come. -/
structure State where
  /-- The configuration latched at reset (R8, R144). -/
  cfg : Config
  /-- The clock engine (R24). -/
  clk : Clk
  /-- The display engine (R26). -/
  dsp : Dsp
  /-- The display driver's outputs (R28). -/
  drv : Drv
  /-- `EDG.prev[0 .. EDGE_N - 1]` (R29). -/
  edg : Vector Bool edgeN
  /-- The coordinator and `ALARM_OUT` (R30, R31). -/
  fsm : Fsm
  /-- The response word of the last command that retired, whoever issued it (R17, R54). -/
  resp : Word64
  /-- The port `rsp`: the response of the last HOST command (R45). -/
  rsp : Word64
  /-- The responses of the TICK agent's commands, oldest first (R45). -/
  tickRsp : List Word64
  /-- The responses of the FSM agent's commands, oldest first (R45). -/
  fsmRsp : List Word64
  /-- The requests of the clock cycles still to come, the present cycle first (R10, R44, R131). -/
  inbox : List Ports
  deriving DecidableEq, Repr

/-- The clock engine after reset (R24, R145). -/
def Clk.reset : Clk where
  cur := BcdTime.zero
  valid := false
  acc := 0
  alarm := BcdTime.zero
  snooze := BcdTime.zero
  en := false
  ring := false

/-- The display engine after reset (R26, R145): no blink, every dot disabled. -/
def Dsp.reset : Dsp where
  cur := 0
  seg := Vector.replicate 8 0
  bfrom := 0
  bto := 0
  bper := 0
  bph := 0
  dots := Vector.replicate 8 { per := 0, en := false, ph := 0 }

/-- The driver outputs after reset (R28, R145): dark. -/
def Drv.reset : Drv where
  segOut := 0
  digOn := none
  trace := []

/-- The coordinator after reset (R30, R31, R145): every latch armed. -/
def Fsm.reset : Fsm where
  state := .showTime
  etime := BcdTime.zero
  ealarm := BcdTime.zero
  armed := { acc := true, can := true, inc := true, dec := true }
  active := false
  alarmOut := false

/-- The block right after a reset that latched the configuration `c` (R144, R145), with no request. -/
def State.resetWith (c : Config) : State where
  cfg := c
  clk := Clk.reset
  dsp := Dsp.reset
  drv := Drv.reset
  edg := Vector.replicate edgeN false
  fsm := Fsm.reset
  resp := 0
  rsp := 0
  tickRsp := []
  fsmRsp := []
  inbox := []

/-- The machine right after reset: every register at R145's value, the configuration that of the
application with its OPEN parameters free (log 1, 2). -/
def State.reset : State := State.resetWith Config.application

end Sys2Proof.Machine
end

