-- ==== Sys2Proof/Machine/Operands.lean ====
section
/-! DEFINITION. The operand forms: digit pairs as integers and back (R17, R70), the fields of a BcdTime,
the scaled divisor (R65), digit indices, the configuration of the straps (R8), the word the event
delivery builds (R64) and the flat view of a BcdTime (R20). -/

namespace Sys2Proof.Machine

open Sys2Proof

/-- `val(tens, units)` (R17): in [0, 165] for 4-bit digits. -/
def val (tens units : Nibble) : Nat := 10 * tens.toNat + units.toNat

/-- The tens digit of `bcd(v)` (R17). -/
def tensOf (v : Nat) : Nibble := BitVec.ofNat 4 (v / 10)

/-- The units digit of `bcd(v)` (R17). -/
def unitsOf (v : Nat) : Nibble := BitVec.ofNat 4 (v % 10)

/-- `t.S` (R17). -/
def seconds (t : BcdTime) : Nat := val t.s10 t.s1

/-- `t.M` (R17). -/
def minutes (t : BcdTime) : Nat := val t.m10 t.m1

/-- `t.H` (R17). -/
def hours (t : BcdTime) : Nat := val t.h10 t.h1

/-- `(t.s10, t.s1) <- bcd(v)`. -/
def withSeconds (t : BcdTime) (v : Nat) : BcdTime := { t with s10 := tensOf v, s1 := unitsOf v }

/-- `(t.m10, t.m1) <- bcd(v)`. -/
def withMinutes (t : BcdTime) (v : Nat) : BcdTime := { t with m10 := tensOf v, m1 := unitsOf v }

/-- `(t.h10, t.h1) <- bcd(v)`. -/
def withHours (t : BcdTime) (v : Nat) : BcdTime := { t with h10 := tensOf v, h1 := unitsOf v }

/-- `t.s10 <- 0; t.s1 <- 0` (R115). -/
def zeroSeconds (t : BcdTime) : BcdTime := { t with s10 := 0, s1 := 0 }

/-- The flat array view `A[0..5] = [s10, s1, m10, m1, h10, h1]`, one digit a byte (R20, R38). -/
def flatArray (t : BcdTime) : Vector (BitVec 8) 6 :=
  #v[t.s10.setWidth 8, t.s1.setWidth 8, t.m10.setWidth 8, t.m1.setWidth 8, t.h10.setWidth 8,
     t.h1.setWidth 8]

/-- The period that a blink divisor stands for: `2 × DIV`, in 17 bits (R65). -/
def period (divisor : BitVec 16) : BitVec 17 := BitVec.ofNat 17 (2 * divisor.toNat)

/-- `N = min(DIGITS, MAX_DIGITS)`, the constant `DSP.n` (R8, R26). -/
def digitCount (c : Config) : Nat := min c.digits.val.toNat maxDigits

/-- A digit register as an index of the eight-entry arrays (R26). -/
def slot (d : BitVec 3) : Fin 8 := ⟨d.toNat, d.isLt⟩

/-- The digit register for an operand index: its low three bits, which is the index itself for every
index a command accepts, since `DSP.n <= 8` (R99, R100). -/
def digitReg (i : BitVec 4) : BitVec 3 := i.setWidth 3

/-- The divisor that disables a blink (R99, R100). -/
def noBlink : BitVec 16 := 0

/-- The eight values of a `DSP_WRITE_BCD` that lists only the first four (R68, R111). -/
def fourValues (a b c d : Nibble) : Vector Nibble 8 := #v[a, b, c, d, 0, 0, 0, 0]

/-- `SEG_TABLE[v]` with the decimal point dark (R92). Values above 9 have no entry and are rejected
before a table is read (R93), so the answer for them is never used. -/
def segPattern (c : Config) (v : Nibble) : BitVec 8 :=
  if h : v.toNat < 10 then (c.segTable[v.toNat]).setWidth 8 else 0

/-- The word the FSM agent builds from its ports: `BTN = evt_btn`, `EET = evt_cond[0]`,
`EEA = evt_cond[1]`, `XA = evt_cond[2]` (R64). -/
def eventWord (e : Event) : Word64 := 0x40#8 ++ 0#45 ++ e.cond ++ 0#4 ++ e.btn

/-- The code of a coordinator state (R30). -/
def stateCode : FsmState → BitVec 3
  | .showTime => 0
  | .adjustTimeMinutes => 1
  | .adjustTimeHours => 2
  | .adjustAlarmMinutes => 3
  | .adjustAlarmHours => 4
  | .controlAlarm => 5

/-- One field of well-formed straps. -/
theorem straps_ranges {p : Straps} (ok : p.wellFormed = true) :
    (1 ≤ p.tps ∧ p.tps < 2 ^ 16) ∧ (1 ≤ p.digits ∧ p.digits < 2 ^ 8) ∧
      (1 ≤ p.fsmBlinkDiv ∧ p.fsmBlinkDiv < 2 ^ 16) ∧
        (1 ≤ p.fsmDotDiv ∧ p.fsmDotDiv < 2 ^ 16) := by
  simp only [Straps.wellFormed, Straps.tpsOk, Straps.digitsOk, Straps.blinkDivOk, Straps.dotDivOk,
    Bool.and_eq_true, decide_eq_true_eq] at ok
  exact ⟨ok.1.1.1.1, ok.1.1.1.2, ok.1.2, ok.2⟩

/-- The configuration that reset latches from well-formed straps (R8, R144). -/
def configOf (p : Straps) (ok : p.wellFormed = true) : Config where
  tps := Positive.ofRange 16 p.tps (straps_ranges ok).1.1 (straps_ranges ok).1.2
  digits := Positive.ofRange 8 p.digits (straps_ranges ok).2.1.1 (straps_ranges ok).2.1.2
  fsmBlinkDiv :=
    Positive.ofRange 16 p.fsmBlinkDiv (straps_ranges ok).2.2.1.1 (straps_ranges ok).2.2.1.2
  fsmDotDiv := Positive.ofRange 16 p.fsmDotDiv (straps_ranges ok).2.2.2.1 (straps_ranges ok).2.2.2.2
  segTable := p.segTable

end Sys2Proof.Machine
end

