-- ==== Sys2Proof/Machine/Flags.lean ====
section
/-! DEFINITION. The conditions the rules compute: validity of a BcdTime (R21), the carry of the field
helpers (R71), the blink conditions (R97, R98), the edge of two samples (R104), the firing of a button
(R109) and the guard of `ShowTime` (R110). -/

namespace Sys2Proof.Machine

open Sys2Proof

/-- `valid_bcd(t)` (R21). -/
def validBcd (t : BcdTime) : Bool :=
  decide (t.s1.toNat ≤ 9) && decide (t.s10.toNat ≤ 5) && decide (t.m1.toNat ≤ 9) &&
    decide (t.m10.toNat ≤ 5) && decide (t.h1.toNat ≤ 9) && decide (t.h10.toNat ≤ 2) &&
      (decide (t.h10.toNat ≠ 2) || decide (t.h1.toNat ≤ 3))

/-- `wrap_inc(v, top)`: the value and the carry (R71). -/
def wrapInc (v top : Nat) : Nat × Bool := if v ≥ top then (0, true) else (v + 1, false)

/-- `wrap_dec(v, top)` (R71). -/
def wrapDec (v top : Nat) : Nat := if v = 0 ∨ v > top then top else v - 1

/-- `digit_off(d)`: the window blinks, holds `d`, and is in its off half (R97). -/
def digitOff (x : Dsp) (d : BitVec 3) : Bool :=
  decide (x.bper ≠ 0) && decide (x.bfrom.toNat ≤ d.toNat) && decide (d.toNat ≤ x.bto.toNat) &&
    decide (x.bph.toNat < x.bper.toNat / 2)

/-- A dot is armed when it is enabled with a nonzero period (R96). -/
def Dot.isArmed (x : Dot) : Bool := x.en && decide (x.per ≠ 0)

/-- A descriptor is in its off half (R98). -/
def Dot.isOff (x : Dot) : Bool := x.isArmed && decide (x.ph.toNat < x.per.toNat / 2)

/-- `dot_off(d)` (R98). -/
def dotOff (x : Dsp) (d : BitVec 3) : Bool := (x.dots.get (slot d)).isOff

/-- The `EDGE` code of a sample against the stored one: 1 `Activated`, 2 `Deactivated`, 0 `Unchanged`
(R54, R104). -/
def edgeCode (stored sample : Bool) : BitVec 2 :=
  if sample && !stored then 1 else if !sample && stored then 2 else 0

/-- A button fires in a step: its bit is present, the state tests it, and its latch is armed (R109). -/
def fires (present tested armed : Bool) : Bool := present && tested && armed

/-- The latch after the step: armed by an absent bit, cleared by firing, else kept (R109). -/
def latchAfter (present tested armed : Bool) : Bool :=
  if present then armed && !tested else true

/-- The ringing guard of `ShowTime`, read from the registers (R110). -/
def ringGuard (active ring : Bool) : Bool := !(active && ring)

end Sys2Proof.Machine
end

