-- ==== Sys2Proof/Machine/Ops.lean ====
section
/-! DEFINITION. The named operations over the state: writing one unit's registers, the response of a
command (R54) and its delivery to the agent that issued it (R45), the driver events (R95), the illegal
word (R66), the choice of the next request (R44, R133) and the reset (R144, R145).

Lab4 CORE takes no exception: no state is saved for a handler and nothing returns from one (R126, R134,
R135). It has no memory (R35). So there is no operation for either here. -/

namespace Sys2Proof.Machine

open Sys2Proof

/-- What a command or a request of the block ends in. -/
abbrev Result := Host.Outcome State Fault Refusal

/-- The clock engine's registers become `x`. -/
def State.withClk (s : State) (x : Clk) : State := { s with clk := x }

/-- The display engine's registers become `x`. -/
def State.withDsp (s : State) (x : Dsp) : State := { s with dsp := x }

/-- The driver outputs become `x`. -/
def State.withDrv (s : State) (x : Drv) : State := { s with drv := x }

/-- The edge detectors' samples become `x`. -/
def State.withEdg (s : State) (x : Vector Bool edgeN) : State := { s with edg := x }

/-- The coordinator's registers become `x`. -/
def State.withFsm (s : State) (x : Fsm) : State := { s with fsm := x }

/-- The response of the command becomes `w`. -/
def State.withResp (s : State) (w : Word64) : State := { s with resp := w }

/-- The requests still to come become `l`. -/
def State.withInbox (s : State) (l : List Ports) : State := { s with inbox := l }

/-- `DSP.n` of the block in state `s` (R26). -/
def State.digits (s : State) : Nat := digitCount s.cfg

/-- The response word: `ILL` 63, `AOUT` 52, `STATE` 50:48, `DIG` 46:44, `EDGE` 41:40, `RES` 32, `PAT`
31:24, `TIME` 23:0, every other bit 0 (R54). -/
def Response.word (r : Response) : Word64 :=
  BitVec.ofBool r.ill ++ 0#10 ++ BitVec.ofBool r.aout ++ 0#1 ++ r.state ++ 0#1 ++ r.dig ++ 0#2 ++
    r.edge ++ 0#7 ++ BitVec.ofBool r.res ++ r.pat ++ packTime r.time

/-- `respond(…)`: the response word of the current command (R17). -/
def respond (r : Response) (s : State) : State := s.withResp r.word

/-- The driver outputs after one event (R95). -/
def Drv.after (x : Drv) : DrvEvent → Drv
  | .offAll => { x with digOn := none, trace := x.trace ++ [.offAll] }
  | .update p => { x with segOut := p, trace := x.trace ++ [.update p] }
  | .on d => { x with digOn := some d, trace := x.trace ++ [.on d] }

/-- `emit(e)` (R17, R95). -/
def emit (e : DrvEvent) (s : State) : State := s.withDrv (s.drv.after e)

/-- An illegal word: the response `ILL = 1` with every other bit 0, and no other change (R66). -/
def illegal (s : State) : State := respond { ill := true } s

/-- The response of a retired command reaches its agent: the port `rsp` for HOST, the agent's record for
TICK and FSM (R45). -/
def deliver (a : Agent) (s : State) : State :=
  match a with
  | .host => { s with rsp := s.resp }
  | .fsm => { s with fsmRsp := s.fsmRsp ++ [s.resp] }
  | .tick => { s with tickRsp := s.tickRsp ++ [s.resp] }

/-- Go on from a next state; a fault or a refusal ends the transition. -/
def andThen (r : Result) (f : State → Result) : Result :=
  match r with
  | .next s => f s
  | .fault x => .fault x
  | .refused x => .refused x

/-- A request that the block serves in one atomic transition (R6, R131, R144). -/
inductive Request where
  | reset (straps : Straps)
  | tick
  | event (e : Event)
  | command (w : Word64)
  deriving DecidableEq, Repr

/-- No request of this clock cycle is left. -/
def Ports.quiet (p : Ports) : Bool :=
  p.rst.isNone && !p.tick && p.evt.isNone && p.cmd.isNone

/-- The requests still to come when `p` is what is left of the present cycle's. -/
def remaining (p : Ports) (later : List Ports) : List Ports :=
  if p.quiet then later else p :: later

/-- The next request and what is left. Of the requests of one clock cycle the tick goes first, then the
event delivery, then the command port (R44, R133); the reset goes before them (log 4). Each request is
taken exactly once (R131). -/
def nextRequest : List Ports → Option Request × List Ports
  | [] => (none, [])
  | p :: later =>
    match p.rst with
    | some straps => (some (.reset straps), remaining { p with rst := none } later)
    | none =>
      if p.tick then (some .tick, remaining { p with tick := false } later)
      else
        match p.evt with
        | some e => (some (.event e), remaining { p with evt := none } later)
        | none =>
          match p.cmd with
          | some w => (some (.command w), later)
          | none => (none, later)

/-- The reset: every register at its reset value and the configuration latched (R144, R145). A
configuration that R9 and R147 rule out has no block. The requests still to come stay (log 4). -/
def boot (p : Straps) (s : State) : Result :=
  if ok : p.wellFormed = true then .next ((State.resetWith (configOf p ok)).withInbox s.inbox)
  else .refused .illegalConfiguration

end Sys2Proof.Machine
end

