-- ==== Sys2Proof/Machine/Bcd.lean ====
section
/-! DEFINITION. The BCD arithmetic the clock engine's commands share (R72) and the four editing helpers
(R85 to R88). -/

namespace Sys2Proof.Machine

open Sys2Proof

/-- The hours one higher, the carry out of them dropped (R72). -/
def incHours (t : BcdTime) : BcdTime := withHours t (wrapInc (hours t) 23).1

/-- `add_minute(t)`: minutes with a carry into the hours, seconds kept (R72). -/
def addMinute (t : BcdTime) : BcdTime :=
  let m := wrapInc (minutes t) 59
  let u := withMinutes t m.1
  if m.2 then incHours u else u

/-- `advance_second(t)`: seconds with a carry into the minutes and from there into the hours (R72). -/
def advanceSecond (t : BcdTime) : BcdTime :=
  let x := wrapInc (seconds t) 59
  let u := withSeconds t x.1
  if x.2 then addMinute u else u

/-- `bcd_inc_min(t)`: minutes one higher without a carry into the hours (R85). -/
def bcdIncMin (t : BcdTime) : BcdTime := withMinutes t (wrapInc (minutes t) 59).1

/-- `bcd_dec_min(t)`: minutes one lower without a borrow from the hours (R86). -/
def bcdDecMin (t : BcdTime) : BcdTime := withMinutes t (wrapDec (minutes t) 59)

/-- `bcd_inc_hr(t)` (R87). -/
def bcdIncHr (t : BcdTime) : BcdTime := withHours t (wrapInc (hours t) 23).1

/-- `bcd_dec_hr(t)` (R88). -/
def bcdDecHr (t : BcdTime) : BcdTime := withHours t (wrapDec (hours t) 23)

/-- `BCD_INC_MIN` (R85). -/
def execBcdIncMin (t : BcdTime) (s : State) : Result :=
  .next (respond { time := bcdIncMin t } s)

/-- `BCD_DEC_MIN` (R86). -/
def execBcdDecMin (t : BcdTime) (s : State) : Result :=
  .next (respond { time := bcdDecMin t } s)

/-- `BCD_INC_HR` (R87). -/
def execBcdIncHr (t : BcdTime) (s : State) : Result :=
  .next (respond { time := bcdIncHr t } s)

/-- `BCD_DEC_HR` (R88). -/
def execBcdDecHr (t : BcdTime) (s : State) : Result :=
  .next (respond { time := bcdDecHr t } s)

end Sys2Proof.Machine
end

