-- ==== Sys2Proof/Machine/Clock.lean ====
section
/-! DEFINITION. The clock engine's commands (spec/40_clock_engine.md). The lower-case operations are the
rules' pseudocode over the engine's registers, which the coordinator calls too (R18); the `exec…`
meanings run one and respond (R55). -/

namespace Sys2Proof.Machine

open Sys2Proof

/-- `clk_set_time(t)`; its result is the validity it leaves (R74). -/
def clkSetTime (t : BcdTime) (x : Clk) : Clk :=
  if validBcd t then { x with cur := t, valid := true } else { x with valid := false }

/-- `clk_tick()` with `TPS = tps` (R75). -/
def clkTick (tps : BitVec 16) (x : Clk) : Clk :=
  if x.acc.toNat + 1 = tps.toNat then { x with acc := 0, cur := advanceSecond x.cur }
  else { x with acc := x.acc + 1 }

/-- `clk_set_alarm(t)` (R76). -/
def clkSetAlarm (t : BcdTime) (x : Clk) : Clk := { x with alarm := t, snooze := t, valid := true }

/-- `clk_alarm_is_ringing()`; its result is the latch it leaves (R78). -/
def clkAlarmIsRinging (x : Clk) : Clk :=
  if x.cur = x.snooze then
    if x.en then { x with ring := true } else { x with snooze := x.alarm }
  else x

/-- `clk_set_alarm_enabled(b)` (R80). -/
def clkSetAlarmEnabled (b : Bool) (x : Clk) : Clk := { x with en := b }

/-- `clk_postpone_alarm()` (R81). -/
def clkPostponeAlarm (x : Clk) : Clk := { x with alarm := addMinute x.alarm, ring := false }

/-- The minute count `n` minutes after the time `t`, modulo a day (R82). -/
def minuteCount (t : BcdTime) (n : Nat) : Nat := (hours t * 60 + minutes t + n) % 1440

/-- The time of day of a minute count, at second 00 (R82). -/
def timeOfMinutes (f : Nat) : BcdTime := withHours (withMinutes BcdTime.zero (f % 60)) (f / 60)

/-- The minute counts that `CLK_POSTPONE_MINUTES` rejects (R82). -/
def badPostponement (n : BitVec 8) : Bool := decide (n.toNat = 0) || decide (60 ≤ n.toNat)

/-- `clk_postpone_minutes(n)` (R82): the registers and whether it succeeded. -/
def clkPostponeMinutes (n : BitVec 8) (x : Clk) : Clk × Bool :=
  if badPostponement n then (x, false)
  else ({ x with snooze := timeOfMinutes (minuteCount x.cur n.toNat), ring := false }, true)

/-- `clk_postpone_one_day()` (R83). -/
def clkPostponeOneDay (x : Clk) : Clk := { x with snooze := x.alarm, ring := false }

/-- `clk_reset_alarm()` (R84). -/
def clkResetAlarm (x : Clk) : Clk :=
  { x with valid := false, ring := false, en := false, alarm := BcdTime.zero }

/-- `CLK_GET_TIME` (R73). -/
def execClkGetTime (s : State) : Result :=
  .next (respond { time := s.clk.cur, res := s.clk.valid } s)

/-- `CLK_SET_TIME` (R74). -/
def execClkSetTime (t : BcdTime) (s : State) : Result :=
  let x := clkSetTime t s.clk
  .next (respond { res := x.valid } (s.withClk x))

/-- `CLK_TICK` (R75). -/
def execClkTick (s : State) : Result :=
  .next (respond {} (s.withClk (clkTick s.cfg.tps.val s.clk)))

/-- `CLK_SET_ALARM` (R76). -/
def execClkSetAlarm (t : BcdTime) (s : State) : Result :=
  .next (respond { res := true } (s.withClk (clkSetAlarm t s.clk)))

/-- `CLK_GET_ALARM` (R77). -/
def execClkGetAlarm (s : State) : Result :=
  .next (respond { time := s.clk.alarm, res := s.clk.valid } s)

/-- `CLK_ALARM_IS_RINGING` (R78). -/
def execClkAlarmIsRinging (s : State) : Result :=
  let x := clkAlarmIsRinging s.clk
  .next (respond { res := x.ring } (s.withClk x))

/-- `CLK_SET_ALARM_ENABLED` (R80). -/
def execClkSetAlarmEnabled (b : Bool) (s : State) : Result :=
  .next (respond {} (s.withClk (clkSetAlarmEnabled b s.clk)))

/-- `CLK_POSTPONE_ALARM` (R81). -/
def execClkPostponeAlarm (s : State) : Result :=
  .next (respond {} (s.withClk (clkPostponeAlarm s.clk)))

/-- `CLK_POSTPONE_MINUTES` (R82). -/
def execClkPostponeMinutes (n : BitVec 8) (s : State) : Result :=
  let x := clkPostponeMinutes n s.clk
  .next (respond { res := x.2 } (s.withClk x.1))

/-- `CLK_POSTPONE_ONE_DAY` (R83). -/
def execClkPostponeOneDay (s : State) : Result :=
  .next (respond {} (s.withClk (clkPostponeOneDay s.clk)))

/-- `CLK_RESET_ALARM` (R84). -/
def execClkResetAlarm (s : State) : Result :=
  .next (respond {} (s.withClk (clkResetAlarm s.clk)))

end Sys2Proof.Machine
end

