-- ==== Sys2Proof/Machine/Display.lean ====
section
/-! DEFINITION. The display engine's commands (spec/41_display_engine.md): the operations over its
registers, then the meanings. `n` is `DSP.n` throughout. -/

namespace Sys2Proof.Machine

open Sys2Proof

/-- Some value among the first `k` is above 9 (R93). -/
def badValues (k : Nat) (v : Vector Nibble 8) : Bool :=
  ([0, 1, 2, 3, 4, 5, 6, 7] : List (Fin 8)).any
    fun i => decide (i.val < k) && decide (9 < (v.get i).toNat)

/-- `dsp_write_bcd(size, V)` (R93): the registers and whether the call was accepted. -/
def dspWriteBcd (c : Config) (size : BitVec 4) (v : Vector Nibble 8) (x : Dsp) : Dsp × Bool :=
  let n := digitCount c
  let k := min size.toNat n
  if badValues k v then (x, false)
  else
    ({ x with
        seg := Vector.ofFn fun d : Fin 8 =>
          if d.val < k then segPattern c (v.get d) else if d.val < n then 0 else x.seg.get d },
     true)

/-- A phase counter one further, modulo its period (R96). -/
def nextPhase (ph per : BitVec 17) : BitVec 17 := BitVec.ofNat 17 ((ph.toNat + 1) % per.toNat)

/-- A dot descriptor at the mux-cycle boundary: only an armed one advances (R96). -/
def Dot.advance (x : Dot) : Dot := if x.isArmed then { x with ph := nextPhase x.ph x.per } else x

/-- `advance_phases()` (R96). -/
def advancePhases (n : Nat) (x : Dsp) : Dsp :=
  { x with
      bph := if x.bper ≠ 0 then nextPhase x.bph x.bper else x.bph
      dots := Vector.ofFn fun k : Fin 8 =>
        if k.val < n then (x.dots.get k).advance else x.dots.get k }

/-- The digit a refresh lights: `(DSP.cur + 1) mod DSP.n` (R94). -/
def nextDigit (n : Nat) (x : Dsp) : BitVec 3 := BitVec.ofNat 3 ((x.cur.toNat + 1) % n)

/-- The registers after a refresh: the cursor, and on its wrap to 0 the phases (R94). -/
def dspAfterRefresh (n : Nat) (x : Dsp) : Dsp :=
  let d := nextDigit n x
  let y := { x with cur := d }
  if d = 0 then advancePhases n y else y

/-- The decimal point, bit 7 of a pattern (R91). -/
def decimalPoint : BitVec 8 := 0x80

/-- The pattern digit `d` is shown with: its stored segments or none, its decimal point on or off
(R94, R97, R98). -/
def patternOf (x : Dsp) (d : BitVec 3) : BitVec 8 :=
  let p := if digitOff x d then 0 else x.seg.get (slot d)
  if dotOff x d then p &&& ~~~decimalPoint else p ||| decimalPoint

/-- The indices that `DSP_CFG_DIGIT_BLINK` rejects (R99). -/
def badWindow (n : Nat) (first last : BitVec 4) : Bool :=
  decide (last.toNat < first.toNat) || decide (n ≤ first.toNat) || decide (n ≤ last.toNat)

/-- `dsp_cfg_digit_blink(from, to, div)` (R99): the registers and whether it succeeded. -/
def dspCfgDigitBlink (n : Nat) (first last : BitVec 4) (divisor : BitVec 16) (x : Dsp) :
    Dsp × Bool :=
  if badWindow n first last then (x, false)
  else
    ({ x with
        bfrom := digitReg first, bto := digitReg last, bper := period divisor, bph := 0 },
     true)

/-- `dsp_cfg_dot_blink(digit, div, en)` (R100): the registers and whether it succeeded. -/
def dspCfgDotBlink (n : Nat) (digit : BitVec 4) (divisor : BitVec 16) (en : Bool) (x : Dsp) :
    Dsp × Bool :=
  if n ≤ digit.toNat then (x, false)
  else
    ({ x with
        dots := Vector.ofFn fun k : Fin 8 =>
          if k = slot (digitReg digit) then { per := period divisor, en := en, ph := 0 }
          else x.dots.get k },
     true)

/-- `DSP_WRITE_BCD` (R93). -/
def execDspWriteBcd (size : BitVec 4) (v : Vector Nibble 8) (s : State) : Result :=
  let x := dspWriteBcd s.cfg size v s.dsp
  .next (respond { res := x.2 } (s.withDsp x.1))

/-- `DSP_REFRESH` (R94): the three driver events in order (R95), the pattern taken after the phases have
advanced (D19). -/
def execDspRefresh (s : State) : Result :=
  let x := dspAfterRefresh s.digits s.dsp
  let p := patternOf x x.cur
  .next (respond { dig := x.cur, pat := p }
    (emit (.on x.cur) (emit (.update p) (emit .offAll (s.withDsp x)))))

/-- `DSP_CFG_DIGIT_BLINK` (R99). -/
def execDspCfgDigitBlink (first last : BitVec 4) (divisor : BitVec 16) (s : State) : Result :=
  let x := dspCfgDigitBlink s.digits first last divisor s.dsp
  .next (respond { res := x.2 } (s.withDsp x.1))

/-- `DSP_CFG_DOT_BLINK` (R100). -/
def execDspCfgDotBlink (digit : BitVec 4) (divisor : BitVec 16) (en : Bool) (s : State) : Result :=
  let x := dspCfgDotBlink s.digits digit divisor en s.dsp
  .next (respond { res := x.2 } (s.withDsp x.1))

end Sys2Proof.Machine
end

