-- ==== Sys2Proof/Machine/Coordinator.lean ====
section
/-! DEFINITION. The coordinator FSM (spec/43_coordinator_fsm.md): the machinery every state shares
(R109 to R112), the six states (R114 to R120) and `FSM_STEP` (R108). The engine commands it calls are
the operations of Machine/Clock.lean and Machine/Display.lean, whose results it ignores (R18, R130). -/

namespace Sys2Proof.Machine

open Sys2Proof

/-- No button. -/
def noButtons : Buttons := { acc := false, can := false, inc := false, dec := false }

/-- Accept and Cancel. -/
def acceptCancel : Buttons := { acc := true, can := true, inc := false, dec := false }

/-- All four buttons. -/
def allButtons : Buttons := { acc := true, can := true, inc := true, dec := true }

/-- `tested_set(FSM.state)`, with the guard of `ShowTime` (R110). -/
def testedSet (s : State) : Buttons :=
  match s.fsm.state with
  | .showTime => if ringGuard s.fsm.active s.clk.ring then acceptCancel else noButtons
  | .adjustTimeMinutes => allButtons
  | .adjustTimeHours => allButtons
  | .adjustAlarmMinutes => allButtons
  | .adjustAlarmHours => allButtons
  | .controlAlarm => acceptCancel

/-- The buttons that fire when `btn` is delivered and `tested` are tested (R109). -/
def firing (btn tested armed : Buttons) : Buttons where
  acc := fires btn.acc tested.acc armed.acc
  can := fires btn.can tested.can armed.can
  inc := fires btn.inc tested.inc armed.inc
  dec := fires btn.dec tested.dec armed.dec

/-- The latches after that step (R109). -/
def latches (btn tested armed : Buttons) : Buttons where
  acc := latchAfter btn.acc tested.acc armed.acc
  can := latchAfter btn.can tested.can armed.can
  inc := latchAfter btn.inc tested.inc armed.inc
  dec := latchAfter btn.dec tested.dec armed.dec

/-- `render_time(t)`: hours and minutes on digits 0 to 3 (R111). -/
def renderTime (c : Config) (t : BcdTime) (x : Dsp) : Dsp :=
  (dspWriteBcd c 4 (fourValues t.h10 t.h1 t.m10 t.m1) x).1

/-- `ensure_digit_blink(f, t, div)`: program the window only on a change (R112). -/
def ensureDigitBlink (c : Config) (first last : BitVec 4) (divisor : BitVec 16) (x : Dsp) : Dsp :=
  if x.bfrom = digitReg first ∧ x.bto = digitReg last ∧ x.bper = period divisor then x
  else (dspCfgDigitBlink (digitCount c) first last divisor x).1

/-- `ensure_dot(d, div, en)`: program the dot only on a change (R112). -/
def ensureDot (c : Config) (d : BitVec 4) (divisor : BitVec 16) (en : Bool) (x : Dsp) : Dsp :=
  if (x.dots.get (slot (digitReg d))).per = period divisor ∧
      (x.dots.get (slot (digitReg d))).en = en then x
  else (dspCfgDotBlink (digitCount c) d divisor en x).1

/-- The display work of a `ShowTime` step (R114): the time, the whole-display blink while it is invalid,
dots 0 to 2 steady, the alarm dot blinking while the alarm is active. -/
def renderShowTime (c : Config) (t : BcdTime) (valid active : Bool) (x : Dsp) : Dsp :=
  let x := renderTime c t x
  let x := ensureDigitBlink c 0 3 (if valid then noBlink else c.fsmBlinkDiv.val) x
  let x := ensureDot c 0 noBlink true x
  let x := ensureDot c 1 noBlink true x
  let x := ensureDot c 2 noBlink true x
  if active then ensureDot c alarmDot c.fsmDotDiv.val true x else ensureDot c alarmDot noBlink false x

/-- `FSM.active` after Accept and then Cancel of a `ShowTime` step (R114, D25). -/
def activeAfter (fire : Buttons) (active : Bool) : Bool :=
  if fire.can then false else if fire.acc then true else active

/-- The coordinator's registers after a `ShowTime` step (R114): `t` is the time read, `alarm` the
configured alarm. -/
def showTimeFsm (t alarm : BcdTime) (fire : Buttons) (eet eea : Bool) (f : Fsm) : Fsm :=
  let f := { f with active := activeAfter fire f.active }
  if eet then { f with etime := t, state := .adjustTimeMinutes }
  else if eea then { f with ealarm := alarm, state := .adjustAlarmMinutes }
  else if f.active then { f with state := .controlAlarm }
  else { f with state := .showTime }

/-- The clock engine after a `ShowTime` step: the alarm enabled while it is active (R114). -/
def showTimeClk (active : Bool) (x : Clk) : Clk := if active then clkSetAlarmEnabled true x else x

/-- `step_show_time(fire, eet, eea)` (R114). -/
def stepShowTime (fire : Buttons) (eet eea : Bool) (s : State) : State :=
  ((s.withDsp (renderShowTime s.cfg s.clk.cur s.clk.valid s.fsm.active s.dsp)).withClk
    (showTimeClk (activeAfter fire s.fsm.active) s.clk)).withFsm
      (showTimeFsm s.clk.cur s.clk.alarm fire eet eea s.fsm)

/-- Which buffer an adjust state edits (R115). -/
inductive EditKind where
  | time
  | alarm
  deriving DecidableEq, Repr

/-- Which digit pair an adjust state edits (R115). -/
inductive EditField where
  | minutes
  | hours
  deriving DecidableEq, Repr

/-- The edit buffer of a kind (R115). -/
def editBuffer (kind : EditKind) (f : Fsm) : BcdTime :=
  match kind with
  | .time => f.etime
  | .alarm => f.ealarm

/-- Store the buffer of a kind back (R115). -/
def storeBuffer (kind : EditKind) (t : BcdTime) (f : Fsm) : Fsm :=
  match kind with
  | .time => { f with etime := t }
  | .alarm => { f with ealarm := t }

/-- The helper of an Increment in a field (R115). -/
def increment (field : EditField) (t : BcdTime) : BcdTime :=
  match field with
  | .minutes => bcdIncMin t
  | .hours => bcdIncHr t

/-- The helper of a Decrement in a field (R115). -/
def decrement (field : EditField) (t : BcdTime) : BcdTime :=
  match field with
  | .minutes => bcdDecMin t
  | .hours => bcdDecHr t

/-- The buffer after Increment and then Decrement of one step (R115, D25). -/
def editedBuffer (field : EditField) (fire : Buttons) (t : BcdTime) : BcdTime :=
  let t := if fire.inc then increment field t else t
  if fire.dec then decrement field t else t

/-- The display work of an adjust step (R115): the buffer, the blink of its field's window, and for an
alarm all four dots. -/
def renderAdjust (c : Config) (kind : EditKind) (field : EditField) (t : BcdTime) (x : Dsp) : Dsp :=
  let x := renderTime c t x
  let x :=
    match field with
    | .minutes => ensureDigitBlink c 2 3 c.fsmBlinkDiv.val x
    | .hours => ensureDigitBlink c 0 1 c.fsmBlinkDiv.val x
  match kind with
  | .time => x
  | .alarm =>
    ensureDot c 3 c.fsmDotDiv.val true
      (ensureDot c 2 c.fsmDotDiv.val true
        (ensureDot c 1 c.fsmDotDiv.val true (ensureDot c 0 c.fsmDotDiv.val true x)))

/-- The hours state that follows a minutes state (R115, R121). -/
def hoursState : EditKind → FsmState
  | .time => .adjustTimeHours
  | .alarm => .adjustAlarmHours

/-- The commit of an edited buffer (R115): `clk_set_time` or `clk_set_alarm`. -/
def commit (kind : EditKind) (t : BcdTime) (x : Clk) : Clk :=
  match kind with
  | .time => clkSetTime t x
  | .alarm => clkSetAlarm t x

/-- The exit condition and Cancel discard and suppress everything else (R115, D25, D42). -/
def discards (fire : Buttons) (xa : Bool) : Bool := xa || fire.can

/-- An Accept in an hours state commits (R115). -/
def commits (field : EditField) (fire : Buttons) : Bool :=
  match field with
  | .minutes => false
  | .hours => fire.acc

/-- The buffer that an adjust step stores back: edited, and with its seconds zeroed by a commit
(R115). -/
def storedBuffer (field : EditField) (fire : Buttons) (t : BcdTime) : BcdTime :=
  let t := editedBuffer field fire t
  if commits field fire then zeroSeconds t else t

/-- The state that an Accept moves to (R115, R121). -/
def acceptState (kind : EditKind) (field : EditField) : FsmState :=
  match field with
  | .minutes => hoursState kind
  | .hours => .showTime

/-- The coordinator's registers after an adjust step of the buffer `t` (R115). -/
def adjustFsm (kind : EditKind) (field : EditField) (fire : Buttons) (xa : Bool) (t : BcdTime)
    (f : Fsm) : Fsm :=
  if discards fire xa then { f with state := .showTime }
  else
    let f := storeBuffer kind (storedBuffer field fire t) f
    if fire.acc then { f with state := acceptState kind field } else f

/-- The clock engine after an adjust step of the buffer `t` (R115). -/
def adjustClk (kind : EditKind) (field : EditField) (fire : Buttons) (xa : Bool) (t : BcdTime)
    (x : Clk) : Clk :=
  if discards fire xa then x
  else if commits field fire then commit kind (storedBuffer field fire t) x
  else x

/-- `step_adjust(kind, field, fire, xa)` (R115). -/
def stepAdjust (kind : EditKind) (field : EditField) (fire : Buttons) (xa : Bool) (s : State) :
    State :=
  let t := editBuffer kind s.fsm
  ((s.withDsp (renderAdjust s.cfg kind field t s.dsp)).withClk
    (adjustClk kind field fire xa t s.clk)).withFsm (adjustFsm kind field fire xa t s.fsm)

/-- The clock engine after a `ControlAlarm` step: the evaluation, then Accept's snooze, then Cancel's
one-day postponement (R120, D25). -/
def controlAlarmClk (fire : Buttons) (x : Clk) : Clk :=
  let x := clkAlarmIsRinging x
  let x := if fire.acc then (clkPostponeMinutes snoozeMin x).1 else x
  if fire.can then clkPostponeOneDay x else x

/-- `step_control_alarm(fire)` (R120). -/
def stepControlAlarm (fire : Buttons) (s : State) : State :=
  let ringing := (clkAlarmIsRinging s.clk).ring
  (s.withClk (controlAlarmClk fire s.clk)).withFsm
    { s.fsm with
        alarmOut := ringing && s.fsm.active && !fire.acc && !fire.can
        state := .showTime }

/-- The state's own part of a step, the latches already written (R108). -/
def stepInState (fire : Buttons) (eet eea xa : Bool) (s : State) : State :=
  match s.fsm.state with
  | .showTime => stepShowTime fire eet eea s
  | .adjustTimeMinutes => stepAdjust .time .minutes fire xa s
  | .adjustTimeHours => stepAdjust .time .hours fire xa s
  | .adjustAlarmMinutes => stepAdjust .alarm .minutes fire xa s
  | .adjustAlarmHours => stepAdjust .alarm .hours fire xa s
  | .controlAlarm => stepControlAlarm fire s

/-- The block after the coordinator's work of one step, before the response (R108). -/
def fsmStep (btn : Buttons) (eet eea xa : Bool) (s : State) : State :=
  let tested := testedSet s
  let fire := firing btn tested s.fsm.armed
  stepInState fire eet eea xa
    (s.withFsm { s.fsm with armed := latches btn tested s.fsm.armed })

/-- `FSM_STEP` (R108). With fewer than four digits the coordinator has no block (R9, R111). -/
def execFsmStep (btn : Buttons) (eet eea xa : Bool) (s : State) : Result :=
  if s.digits < 4 then .refused .illegalConfiguration
  else
    let t := fsmStep btn eet eea xa s
    .next (respond { state := stateCode t.fsm.state, aout := t.fsm.alarmOut } t)

end Sys2Proof.Machine
end

