-- ==== Sys2Proof/Machine/Edge.lean ====
section
/-! DEFINITION. The edge detectors (spec/42_edge_detector.md): `EDG_SAMPLE` and the two predicates over
its response (R105). -/

namespace Sys2Proof.Machine

open Sys2Proof

/-- `EDG_SAMPLE idx, s` (R104): an index with no instance fails and stores nothing. -/
def execEdgSample (idx : BitVec 4) (sample : Bool) (s : State) : Result :=
  if h : idx.toNat < edgeN then
    .next (respond { res := true, edge := edgeCode s.edg[idx.toNat] sample }
      (s.withEdg (s.edg.set idx.toNat sample)))
  else .next (respond {} s)

/-- The `RES` bit of a response word (R54). -/
def resBit (r : Word64) : Bool := r.getLsbD 32

/-- The `EDGE` field of a response word (R54). -/
def edgeField (r : Word64) : BitVec 2 := r.extractLsb' 40 2

/-- `WasActivated(r)` over an `EDG_SAMPLE` response (R105). -/
def wasActivated (r : Word64) : Bool := resBit r && decide (edgeField r = 1)

/-- `WasDeactivated(r)` over an `EDG_SAMPLE` response (R105). -/
def wasDeactivated (r : Word64) : Bool := resBit r && decide (edgeField r = 2)

end Sys2Proof.Machine
end

