-- ==== Sys2Proof/Machine/Dispatch.lean ====
section
/-! DEFINITION. One arm per command (R52), each a direct call of its meaning. -/

namespace Sys2Proof.Machine

open Sys2Proof

def exec (i : Instr) (s : State) : Host.Outcome State Fault Refusal :=
  match i with
  | .clkGetTime => Sys2Proof.Machine.execClkGetTime s
  | .clkSetTime time => Sys2Proof.Machine.execClkSetTime time s
  | .clkTick => Sys2Proof.Machine.execClkTick s
  | .clkSetAlarm time => Sys2Proof.Machine.execClkSetAlarm time s
  | .clkGetAlarm => Sys2Proof.Machine.execClkGetAlarm s
  | .clkAlarmIsRinging => Sys2Proof.Machine.execClkAlarmIsRinging s
  | .clkSetAlarmEnabled b => Sys2Proof.Machine.execClkSetAlarmEnabled b s
  | .clkPostponeAlarm => Sys2Proof.Machine.execClkPostponeAlarm s
  | .clkPostponeMinutes minutes => Sys2Proof.Machine.execClkPostponeMinutes minutes s
  | .clkPostponeOneDay => Sys2Proof.Machine.execClkPostponeOneDay s
  | .clkResetAlarm => Sys2Proof.Machine.execClkResetAlarm s
  | .bcdIncMin time => Sys2Proof.Machine.execBcdIncMin time s
  | .bcdDecMin time => Sys2Proof.Machine.execBcdDecMin time s
  | .bcdIncHr time => Sys2Proof.Machine.execBcdIncHr time s
  | .bcdDecHr time => Sys2Proof.Machine.execBcdDecHr time s
  | .dspWriteBcd size values => Sys2Proof.Machine.execDspWriteBcd size values s
  | .dspRefresh => Sys2Proof.Machine.execDspRefresh s
  | .dspCfgDigitBlink first last divisor => Sys2Proof.Machine.execDspCfgDigitBlink first last divisor s
  | .dspCfgDotBlink digit divisor enabled => Sys2Proof.Machine.execDspCfgDotBlink digit divisor enabled s
  | .edgSample idx sample => Sys2Proof.Machine.execEdgSample idx sample s
  | .fsmStep btn eet eea xa => Sys2Proof.Machine.execFsmStep btn eet eea xa s

end Sys2Proof.Machine
end

