-- ==== Sys2Proof/Machine/Agents.lean ====
section
/-! DEFINITION. What a request of each agent does, in one atomic transition (R6, R11, R42): the command
word of the HOST and of the FSM agent, the tick event (R43, R69), the reset (R144). -/

namespace Sys2Proof.Machine

open Sys2Proof

/-- Run the command word `w` for the agent `a`: an illegal word is decided before anything else (R53,
R66, R128); then the response reaches the agent (R45). -/
def runWord (a : Agent) (w : Word64) (s : State) : Result :=
  match decode w with
  | .ok i => andThen (exec i s) fun t => .next (deliver a t)
  | .error _ => .next (deliver a (illegal s))

/-- The tick event: `CLK_TICK` immediately followed by `DSP_REFRESH`, one atomic transition (R43). -/
def tickEvent (s : State) : Result :=
  andThen (exec .clkTick s) fun t =>
    andThen (exec .dspRefresh (deliver .tick t)) fun u => .next (deliver .tick u)

/-- Serve one request (R131). -/
def serve (r : Request) (s : State) : Result :=
  match r with
  | .reset p => boot p s
  | .tick => tickEvent s
  | .event e => runWord .fsm (eventWord e) s
  | .command w => runWord .host w s

/-- One transition of the block: take the next request and serve it; with none, the block is idle
(R143, R146). -/
def advance (s : State) : Result :=
  match nextRequest s.inbox with
  | (some r, l) => serve r (s.withInbox l)
  | (none, l) => .next (s.withInbox l)

/-- The requests when the HOST's word, the number `w` of `nbits` bits, is alone in a clock cycle before
all that are still to come. -/
def commandFirst (nbits w : Nat) (l : List Ports) : List Ports :=
  { cmd := some (BitVec.ofNat 64 (w % 2 ^ nbits)) } :: l

end Sys2Proof.Machine
end

