-- ==== Sys2Proof/Machine/Step.lean ====
section
/-! DEFINITION. The step of the machine: one atomic transition (R6, R42), and the placing of a command
word where the next step takes it from. -/

namespace Sys2Proof.Machine

open Sys2Proof

/-- One step (R6, R131). -/
def step (s : State) : Host.Outcome State Fault Refusal := advance s

/-- The state `s` with a command word presented on the command port in a clock cycle of its own, before
every request still to come (R10, R131; log 3). -/
def State.withFetchWord (s : State) (nbits w : Nat) : State :=
  s.withInbox (commandFirst nbits w s.inbox)

end Sys2Proof.Machine
end

