-- ==== Sys2Proof/Safety.lean ====
section
/-! DEFINITION. What the claims use: the invariants of the clock engine (R25), of the display engine
(R27), of the driver outputs (R95) and of the time edit buffer (R124), and the states from which every
step has a next state (R126, R129). -/

namespace Sys2Proof.Machine

open Sys2Proof

/-- R25: `CLK.acc < TPS`, and `CLK.cur` is valid. -/
def ClockInv (s : State) : Prop :=
  s.clk.acc.toNat < s.cfg.tps.val.toNat ∧ validBcd s.clk.cur = true

/-- A phase counter against its period (R27): below it, and 0 when the period is 0. -/
def PhaseOk (ph per : BitVec 17) : Prop :=
  (per ≠ 0 → ph.toNat < per.toNat) ∧ (per = 0 → ph = 0)

/-- A descriptor's period is even, and its phase fits it (R27). -/
def DescriptorOk (ph per : BitVec 17) : Prop := per.toNat % 2 = 0 ∧ PhaseOk ph per

/-- R27, and R26's sentence that the entries at `d >= DSP.n` keep their reset values. -/
def DisplayInv (s : State) : Prop :=
  s.dsp.cur.toNat < s.digits ∧
    (s.dsp.bfrom.toNat ≤ s.dsp.bto.toNat ∧ s.dsp.bto.toNat < s.digits) ∧
      DescriptorOk s.dsp.bph s.dsp.bper ∧
        ∀ d : Fin 8,
          DescriptorOk (s.dsp.dots.get d).ph (s.dsp.dots.get d).per ∧
            (s.dsp.seg.get d).getLsbD 7 = false ∧
              (s.digits ≤ d.val →
                s.dsp.seg.get d = 0 ∧ s.dsp.dots.get d = { per := 0, en := false, ph := 0 })

/-- A trace made of whole refreshes: `OFF_ALL`, `UPDATE(p)`, `ON(d)`, again and again (R95). -/
def wholeRefreshes : List DrvEvent → Bool
  | [] => true
  | .offAll :: .update _ :: .on _ :: rest => wholeRefreshes rest
  | _ => false

/-- The driver outputs are those of the trace, the trace is made of whole refreshes, and only digits of
the display are lit (R28, R95). -/
def DriverInv (s : State) : Prop :=
  s.drv.trace.foldl Drv.after Drv.reset = s.drv ∧ wholeRefreshes s.drv.trace = true ∧
    ∀ d, s.drv.digOn = some d → d.toNat < s.digits

/-- The time edit buffer is valid, so that its commit cannot fail (R124). -/
def EditInv (s : State) : Prop := validBcd s.fsm.etime = true

/-- The coordinator has its four digits, and every reset still to come has a legal configuration (R9,
R147). -/
def Ready (s : State) : Prop :=
  4 ≤ s.digits ∧ ∀ p ∈ s.inbox, ∀ x, p.rst = some x → x.wellFormed = true

end Sys2Proof.Machine
end

