-- ==== Sys2Proof/Certificates/Slice0/Obligations.lean ====
section
/-! DEFINITION. The statements for the provers. Each docstring names the rule of spec/ that the
statement formalises. `Stated` holds the few words they share. -/

open Sys2Proof Sys2Proof.Machine

namespace Sys2Proof.Stated

/-- The opcode table (R52, spec/opcode_table.json): mnemonic, match, mask. -/
def tableRows : List (String × Word64 × Word64) :=
  [("CLK_GET_TIME", 0x1000000000000000, 0xFFFFFFFFFFFFFFFF),
   ("CLK_SET_TIME", 0x1100000000000000, 0xFFFFFFFFFF000000),
   ("CLK_TICK", 0x1200000000000000, 0xFFFFFFFFFFFFFFFF),
   ("CLK_SET_ALARM", 0x1300000000000000, 0xFFFFFFFFFF000000),
   ("CLK_GET_ALARM", 0x1400000000000000, 0xFFFFFFFFFFFFFFFF),
   ("CLK_ALARM_IS_RINGING", 0x1500000000000000, 0xFFFFFFFFFFFFFFFF),
   ("CLK_SET_ALARM_ENABLED", 0x1600000000000000, 0xFFFFFFFFFFFFFFFE),
   ("CLK_POSTPONE_ALARM", 0x1700000000000000, 0xFFFFFFFFFFFFFFFF),
   ("CLK_POSTPONE_MINUTES", 0x1800000000000000, 0xFFFFFFFFFFFFFF00),
   ("CLK_POSTPONE_ONE_DAY", 0x1900000000000000, 0xFFFFFFFFFFFFFFFF),
   ("CLK_RESET_ALARM", 0x1A00000000000000, 0xFFFFFFFFFFFFFFFF)] ++
  [("BCD_INC_MIN", 0x1B00000000000000, 0xFFFFFFFFFF000000),
   ("BCD_DEC_MIN", 0x1C00000000000000, 0xFFFFFFFFFF000000),
   ("BCD_INC_HR", 0x1D00000000000000, 0xFFFFFFFFFF000000),
   ("BCD_DEC_HR", 0x1E00000000000000, 0xFFFFFFFFFF000000),
   ("DSP_WRITE_BCD", 0x2000000000000000, 0xFFFFFFF000000000),
   ("DSP_REFRESH", 0x2100000000000000, 0xFFFFFFFFFFFFFFFF),
   ("DSP_CFG_DIGIT_BLINK", 0x2200000000000000, 0xFFFFFFFFFF000000),
   ("DSP_CFG_DOT_BLINK", 0x2300000000000000, 0xFFFFFFFFFF0E0000),
   ("EDG_SAMPLE", 0x3000000000000000, 0xFFFFFFFFFFF0FFFE),
   ("FSM_STEP", 0x4000000000000000, 0xFFFFFFFFFFFFF8F0)]

/-- A word matches a row of the table (R53). -/
def Matches (w : Word64) (row : String × Word64 × Word64) : Prop := w &&& row.2.2 = row.2.1

/-- The reserved opcodes (R66). -/
def ReservedOpcode (k : Nat) : Prop :=
  k ≤ 0x0F ∨ k = 0x1F ∨ (0x24 ≤ k ∧ k ≤ 0x2F) ∨ (0x31 ≤ k ∧ k ≤ 0x3F) ∨ 0x41 ≤ k

/-- The response of a command that names no field (R55). -/
def noFields : Word64 := Response.word {}

/-- The response `RES = b`. -/
def resAnswer (b : Bool) : Word64 := Response.word { res := b }

/-- The response `TIME = t`. -/
def timeAnswer (t : BcdTime) : Word64 := Response.word { time := t }

/-- The response `TIME = t, RES = b`. -/
def timeResAnswer (t : BcdTime) (b : Bool) : Word64 := Response.word { time := t, res := b }

/-- The second of the day of a BcdTime. -/
def secondOfDay (t : BcdTime) : Nat := hours t * 3600 + minutes t * 60 + seconds t

/-- The result of one transition goes to the HOST's port. -/
def toHost (r : Result) : Result := andThen r fun t => .next { t with rsp := t.resp }

/-- `k` commands `i` in a row, stopping at the first that has no next state. -/
def repeated (i : Instr) : Nat → State → Result
  | 0, s => .next s
  | k + 1, s => andThen (exec i s) (repeated i k)

/-- `k` steps in a row, stopping at the first that has no next state. -/
def steps : Nat → State → Result
  | 0, s => .next s
  | k + 1, s => andThen (step s) (steps k)

/-- The number of requests still to come. -/
def pending (l : List Ports) : Nat :=
  (l.map fun p =>
    (if p.rst.isSome then 1 else 0) + (if p.tick then 1 else 0) + (if p.evt.isSome then 1 else 0) +
      (if p.cmd.isSome then 1 else 0)).sum

/-- The ports of a clock cycle with the request that is served first cleared and every other port as it
was: the reset goes first (log 4), then the tick, the event and the command word (R44). -/
def oneTaken (p : Ports) : Ports :=
  if p.rst.isSome then { p with rst := none }
  else if p.tick then { p with tick := false }
  else if p.evt.isSome then { p with evt := none }
  else { p with cmd := none }

/-- The requests still to come when `p` is left of the present cycle's and `l` of the later cycles'. -/
def left (p : Ports) (l : List Ports) : List Ports := if pending [p] = 0 then l else p :: l

/-- The requests of one clock cycle served in the order TICK, FSM, HOST (R44). -/
def inOrder (tick : Bool) (evt : Option Event) (cmd : Option Word64) (s : State) : Result :=
  andThen (if tick then tickEvent s else .next s) fun a =>
    andThen (match evt with | some e => runWord .fsm (eventWord e) a | none => .next a) fun b =>
      match cmd with | some w => runWord .host w b | none => .next b

/-- The configurations that have a block (R9, R147). -/
def LegalStraps (p : Straps) : Prop :=
  (1 ≤ p.tps ∧ p.tps ≤ 65535) ∧ (1 ≤ p.digits ∧ p.digits ≤ 255) ∧ 4 ≤ min p.digits 8 ∧
    (1 ≤ p.fsmBlinkDiv ∧ p.fsmBlinkDiv ≤ 65535) ∧ (1 ≤ p.fsmDotDiv ∧ p.fsmDotDiv ≤ 65535)

/-- Digit `i` is among the first `min(size, DSP.n)` that `DSP_WRITE_BCD` writes (R93). -/
def written (s : State) (size : BitVec 4) (i : Fin 8) : Prop := i.val < min size.toNat s.digits

/-- Accept, Cancel, Increment, Decrement fire in a step of state `s` that delivers `btn` (R109, R110). -/
def fired (btn : Buttons) (s : State) : Buttons := firing btn (testedSet s) s.fsm.armed

/-- The four adjust states with the buffer kind and the field they edit (R108). -/
def adjustStates : List (FsmState × EditKind × EditField) :=
  [(.adjustTimeMinutes, .time, .minutes), (.adjustTimeHours, .time, .hours),
   (.adjustAlarmMinutes, .alarm, .minutes), (.adjustAlarmHours, .alarm, .hours)]

end Sys2Proof.Stated

open Sys2Proof.Stated

/-! ## Encoding -/

/-- R50 to R64: every command, with every operand at every value its field admits, decodes from the word
that encodes it. -/
def Obligations.EncodedCommandDecodesBack : Prop :=
  ∀ i : Instr, decode (encode i) = .ok i

/-- R51, R53: a word that decodes to a command is that command's encoding, so no bit of it is ignored. -/
def Obligations.DecodedWordIsItsEncoding : Prop :=
  ∀ (w : Word64) (i : Instr), decode w = .ok i → encode i = w

/-- R53: decoding follows the rows of the opcode table, at most one row matches a word, and a word that
no row matches is no command. -/
def Obligations.DecodingFollowsTheOpcodeTable : Prop :=
  ∀ w : Word64,
    (∀ row ∈ tableRows, Matches w row → ∃ i, decode w = .ok i ∧ i.mnemonic = row.1) ∧
      ((∀ row ∈ tableRows, ¬ Matches w row) → ∃ e, decode w = .error e) ∧
        ∀ row ∈ tableRows, ∀ other ∈ tableRows, Matches w row → Matches w other → row = other

/-- R68: the example words of the assembler table, each bit as the spec writes it. -/
def Obligations.ExampleWordsDecode : Prop :=
  decode 0x1200000000000000 = .ok .clkTick ∧
    decode 0x1100000000235959 =
      .ok (.clkSetTime { h10 := 2, h1 := 3, m10 := 5, m1 := 9, s10 := 5, s1 := 9 }) ∧
    decode 0x1600000000000001 = .ok (.clkSetAlarmEnabled true) ∧
    decode 0x1800000000000005 = .ok (.clkPostponeMinutes 5) ∧
    decode 0x2000000400004321 = .ok (.dspWriteBcd 4 #v[1, 2, 3, 4, 0, 0, 0, 0]) ∧
    decode 0x2200000000010064 = .ok (.dspCfgDigitBlink 0 1 100) ∧
    decode 0x2300000000310032 = .ok (.dspCfgDotBlink 3 50 true) ∧
    decode 0x3000000000020001 = .ok (.edgSample 2 true) ∧
    decode 0x4000000000000001 =
      .ok (.fsmStep { acc := true, can := false, inc := false, dec := false } false false false)

/-- R54: where each field of a response stands, and that every other bit is 0. -/
def Obligations.ResponseFieldsStandWhereNamed : Prop :=
  ∀ r : Response,
    r.word.getLsbD 63 = r.ill ∧ r.word.getLsbD 52 = r.aout ∧ r.word.extractLsb' 48 3 = r.state ∧
      r.word.extractLsb' 44 3 = r.dig ∧ r.word.extractLsb' 40 2 = r.edge ∧
      r.word.getLsbD 32 = r.res ∧ r.word.extractLsb' 24 8 = r.pat ∧
      unpackTime r.word = r.time ∧
      ∀ k, (53 ≤ k ∧ k ≤ 62) ∨ k = 51 ∨ k = 47 ∨ k = 42 ∨ k = 43 ∨ (33 ≤ k ∧ k ≤ 39) →
        r.word.getLsbD k = false

/-- R66: a word is illegal when its opcode is reserved or a reserved bit of its format is 1, and never
for the value of an operand; an illegal word on the command port changes nothing, emits no driver event
and answers `ILL = 1` with every other bit 0. -/
def Obligations.IllegalWordOnlyAnswersIll : Prop :=
  (∀ (i : Instr) (e : DecodeError), decode (encode i) ≠ .error e) ∧
    ∀ w : Word64,
      (decode w = .error .reservedOpcode ↔ ReservedOpcode (opcodeOf w).toNat) ∧
        (decode w = .error .reservedBit ↔
          ∃ row ∈ tableRows, opcodeOf w = opcodeOf row.2.1 ∧ ¬ Matches w row) ∧
          ∀ (e : DecodeError) (s : State) (l : List Ports),
            decode w = .error e → s.inbox = { cmd := some w } :: l →
              step s = .next { s with inbox := l, resp := 0x8000000000000000,
                                      rsp := 0x8000000000000000 }

/-! ## The step, the agents and reset -/

/-- R6, R45: when the command port presents a word that decodes to `i`, the step is `exec i` on the
state with the request taken, and the response goes to the port `rsp`; so it is for a placed word. -/
def Obligations.HostStepRunsTheDecodedCommand : Prop :=
  ∀ (w : Word64) (i : Instr) (s : State), decode w = .ok i →
    (∀ l, s.inbox = { cmd := some w } :: l → step s = toHost (exec i { s with inbox := l })) ∧
      step (s.withFetchWord 64 w.toNat) = toHost (exec i s)

/-- R64: `FSM_STEP`'s word is built from the event ports, `BTN = evt_btn`, `EET = evt_cond[0]`,
`EEA = evt_cond[1]`, `XA = evt_cond[2]`, in the bits of format FS; the delivered event runs that command,
and its response goes to the FSM agent's record. The record is the model's choice (log 5), for R45's
sentence "a model records them per agent for observation". -/
def Obligations.DeliveredEventRunsFsmStep : Prop :=
  ∀ (e : Event) (s : State) (l : List Ports),
    decode (eventWord e) =
        .ok (.fsmStep
          { acc := e.btn.getLsbD 0, can := e.btn.getLsbD 1, inc := e.btn.getLsbD 2,
            dec := e.btn.getLsbD 3 }
          (e.cond.getLsbD 0) (e.cond.getLsbD 1) (e.cond.getLsbD 2)) ∧
      ((eventWord e).extractLsb' 56 8 = 0x40 ∧ (eventWord e).extractLsb' 11 45 = 0 ∧
        (eventWord e).extractLsb' 8 3 = e.cond ∧ (eventWord e).extractLsb' 4 4 = 0 ∧
          (eventWord e).extractLsb' 0 4 = e.btn) ∧
        ∀ i, decode (eventWord e) = .ok i → s.inbox = { evt := some e } :: l →
          step s = andThen (exec i { s with inbox := l })
            fun t => .next { t with fsmRsp := t.fsmRsp ++ [t.resp] }

/-- R43, R45: a tick event is `CLK_TICK` immediately followed by `DSP_REFRESH` in one step, and gives no
response on the port `rsp`; the two responses go to the TICK agent's record. The record is the model's
choice (log 5), for R45's sentence "a model records them per agent for observation". -/
def Obligations.TickEventIsTickThenRefresh : Prop :=
  ∀ (s : State) (l : List Ports), s.inbox = { tick := true } :: l →
    ∃ a b, exec .clkTick { s with inbox := l } = .next a ∧ exec .dspRefresh a = .next b ∧
      step s = .next { b with rsp := s.rsp, fsmRsp := s.fsmRsp,
                              tickRsp := s.tickRsp ++ [a.resp, b.resp] }

/-- R44: when requests of more than one agent are ready in the same clock cycle, the block executes them
one after another in the order TICK, FSM, HOST. -/
def Obligations.SimultaneousRequestsRunTickFsmHost : Prop :=
  ∀ (tick : Bool) (evt : Option Event) (cmd : Option Word64) (s : State) (l : List Ports),
    s.inbox = { tick := tick, evt := evt, cmd := cmd } :: l →
      0 < pending [{ tick := tick, evt := evt, cmd := cmd }] →
        steps (pending [{ tick := tick, evt := evt, cmd := cmd }]) s =
          inOrder tick evt cmd { s with inbox := l }

/-- R131, R143: each request runs exactly once: a step takes the one request of the present cycle that
goes first and leaves every other port of that cycle and the later cycles as they are; with no request the
block is idle. The list of requests and the place of the reset in it are the model's own (log 3, 4). -/
def Obligations.EachStepTakesOneRequest : Prop :=
  ∀ s : State,
    (s.inbox = [] → step s = .next s) ∧
      ∀ (p : Ports) (l : List Ports), s.inbox = p :: l →
        (pending [p] = 0 → step s = .next { s with inbox := l }) ∧
          (0 < pending [p] → pending [oneTaken p] + 1 = pending [p] ∧
            ∀ t, step s = .next t → t.inbox = left (oneTaken p) l)

/-- R145: the value of every piece of state after reset, for every configuration. The last clause, that
`State.reset` is the reset of the application's configuration, is the model's choice (log 1, 2). -/
def Obligations.ResetGivesEveryRegisterItsValue : Prop :=
  ∀ c : Config,
    let s := State.resetWith c
    (s.cfg = c ∧ s.digits = min c.digits.val.toNat 8) ∧
      (s.clk.cur = BcdTime.zero ∧ s.clk.valid = false ∧ s.clk.acc = 0 ∧ s.clk.alarm = BcdTime.zero ∧
        s.clk.snooze = BcdTime.zero ∧ s.clk.en = false ∧ s.clk.ring = false) ∧
      (s.dsp.cur = 0 ∧ s.dsp.bfrom = 0 ∧ s.dsp.bto = 0 ∧ s.dsp.bper = 0 ∧ s.dsp.bph = 0 ∧
        ∀ d : Fin 8, s.dsp.seg.get d = 0 ∧ (s.dsp.dots.get d).per = 0 ∧
          (s.dsp.dots.get d).en = false ∧ (s.dsp.dots.get d).ph = 0) ∧
      (s.drv.segOut = 0 ∧ s.drv.digOn = none ∧ s.drv.trace = []) ∧
      (∀ i : Fin 6, s.edg.get i = false) ∧
      (s.fsm.state = .showTime ∧ stateCode s.fsm.state = 0 ∧ s.fsm.etime = BcdTime.zero ∧
        s.fsm.ealarm = BcdTime.zero ∧ s.fsm.armed = allButtons ∧ s.fsm.active = false ∧
        s.fsm.alarmOut = false) ∧
      s.rsp = 0 ∧ State.reset = State.resetWith Config.application

/-- R9, R144, R147: the reset input latches a legal configuration and puts every register into its reset
value, and a configuration outside R9's ranges is refused, whatever else its clock cycle presents. The
model's own choice (log 4): the reset is a request of its clock cycle, served before the tick, the event
and the command word that the cycle may also hold, and these and the later cycles' requests stay. -/
def Obligations.ResetInputLatchesLegalStraps : Prop :=
  ∀ (x : Straps) (p : Ports) (s : State) (l : List Ports), p.rst = some x → s.inbox = p :: l →
    (LegalStraps x →
        ∃ c : Config,
          step s = .next { State.resetWith c with inbox := left { p with rst := none } l } ∧
          c.tps.val.toNat = x.tps ∧ c.digits.val.toNat = x.digits ∧
          c.fsmBlinkDiv.val.toNat = x.fsmBlinkDiv ∧ c.fsmDotDiv.val.toNat = x.fsmDotDiv ∧
          c.segTable = x.segTable) ∧
      (¬ LegalStraps x → step s = .refused .illegalConfiguration)

/-- Reset leaves the display dark, the block does nothing until a request, and the first tick event
lights digit 1 (digit 0 when `DSP.n = 1`) with the pattern 0x80: R146, whose last sentence the spec marks
as its own inference. -/
def Obligations.FirstTickLightsABlankDigit : Prop :=
  ∀ (c : Config) (l : List Ports),
    (State.resetWith c).drv.digOn = none ∧ (State.resetWith c).drv.trace = [] ∧
      step (State.resetWith c) = .next (State.resetWith c) ∧
        ∃ t, step { State.resetWith c with inbox := { tick := true } :: l } = .next t ∧
          t.drv.segOut = 0x80 ∧
            t.drv.digOn = some (if (State.resetWith c).digits = 1 then 0 else 1)

/-! ## BCD arithmetic -/

/-- R21: `valid_bcd`; and R21's sentence "There are exactly 24 × 60 × 60 = 86400 valid BcdTimes", which
the spec marks as derived: one for each second of the day. -/
def Obligations.ValidTimesAreTheSecondsOfTheDay : Prop :=
  (∀ t : BcdTime, validBcd t = true ↔
      t.s1.toNat ≤ 9 ∧ t.s10.toNat ≤ 5 ∧ t.m1.toNat ≤ 9 ∧ t.m10.toNat ≤ 5 ∧ t.h1.toNat ≤ 9 ∧
        t.h10.toNat ≤ 2 ∧ (t.h10.toNat ≠ 2 ∨ t.h1.toNat ≤ 3)) ∧
    (∀ t : BcdTime, validBcd t = true → secondOfDay t < 86400) ∧
      ∀ k < 86400, ∃! t : BcdTime, validBcd t = true ∧ secondOfDay t = k

/-- R71: the two field helpers; and that a pair written back by `bcd` is a valid pair that reads as the
value written, every other digit kept: R70's sentence that "`val` and `bcd` are inverse on valid pairs",
which the spec marks as derived. -/
def Obligations.FieldHelpersWrapAtTheTop : Prop :=
  (∀ v top : Nat,
      (v ≥ top → wrapInc v top = (0, true)) ∧ (v < top → wrapInc v top = (v + 1, false)) ∧
        (v = 0 ∨ v > top → wrapDec v top = top) ∧ (v ≠ 0 → v ≤ top → wrapDec v top = v - 1)) ∧
    ∀ (t : BcdTime) (v : Nat),
      (v ≤ 59 → minutes (withMinutes t v) = v ∧ (withMinutes t v).m10.toNat ≤ 5 ∧
          (withMinutes t v).m1.toNat ≤ 9 ∧ hours (withMinutes t v) = hours t ∧
          seconds (withMinutes t v) = seconds t) ∧
        (v ≤ 59 → seconds (withSeconds t v) = v ∧ (withSeconds t v).s10.toNat ≤ 5 ∧
          (withSeconds t v).s1.toNat ≤ 9 ∧ hours (withSeconds t v) = hours t ∧
          minutes (withSeconds t v) = minutes t) ∧
        (v ≤ 23 → hours (withHours t v) = v ∧ (withHours t v).h10.toNat ≤ 2 ∧
          (withHours t v).h1.toNat ≤ 9 ∧ minutes (withHours t v) = minutes t ∧
          seconds (withHours t v) = seconds t)

/-- R72: the two carrying advances, for every BcdTime; on valid times `advance_second` is one second
later modulo a day and `add_minute` one minute later, both give valid times, and `advance_second` is a
bijection of the valid times (R72's last sentence, which the spec marks as derived). -/
def Obligations.AdvancesAddOneModuloTheDay : Prop :=
  (∀ t : BcdTime,
      (seconds t < 59 → advanceSecond t = withSeconds t (seconds t + 1)) ∧
        (59 ≤ seconds t → advanceSecond t = addMinute (withSeconds t 0)) ∧
        (minutes t < 59 → addMinute t = withMinutes t (minutes t + 1)) ∧
        (59 ≤ minutes t →
          addMinute t = withHours (withMinutes t 0) (if 23 ≤ hours t then 0 else hours t + 1))) ∧
    (∀ t : BcdTime, validBcd t = true →
      validBcd (advanceSecond t) = true ∧
        secondOfDay (advanceSecond t) = (secondOfDay t + 1) % 86400 ∧
          validBcd (addMinute t) = true ∧
            secondOfDay (addMinute t) = (secondOfDay t + 60) % 86400) ∧
    (∀ t u : BcdTime, validBcd t = true → validBcd u = true →
        advanceSecond t = advanceSecond u → t = u) ∧
      ∀ u : BcdTime, validBcd u = true → ∃ t, validBcd t = true ∧ advanceSecond t = u

/-- R85 to R88: the four editing helpers answer the edited time and write no state. -/
def Obligations.BcdHelpersAnswerTheEditedTime : Prop :=
  ∀ (t : BcdTime) (s : State),
    (encode (.bcdIncMin t) = 0x1B#8 ++ (0#32 ++ packTime t) ∧
        encode (.bcdDecMin t) = 0x1C#8 ++ (0#32 ++ packTime t) ∧
        encode (.bcdIncHr t) = 0x1D#8 ++ (0#32 ++ packTime t) ∧
        encode (.bcdDecHr t) = 0x1E#8 ++ (0#32 ++ packTime t)) ∧
      exec (.bcdIncMin t) s =
        .next { s with resp := timeAnswer (withMinutes t
          (if 59 ≤ minutes t then 0 else minutes t + 1)) } ∧
      exec (.bcdDecMin t) s =
        .next { s with resp := timeAnswer (withMinutes t
          (if minutes t = 0 ∨ 59 < minutes t then 59 else minutes t - 1)) } ∧
      exec (.bcdIncHr t) s =
        .next { s with resp := timeAnswer (withHours t
          (if 23 ≤ hours t then 0 else hours t + 1)) } ∧
      exec (.bcdDecHr t) s =
        .next { s with resp := timeAnswer (withHours t
          (if hours t = 0 ∨ 23 < hours t then 23 else hours t - 1)) }

/-! ## Clock engine -/

/-- R73, R77: `CLK_GET_TIME` and `CLK_GET_ALARM` answer the time and the configured alarm with the
validity flag, and write no state. -/
def Obligations.GetTimeAndGetAlarmOnlyRead : Prop :=
  ∀ s : State,
    encode .clkGetTime = 0x1000000000000000 ∧ encode .clkGetAlarm = 0x1400000000000000 ∧
      exec .clkGetTime s =
        .next { s with resp := timeResAnswer s.clk.cur s.clk.valid } ∧
      exec .clkGetAlarm s =
        .next { s with resp := timeResAnswer s.clk.alarm s.clk.valid }

/-- R74: `CLK_SET_TIME` stores a valid time and sets `CLK.valid`; an invalid one only clears
`CLK.valid`; the answer is the resulting validity. -/
def Obligations.SetTimeStoresOnlyValidTimes : Prop :=
  ∀ (t : BcdTime) (s : State),
    encode (.clkSetTime t) = 0x11#8 ++ (0#32 ++ packTime t) ∧
      (validBcd t = true →
        exec (.clkSetTime t) s =
          .next { s with clk := { s.clk with cur := t, valid := true },
                         resp := resAnswer true }) ∧
      (validBcd t = false →
        exec (.clkSetTime t) s =
          .next { s with clk := { s.clk with valid := false },
                         resp := resAnswer false })

/-- R75: one tick, for an accumulator below `TPS` (R25). -/
def Obligations.TickCountsOrAdvancesTheSecond : Prop :=
  ∀ s : State, s.clk.acc.toNat < s.cfg.tps.val.toNat →
    (s.clk.acc.toNat + 1 = s.cfg.tps.val.toNat →
        exec .clkTick s =
          .next { s with clk := { s.clk with acc := 0, cur := advanceSecond s.clk.cur },
                         resp := noFields }) ∧
      (s.clk.acc.toNat + 1 ≠ s.cfg.tps.val.toNat →
        ∃ a, a.toNat = s.clk.acc.toNat + 1 ∧
          exec .clkTick s =
            .next { s with clk := { s.clk with acc := a }, resp := noFields })

/-- The sentence of R75 on `TPS` consecutive ticks, an inference of the spec: they advance the time by
exactly one second, whatever the accumulator was before them, and leave the accumulator as it was. -/
def Obligations.TpsTicksAdvanceOneSecond : Prop :=
  ∀ s : State, s.clk.acc.toNat < s.cfg.tps.val.toNat →
    repeated .clkTick s.cfg.tps.val.toNat s =
      .next { s with clk := { s.clk with cur := advanceSecond s.clk.cur },
                     resp := noFields }

/-- R76, R80: `CLK_SET_ALARM` stores its operand, checked or not, in the alarm and the baseline and sets
`CLK.valid`; `CLK_SET_ALARM_ENABLED` writes the flag and not the ringing latch. -/
def Obligations.SetAlarmAndSetAlarmEnabled : Prop :=
  ∀ (u : BcdTime) (b : Bool) (s : State),
    encode (.clkSetAlarm u) = 0x13#8 ++ (0#32 ++ packTime u) ∧
      encode (.clkSetAlarmEnabled b) = 0x16#8 ++ (0#55 ++ BitVec.ofBool b) ∧
      exec (.clkSetAlarm u) s =
        .next { s with clk := { s.clk with alarm := u, snooze := u, valid := true },
                       resp := resAnswer true } ∧
      exec (.clkSetAlarmEnabled b) s =
        .next { s with clk := { s.clk with en := b }, resp := noFields }

/-- R78: `CLK_ALARM_IS_RINGING`: a match of all six digits latches the ring if enabled and otherwise
resynchronises the baseline; a mismatch writes nothing; the answer is the latch after the command. -/
def Obligations.RingingComparesWithTheBaseline : Prop :=
  ∀ s : State,
    encode .clkAlarmIsRinging = 0x1500000000000000 ∧
      (s.clk.cur = s.clk.snooze → s.clk.en = true →
        exec .clkAlarmIsRinging s =
          .next { s with clk := { s.clk with ring := true },
                         resp := resAnswer true }) ∧
      (s.clk.cur = s.clk.snooze → s.clk.en = false →
        exec .clkAlarmIsRinging s =
          .next { s with clk := { s.clk with snooze := s.clk.alarm },
                         resp := resAnswer s.clk.ring }) ∧
      (s.clk.cur ≠ s.clk.snooze →
        exec .clkAlarmIsRinging s = .next { s with resp := resAnswer s.clk.ring })

/-- R79, which the spec derives from R78 and R81 to R84: the ringing flag is a latch: only a
postponement, a reset of the alarm, or a `ControlAlarm` step of the coordinator in which Accept or
Cancel fires (which calls one) clears it; and only an evaluation sets it. -/
def Obligations.RingIsALatch : Prop :=
  ∀ (i : Instr) (s t : State), exec i s = .next t →
    (s.clk.ring = true → t.clk.ring = false →
        i = .clkPostponeAlarm ∨
          (∃ n : BitVec 8, i = .clkPostponeMinutes n ∧ 1 ≤ n.toNat ∧ n.toNat < 60) ∨
          i = .clkPostponeOneDay ∨ i = .clkResetAlarm ∨
          ∃ btn eet eea xa, i = .fsmStep btn eet eea xa ∧ s.fsm.state = .controlAlarm ∧
            ((fired btn s).acc = true ∨ (fired btn s).can = true)) ∧
      (s.clk.ring = false → t.clk.ring = true →
        s.clk.cur = s.clk.snooze ∧ s.clk.en = true ∧
          (i = .clkAlarmIsRinging ∨
            ∃ btn eet eea xa, i = .fsmStep btn eet eea xa ∧ s.fsm.state = .controlAlarm))

/-- R81: `CLK_POSTPONE_ALARM` moves the configured alarm one minute later, seconds kept, and clears the
ring; the baseline is not written. -/
def Obligations.PostponeAlarmAddsOneMinute : Prop :=
  ∀ s : State,
    encode .clkPostponeAlarm = 0x1700000000000000 ∧
      (minutes s.clk.alarm < 59 →
        exec .clkPostponeAlarm s =
          .next { s with
            clk := { s.clk with
              alarm := withMinutes s.clk.alarm (minutes s.clk.alarm + 1), ring := false }
            resp := noFields }) ∧
      (59 ≤ minutes s.clk.alarm →
        exec .clkPostponeAlarm s =
          .next { s with
            clk := { s.clk with
              alarm := withHours (withMinutes s.clk.alarm 0)
                (if 23 ≤ hours s.clk.alarm then 0 else hours s.clk.alarm + 1)
              ring := false }
            resp := noFields })

/-- R82: `CLK_POSTPONE_MINUTES`: 0 and 60 or more fail with no mutation; otherwise the baseline is the
current minute plus `n`, modulo 1440, at second 00, and the ring is cleared. -/
def Obligations.PostponeMinutesMovesTheBaseline : Prop :=
  ∀ (n : BitVec 8) (s : State),
    encode (.clkPostponeMinutes n) = 0x18#8 ++ (0#48 ++ n) ∧
      (n.toNat = 0 ∨ 60 ≤ n.toNat →
        exec (.clkPostponeMinutes n) s = .next { s with resp := resAnswer false }) ∧
      (1 ≤ n.toNat → n.toNat < 60 →
        ∃ u : BcdTime,
          exec (.clkPostponeMinutes n) s =
            .next { s with clk := { s.clk with snooze := u, ring := false },
                           resp := resAnswer true } ∧
          validBcd u = true ∧ seconds u = 0 ∧
          hours u * 60 + minutes u = (hours s.clk.cur * 60 + minutes s.clk.cur + n.toNat) % 1440)

/-- R83, R84: `CLK_POSTPONE_ONE_DAY` returns the baseline to the configured alarm and clears the ring;
`CLK_RESET_ALARM` clears the validity, the ring, the enable and the alarm, and writes neither the
baseline nor the time. -/
def Obligations.PostponeOneDayAndResetAlarm : Prop :=
  ∀ s : State,
    encode .clkPostponeOneDay = 0x1900000000000000 ∧ encode .clkResetAlarm = 0x1A00000000000000 ∧
      exec .clkPostponeOneDay s =
        .next { s with clk := { s.clk with snooze := s.clk.alarm, ring := false },
                       resp := noFields } ∧
      exec .clkResetAlarm s =
        .next { s with clk := { s.clk with valid := false, ring := false, en := false,
                                           alarm := BcdTime.zero },
                       resp := noFields }

/-- R75, R74, R117: the current time changes only by a tick that completes a second, by
`CLK_SET_TIME` with a valid time, or by the commit of a time edit. -/
def Obligations.OnlyTicksAndSetsChangeTheTime : Prop :=
  ∀ (i : Instr) (s t : State), exec i s = .next t → t.clk.cur ≠ s.clk.cur →
    (i = .clkTick ∧ s.clk.acc.toNat + 1 = s.cfg.tps.val.toNat ∧
        t.clk.cur = advanceSecond s.clk.cur) ∨
      (∃ u, i = .clkSetTime u ∧ validBcd u = true ∧ t.clk.cur = u) ∨
      ∃ btn eet eea xa, i = .fsmStep btn eet eea xa ∧ s.fsm.state = .adjustTimeHours ∧
        xa = false ∧ (fired btn s).can = false ∧ (fired btn s).acc = true ∧
        t.clk.cur = t.fsm.etime ∧ seconds t.clk.cur = 0

/-! ## Display engine -/

/-- R93: `DSP_WRITE_BCD`: a value above 9 among the first `min(size, DSP.n)` rejects the call; otherwise
the first digits show their values and the rest of the display is blank. -/
def Obligations.WriteBcdLoadsOrRejects : Prop :=
  ∀ (size : BitVec 4) (v : Vector Nibble 8) (s : State),
    encode (.dspWriteBcd size v) = 0x20#8 ++ (0#20 ++ size ++ packValues v) ∧
      ((∃ i : Fin 8, written s size i ∧ 9 < (v.get i).toNat) →
        exec (.dspWriteBcd size v) s = .next { s with resp := resAnswer false }) ∧
      ((∀ i : Fin 8, written s size i → (v.get i).toNat ≤ 9) →
        ∃ g : Vector (BitVec 8) 8,
          exec (.dspWriteBcd size v) s =
            .next { s with dsp := { s.dsp with seg := g }, resp := resAnswer true } ∧
          ∀ d : Fin 8,
            (written s size d → ∃ p : BitVec 7,
              s.cfg.segTable[(v.get d).toNat]? = some p ∧ g.get d = p.setWidth 8) ∧
            (¬ written s size d → d.val < s.digits → g.get d = 0) ∧
            (s.digits ≤ d.val → g.get d = s.dsp.seg.get d))

/-- R94, R95: `DSP_REFRESH` lights the next digit with its pattern: the cursor advances, the phases
advance exactly on its wrap to 0, and the driver sees `OFF_ALL`, `UPDATE(p)`, `ON(d)`. -/
def Obligations.RefreshLightsTheNextDigit : Prop :=
  ∀ s : State,
    encode .dspRefresh = 0x2100000000000000 ∧
      ∃ (d : BitVec 3) (x : Dsp) (p : BitVec 8),
        d.toNat = (s.dsp.cur.toNat + 1) % s.digits ∧
        x = (if d = 0 then advancePhases s.digits { s.dsp with cur := d }
              else { s.dsp with cur := d }) ∧
        p.getLsbD 7 = !dotOff x d ∧
        (∀ k < 7, p.getLsbD k = (!digitOff x d && (x.seg.get (slot d)).getLsbD k)) ∧
        exec .dspRefresh s =
          .next { s with dsp := x,
                         drv := { segOut := p, digOn := some d,
                                  trace := s.drv.trace ++ [.offAll, .update p, .on d] },
                         resp := Response.word { dig := d, pat := p } }

/-- R96: `advance_phases`: the window's phase and the armed dots' phases advance by one modulo their
periods; a counter with period 0 and a disabled dot's counter do not. -/
def Obligations.PhasesAdvanceModuloTheirPeriods : Prop :=
  ∀ (n : Nat) (x : Dsp),
    let y := advancePhases n x
    (x.bper ≠ 0 → y.bph.toNat = (x.bph.toNat + 1) % x.bper.toNat) ∧
      (x.bper = 0 → y.bph = x.bph) ∧
      (y.cur = x.cur ∧ y.seg = x.seg ∧ y.bfrom = x.bfrom ∧ y.bto = x.bto ∧ y.bper = x.bper) ∧
      ∀ k : Fin 8,
        (y.dots.get k).per = (x.dots.get k).per ∧ (y.dots.get k).en = (x.dots.get k).en ∧
          (k.val < n → (x.dots.get k).en = true → (x.dots.get k).per ≠ 0 →
            (y.dots.get k).ph.toNat = ((x.dots.get k).ph.toNat + 1) % (x.dots.get k).per.toNat) ∧
          (n ≤ k.val ∨ (x.dots.get k).en = false ∨ (x.dots.get k).per = 0 →
            (y.dots.get k).ph = (x.dots.get k).ph)

/-- R97, R98, with R98's sentence on the lit point, which the spec derives from R94: when a digit and
when a dot is in its off half; a digit in its off half shows no segment, and a decimal point is lit
exactly when its dot is not in its off half, so a disabled dot and one with period 0 are lit. -/
def Obligations.OffHalvesAreTheFirstHalves : Prop :=
  ∀ (x : Dsp) (d : BitVec 3),
    (digitOff x d = true ↔
        x.bper ≠ 0 ∧ x.bfrom.toNat ≤ d.toNat ∧ d.toNat ≤ x.bto.toNat ∧
          x.bph.toNat < x.bper.toNat / 2) ∧
      (dotOff x d = true ↔
        (x.dots.get (slot d)).en = true ∧ (x.dots.get (slot d)).per ≠ 0 ∧
          (x.dots.get (slot d)).ph.toNat < (x.dots.get (slot d)).per.toNat / 2) ∧
      (digitOff x d = true → ∀ k < 7, (patternOf x d).getLsbD k = false) ∧
      (digitOff x d = false →
        ∀ k < 7, (patternOf x d).getLsbD k = (x.seg.get (slot d)).getLsbD k) ∧
      (patternOf x d).getLsbD 7 = !dotOff x d

/-- R99: `DSP_CFG_DIGIT_BLINK`. -/
def Obligations.DigitBlinkIsProgrammedOrRejected : Prop :=
  ∀ (first last : BitVec 4) (divisor : BitVec 16) (s : State),
    encode (.dspCfgDigitBlink first last divisor) = 0x22#8 ++ (0#32 ++ first ++ last ++ divisor) ∧
      (last.toNat < first.toNat ∨ s.digits ≤ first.toNat ∨ s.digits ≤ last.toNat →
        exec (.dspCfgDigitBlink first last divisor) s =
          .next { s with resp := resAnswer false }) ∧
      (first.toNat ≤ last.toNat → last.toNat < s.digits →
        ∃ (f t : BitVec 3) (per : BitVec 17),
          f.toNat = first.toNat ∧ t.toNat = last.toNat ∧ per.toNat = 2 * divisor.toNat ∧
          exec (.dspCfgDigitBlink first last divisor) s =
            .next { s with dsp := { s.dsp with bfrom := f, bto := t, bper := per, bph := 0 },
                           resp := resAnswer true })

/-- R100: `DSP_CFG_DOT_BLINK`; no other digit's descriptor is written. -/
def Obligations.DotBlinkIsProgrammedOrRejected : Prop :=
  ∀ (digit : BitVec 4) (divisor : BitVec 16) (en : Bool) (s : State),
    encode (.dspCfgDotBlink digit divisor en) =
        0x23#8 ++ (0#32 ++ digit ++ 0#3 ++ BitVec.ofBool en ++ divisor) ∧
      (s.digits ≤ digit.toNat →
        exec (.dspCfgDotBlink digit divisor en) s =
          .next { s with resp := resAnswer false }) ∧
      (digit.toNat < s.digits →
        ∃ (g : Vector Dot 8) (per : BitVec 17),
          per.toNat = 2 * divisor.toNat ∧
          exec (.dspCfgDotBlink digit divisor en) s =
            .next { s with dsp := { s.dsp with dots := g },
                           resp := resAnswer true } ∧
          ∀ k : Fin 8,
            (k.val = digit.toNat → g.get k = { per := per, en := en, ph := 0 }) ∧
              (k.val ≠ digit.toNat → g.get k = s.dsp.dots.get k))

/-- From R101, which the spec derives: a mux cycle: from any cursor, `DSP.n` refreshes bring the cursor
back, light each digit of the display exactly once, and advance the phases exactly once. -/
def Obligations.MuxCycleLightsEachDigitOnce : Prop :=
  ∀ s : State, s.dsp.cur.toNat < s.digits →
    ∃ t, repeated .dspRefresh s.digits s = .next t ∧
      t.dsp = advancePhases s.digits s.dsp ∧ t.cfg = s.cfg ∧
        ∃ added, t.drv.trace = s.drv.trace ++ added ∧
          ∀ d : BitVec 3,
            added.count (.on d) = if d.toNat < s.digits then 1 else 0

/-- R102, which the spec derives from R97 and R98: the suppressions are independent: the segments of a
shown digit depend on the window and its stored segments only, its decimal point on its own dot
descriptor only. -/
def Obligations.WindowAndDotsDoNotInterfere : Prop :=
  ∀ (x y : Dsp) (d : BitVec 3),
    (x.seg.get (slot d) = y.seg.get (slot d) → x.bfrom = y.bfrom → x.bto = y.bto →
        x.bper = y.bper → x.bph = y.bph →
        ∀ k < 7, (patternOf x d).getLsbD k = (patternOf y d).getLsbD k) ∧
      (x.dots.get (slot d) = y.dots.get (slot d) →
        (patternOf x d).getLsbD 7 = (patternOf y d).getLsbD 7)

/-! ## Edge detector -/

/-- R104: `EDG_SAMPLE`: the edge of the stored and the new sample, and the sample stored; an index with
no instance fails and writes nothing; the other instances are untouched. -/
def Obligations.SampleReportsTheEdgeAndIsStored : Prop :=
  ∀ (idx : BitVec 4) (smp : Bool) (s : State),
    encode (.edgSample idx smp) = 0x30#8 ++ (0#36 ++ idx ++ 0#15 ++ BitVec.ofBool smp) ∧
      (6 ≤ idx.toNat →
        exec (.edgSample idx smp) s = .next { s with resp := resAnswer false }) ∧
      ∀ k : Fin 6, idx.toNat = k.val →
        ∃ (g : Vector Bool edgeN) (e : BitVec 2),
          exec (.edgSample idx smp) s =
            .next { s with edg := g, resp := Response.word { res := true, edge := e } } ∧
          (smp = true → s.edg.get k = false → e = 1) ∧
          (smp = false → s.edg.get k = true → e = 2) ∧
          (smp = s.edg.get k → e = 0) ∧
          g.get k = smp ∧ ∀ j : Fin 6, j ≠ k → g.get j = s.edg.get j

/-- R105: `WasActivated` and `WasDeactivated` read the fields `RES` and `EDGE` of a response; over the
response of a sample they say whether the input became active, or inactive. -/
def Obligations.EdgePredicatesReadTheResponse : Prop :=
  (∀ r : Response,
      (wasActivated r.word = true ↔ r.res = true ∧ r.edge = 1) ∧
        (wasDeactivated r.word = true ↔ r.res = true ∧ r.edge = 2)) ∧
    ∀ (idx : BitVec 4) (smp : Bool) (s : State),
      ∃ t, exec (.edgSample idx smp) s = .next t ∧
        (∀ k : Fin 6, idx.toNat = k.val →
          wasActivated t.resp = (smp && !s.edg.get k) ∧
            wasDeactivated t.resp = (!smp && s.edg.get k) ∧ t.edg.get k = smp) ∧
        (6 ≤ idx.toNat → wasActivated t.resp = false ∧ wasDeactivated t.resp = false)

/-! ## Coordinator -/

/-- R109, R110: in a step each button fires when its bit is present, the state tests it and its latch is
armed; firing clears the latch, an absent bit arms it, anything else keeps it; and the sets of buttons
that the states test. -/
def Obligations.ButtonsFireOncePerPress : Prop :=
  (∀ btn tested armed : Buttons,
      ∀ b ∈ [Buttons.acc, Buttons.can, Buttons.inc, Buttons.dec],
        (b btn = false →
            b (firing btn tested armed) = false ∧ b (latches btn tested armed) = true) ∧
          (b btn = true → b tested = true → b armed = true →
            b (firing btn tested armed) = true ∧ b (latches btn tested armed) = false) ∧
          (b btn = true → b tested = false ∨ b armed = false →
            b (firing btn tested armed) = false ∧ b (latches btn tested armed) = b armed)) ∧
    ∀ s : State,
      (s.fsm.state = .showTime → (s.fsm.active = true ∧ s.clk.ring = true) →
          testedSet s = { acc := false, can := false, inc := false, dec := false }) ∧
        (s.fsm.state = .showTime → ¬ (s.fsm.active = true ∧ s.clk.ring = true) →
          testedSet s = { acc := true, can := true, inc := false, dec := false }) ∧
        (s.fsm.state = .controlAlarm →
          testedSet s = { acc := true, can := true, inc := false, dec := false }) ∧
        (s.fsm.state ≠ .showTime → s.fsm.state ≠ .controlAlarm →
          testedSet s = { acc := true, can := true, inc := true, dec := true })

/-- R111: what `render_time` shows on a display of at least four digits: hours tens, hours units, minutes
tens, minutes units on digits 0 to 3 and nothing on the digits above; a digit above 9 leaves the display
as it was. -/
def Obligations.RenderShowsHoursAndMinutes : Prop :=
  ∀ (c : Config) (t : BcdTime) (x : Dsp), 4 ≤ digitCount c →
    let shown := [t.h10, t.h1, t.m10, t.m1]
    ((∃ v ∈ shown, 9 < v.toNat) → renderTime c t x = x) ∧
      ((∀ v ∈ shown, v.toNat ≤ 9) →
        ∃ g : Vector (BitVec 8) 8, renderTime c t x = { x with seg := g } ∧
          (∀ (k : Fin 8) (v : Nibble), shown[k.val]? = some v →
            ∃ p : BitVec 7, c.segTable[v.toNat]? = some p ∧ g.get k = p.setWidth 8) ∧
          ∀ k : Fin 8, (4 ≤ k.val → k.val < digitCount c → g.get k = 0) ∧
            (digitCount c ≤ k.val → g.get k = x.seg.get k))

/-- R9, R108: `FSM_STEP` completes for every operand and every state whose display has at least four
digits, answers the state and the alarm output after the step, writes the latches of R109 for the tested
set of R110, and leaves the driver, the edge detectors, the accumulator and the cursor alone; with fewer
digits it is refused. -/
def Obligations.FsmStepCompletesWithFourDigits : Prop :=
  ∀ (btn : Buttons) (eet eea xa : Bool) (s : State),
    (s.digits < 4 → exec (.fsmStep btn eet eea xa) s = .refused .illegalConfiguration) ∧
      (4 ≤ s.digits →
        ∃ (x : Clk) (y : Dsp) (f : Fsm),
          exec (.fsmStep btn eet eea xa) s =
            .next { s with clk := x, dsp := y, fsm := f,
                           resp := Response.word
                             { state := stateCode f.state, aout := f.alarmOut } } ∧
          f.armed = latches btn (testedSet s) s.fsm.armed ∧ x.acc = s.clk.acc ∧
          y.cur = s.dsp.cur)

/-- R112: `ensure_digit_blink` and `ensure_dot` leave a display that already holds the descriptor as it
is, phase included, and otherwise program it with its phase cleared. -/
def Obligations.EnsuredDescriptorsKeepTheirPhase : Prop :=
  ∀ (c : Config) (first last d : BitVec 4) (divisor : BitVec 16) (en : Bool) (x : Dsp),
    first.toNat ≤ last.toNat → last.toNat < digitCount c → d.toNat < digitCount c →
      (let y := ensureDigitBlink c first last divisor x
       y = { x with bfrom := y.bfrom, bto := y.bto, bper := y.bper, bph := y.bph } ∧
          y.bfrom.toNat = first.toNat ∧ y.bto.toNat = last.toNat ∧ y.bper.toNat = 2 * divisor.toNat ∧
          (x.bfrom.toNat = first.toNat → x.bto.toNat = last.toNat →
            x.bper.toNat = 2 * divisor.toNat → y = x) ∧
          (¬ (x.bfrom.toNat = first.toNat ∧ x.bto.toNat = last.toNat ∧
            x.bper.toNat = 2 * divisor.toNat) → y.bph = 0)) ∧
      ∀ k : Fin 8, k.val = d.toNat →
        let z := ensureDot c d divisor en x
        z = { x with dots := z.dots } ∧ (∀ j : Fin 8, j ≠ k → z.dots.get j = x.dots.get j) ∧
          (z.dots.get k).per.toNat = 2 * divisor.toNat ∧ (z.dots.get k).en = en ∧
          ((x.dots.get k).per.toNat = 2 * divisor.toNat → (x.dots.get k).en = en → z = x) ∧
          (¬ ((x.dots.get k).per.toNat = 2 * divisor.toNat ∧ (x.dots.get k).en = en) →
            (z.dots.get k).ph = 0)

/-- R114: a `ShowTime` step: the display work comes first, from the registers before the buttons act;
Accept before Cancel; the alarm enabled while active; `eet` before `eea` before the move to
`ControlAlarm`. -/
def Obligations.ShowTimeStep : Prop :=
  ∀ (btn : Buttons) (eet eea xa : Bool) (s : State), 4 ≤ s.digits → s.fsm.state = .showTime →
    ∃ (active : Bool) (y : Dsp) (f : Fsm),
      active = (if (fired btn s).can then false else if (fired btn s).acc then true
                else s.fsm.active) ∧
      y = ensureDot s.cfg 3 (if s.fsm.active then s.cfg.fsmDotDiv.val else 0) s.fsm.active
            (ensureDot s.cfg 2 0 true (ensureDot s.cfg 1 0 true (ensureDot s.cfg 0 0 true
              (ensureDigitBlink s.cfg 0 3 (if s.clk.valid then 0 else s.cfg.fsmBlinkDiv.val)
                (renderTime s.cfg s.clk.cur s.dsp))))) ∧
      f = { s.fsm with
              armed := latches btn (testedSet s) s.fsm.armed
              active := active
              etime := if eet then s.clk.cur else s.fsm.etime
              ealarm := if !eet && eea then s.clk.alarm else s.fsm.ealarm
              state := if eet then .adjustTimeMinutes else if eea then .adjustAlarmMinutes
                       else if active then .controlAlarm else .showTime } ∧
      exec (.fsmStep btn eet eea xa) s =
        .next { s with clk := { s.clk with en := active || s.clk.en }, dsp := y, fsm := f,
                       resp := Response.word
                         { state := stateCode f.state, aout := s.fsm.alarmOut } }

/-- R115 to R119: the display work of the four adjust states: the buffer, the window of the edited
field blinking, and in the alarm states all four dots. -/
def Obligations.AdjustStepsShowTheBuffer : Prop :=
  ∀ (btn : Buttons) (eet eea xa : Bool) (s t : State),
    exec (.fsmStep btn eet eea xa) s = .next t →
    ∀ a ∈ adjustStates, s.fsm.state = a.1 →
      let w : BitVec 4 × BitVec 4 := if a.2.2 = .minutes then (2, 3) else (0, 1)
      let y := ensureDigitBlink s.cfg w.1 w.2 s.cfg.fsmBlinkDiv.val
        (renderTime s.cfg (if a.2.1 = .time then s.fsm.etime else s.fsm.ealarm) s.dsp)
      let dot := fun (d : BitVec 4) (z : Dsp) => ensureDot s.cfg d s.cfg.fsmDotDiv.val true z
      t.dsp = if a.2.1 = .time then y else dot 3 (dot 2 (dot 1 (dot 0 y)))

/-- R115 to R119: the inputs of an adjust step: `xa` or Cancel discards and suppresses everything else;
then Increment, Decrement and Accept act in that order, and Accept moves from minutes to hours or
commits the buffer with its seconds zeroed. -/
def Obligations.AdjustStepsEditAndCommit : Prop :=
  ∀ (btn : Buttons) (eet eea xa : Bool) (s t : State),
    exec (.fsmStep btn eet eea xa) s = .next t →
    ∀ a ∈ adjustStates, s.fsm.state = a.1 →
      let fire := fired btn s
      let old := if a.2.1 = .time then s.fsm.etime else s.fsm.ealarm
      let up := if fire.inc then (if a.2.2 = .minutes then bcdIncMin old else bcdIncHr old) else old
      let new := if fire.dec then (if a.2.2 = .minutes then bcdDecMin up else bcdDecHr up) else up
      let kept := { s.fsm with armed := latches btn (testedSet s) s.fsm.armed }
      (xa = true ∨ fire.can = true → t.clk = s.clk ∧ t.fsm = { kept with state := .showTime }) ∧
        (xa = false → fire.can = false → fire.acc = false →
          t.clk = s.clk ∧
            t.fsm = if a.2.1 = .time then { kept with etime := new } else { kept with ealarm := new }) ∧
        (xa = false → fire.can = false → fire.acc = true → a.2.2 = .minutes →
          t.clk = s.clk ∧
            t.fsm = if a.2.1 = .time then { kept with etime := new, state := .adjustTimeHours }
                    else { kept with ealarm := new, state := .adjustAlarmHours }) ∧
        (xa = false → fire.can = false → fire.acc = true → a.2.2 = .hours →
          let u := { new with s10 := 0, s1 := 0 }
          (a.2.1 = .time → t.fsm = { kept with etime := u, state := .showTime } ∧
              t.clk = if validBcd u then { s.clk with cur := u, valid := true }
                      else { s.clk with valid := false }) ∧
            (a.2.1 = .alarm → t.fsm = { kept with ealarm := u, state := .showTime } ∧
              t.clk = { s.clk with alarm := u, snooze := u, valid := true }))

/-- R117's sentence "The commit always succeeds", which the spec derives by R124: the time buffer is
valid. -/
def Obligations.TimeCommitNeverFails : Prop :=
  ∀ (btn : Buttons) (eet eea : Bool) (s t : State),
    exec (.fsmStep btn eet eea false) s = .next t → s.fsm.state = .adjustTimeHours → EditInv s →
      (fired btn s).can = false → (fired btn s).acc = true →
        t.clk.valid = true ∧ t.clk.cur = t.fsm.etime ∧ seconds t.clk.cur = 0 ∧
          minutes t.clk.cur = minutes s.fsm.etime ∧ t.clk.acc = s.clk.acc

/-- R120: a `ControlAlarm` step. -/
def Obligations.ControlAlarmStep : Prop :=
  ∀ (btn : Buttons) (eet eea xa : Bool) (s : State), 4 ≤ s.digits → s.fsm.state = .controlAlarm →
    ∃ e x t, exec .clkAlarmIsRinging s = .next e ∧
      exec (.fsmStep btn eet eea xa) s = .next t ∧ t.fsm.state = .showTime ∧
      t.fsm.alarmOut = (e.clk.ring && s.fsm.active && !(fired btn s).acc && !(fired btn s).can) ∧
      ((fired btn s).acc = true → exec (.clkPostponeMinutes 5) e = .next x) ∧
      ((fired btn s).acc = false → x = e) ∧
      ((fired btn s).can = true → t.clk = { x.clk with snooze := x.clk.alarm, ring := false }) ∧
      ((fired btn s).can = false → t.clk = x.clk) ∧
      t.dsp = s.dsp ∧ t.fsm.etime = s.fsm.etime ∧ t.fsm.ealarm = s.fsm.ealarm ∧
      t.fsm.active = s.fsm.active

/-- The transition relation of one step: the table of R121, which the spec derives from R114 to R120. -/
def Obligations.TransitionRelation : Prop :=
  ∀ (btn : Buttons) (eet eea xa : Bool) (s t : State),
    exec (.fsmStep btn eet eea xa) s = .next t →
      let fire := fired btn s
      let leave := xa || fire.can
      t.fsm.state =
        match s.fsm.state with
        | .showTime =>
          if eet then .adjustTimeMinutes
          else if eea then .adjustAlarmMinutes
          else if t.fsm.active then .controlAlarm
          else .showTime
        | .adjustTimeMinutes =>
          if leave then .showTime else if fire.acc then .adjustTimeHours else .adjustTimeMinutes
        | .adjustTimeHours =>
          if leave then .showTime else if fire.acc then .showTime else .adjustTimeHours
        | .adjustAlarmMinutes =>
          if leave then .showTime else if fire.acc then .adjustAlarmHours else .adjustAlarmMinutes
        | .adjustAlarmHours =>
          if leave then .showTime else if fire.acc then .showTime else .adjustAlarmHours
        | .controlAlarm => .showTime

/-- R123's first sentence, which the spec derives: the alarm output changes only in `ControlAlarm` steps
of the coordinator. -/
def Obligations.AlarmOutputChangesOnlyInControlAlarm : Prop :=
  ∀ (i : Instr) (s t : State), exec i s = .next t → t.fsm.alarmOut ≠ s.fsm.alarmOut →
    (∃ btn eet eea xa, i = .fsmStep btn eet eea xa) ∧ s.fsm.state = .controlAlarm

/-! ## All commands -/

/-- From the table of R41, which the spec derives: a second identical issue of an idempotent command
gives the same response and the same state. -/
def Obligations.IdempotentCommandsRepeat : Prop :=
  ∀ (i : Instr) (s t : State),
    ((∃ u, i = .clkSetTime u) ∨ (∃ u, i = .clkSetAlarm u) ∨ (∃ b, i = .clkSetAlarmEnabled b) ∨
        i = .clkPostponeOneDay ∨ i = .clkResetAlarm ∨ (∃ n, i = .clkPostponeMinutes n) ∨
        i = .clkAlarmIsRinging ∨ i = .clkGetTime ∨ i = .clkGetAlarm ∨ (∃ u, i = .bcdIncMin u) ∨
        (∃ u, i = .bcdDecMin u) ∨ (∃ u, i = .bcdIncHr u) ∨ (∃ u, i = .bcdDecHr u) ∨
        (∃ n v, i = .dspWriteBcd n v) ∨ (∃ f l k, i = .dspCfgDigitBlink f l k) ∨
        ∃ d k b, i = .dspCfgDotBlink d k b) →
      exec i s = .next t → exec i t = .next t

/-- R2, R28, R47: what a command can write: the clock commands only the clock engine, the display
configuration only the display engine, `DSP_REFRESH` the display engine and the driver, the sampler
only the edge detectors, the coordinator neither the driver nor the edge detectors; no command
writes the configuration, the ports of other agents or the requests. -/
def Obligations.CommandsStayInTheirUnits : Prop :=
  ∀ (i : Instr) (s t : State), exec i s = .next t →
    (t.cfg = s.cfg ∧ t.rsp = s.rsp ∧ t.tickRsp = s.tickRsp ∧ t.fsmRsp = s.fsmRsp ∧
        t.inbox = s.inbox) ∧
      ((opcodeOf (encode i)).extractLsb' 4 4 = 1 → t = { s with clk := t.clk, resp := t.resp }) ∧
      ((opcodeOf (encode i)).extractLsb' 4 4 = 2 →
        t = { s with dsp := t.dsp, drv := t.drv, resp := t.resp } ∧
          (i ≠ .dspRefresh → t.drv = s.drv)) ∧
      ((opcodeOf (encode i)).extractLsb' 4 4 = 3 → t = { s with edg := t.edg, resp := t.resp }) ∧
      ((opcodeOf (encode i)).extractLsb' 4 4 = 4 →
        t = { s with clk := t.clk, dsp := t.dsp, fsm := t.fsm, resp := t.resp })

/-- R126, R127: a command that rejects its operands answers `RES = 0` and changes nothing but, for
`CLK_SET_TIME`, `CLK.valid`. -/
def Obligations.RejectedCommandsChangeNothing : Prop :=
  ∀ (i : Instr) (s t : State), exec i s = .next t → t.resp.getLsbD 32 = false →
    ((∃ n, i = .clkPostponeMinutes n) ∨ (∃ n v, i = .dspWriteBcd n v) ∨
        (∃ f l k, i = .dspCfgDigitBlink f l k) ∨ (∃ d k b, i = .dspCfgDotBlink d k b) ∨
        (∃ n b, i = .edgSample n b) → t = { s with resp := t.resp }) ∧
      ∀ u, i = .clkSetTime u →
        t = { s with clk := { s.clk with valid := false }, resp := t.resp }

/-! ## Invariants -/

/-- The invariants that the spec derives in R25 and R27, and the model's own for R28 and R124, hold after
reset, for every configuration. -/
def Obligations.InvariantsHoldAfterReset : Prop :=
  ∀ c : Config,
    ClockInv (State.resetWith c) ∧ DisplayInv (State.resetWith c) ∧ DriverInv (State.resetWith c) ∧
      EditInv (State.resetWith c)

/-- R25, which the spec derives: every step keeps `CLK.acc < TPS` and `valid_bcd(CLK.cur)`. -/
def Obligations.StepKeepsTheClockInvariant : Prop :=
  ∀ s t : State, ClockInv s → step s = .next t → ClockInv t

/-- R27, which the spec derives: every step keeps the display engine's invariants. -/
def Obligations.StepKeepsTheDisplayInvariant : Prop :=
  ∀ s t : State, DisplayInv s → step s = .next t → DisplayInv t

/-- R28, R95: after every step the driver outputs are still those of the trace, the trace is still made
of whole refreshes, and only a digit of the display is lit. -/
def Obligations.StepKeepsTheDriverTrace : Prop :=
  ∀ s t : State, DriverInv s → step s = .next t → DriverInv t

/-- The premise of R124, which the spec derives: every step keeps the time edit buffer valid. -/
def Obligations.StepKeepsTheEditBufferValid : Prop :=
  ∀ s t : State, ClockInv s → EditInv s → step s = .next t → EditInv t

/-- R126, R129: with a legal configuration and legal resets to come, every step has a next state, and
so it stays. -/
def Obligations.ReadyBlockNeverStops : Prop :=
  ∀ s : State, Ready s → ∃ t, step s = .next t ∧ Ready t
end

