-- ==== Sys2Proof/Laws/Bcd.lean ====
section
/-! SUPPORT. The BCD arithmetic of spec/40_clock_engine.md, section 1: what `val`, `bcd`, the field
helpers and the two advances can do, once each. -/

namespace Sys2Proof.Machine

open Sys2Proof

/-- `val` of `bcd(v)` is `v` (R17). -/
theorem val_bcd {v : Nat} (h : v < 100) : val (tensOf v) (unitsOf v) = v := by
  simp [val, tensOf, unitsOf]
  omega

/-- The tens digit of a value below `10 * (k + 1)` is at most `k`. -/
theorem tensOf_le {v k : Nat} (h : v < 10 * (k + 1)) (hk : k < 16) : (tensOf v).toNat ≤ k := by
  simp [tensOf]
  omega

theorem unitsOf_le (v : Nat) : (unitsOf v).toNat ≤ 9 := by
  simp [unitsOf]
  omega

theorem wrapInc_of_le {v top : Nat} (h : top ≤ v) : wrapInc v top = (0, true) := by
  simp [wrapInc, h]

theorem wrapInc_of_lt {v top : Nat} (h : v < top) : wrapInc v top = (v + 1, false) := by
  simp [wrapInc, Nat.not_le.2 h]

theorem wrapInc_fst (v top : Nat) : (wrapInc v top).1 = if top ≤ v then 0 else v + 1 := by
  by_cases h : top ≤ v
  · rw [wrapInc_of_le h, if_pos h]
  · rw [wrapInc_of_lt (Nat.not_le.1 h), if_neg h]

theorem wrapInc_le {v top : Nat} : (wrapInc v top).1 ≤ top := by
  rw [wrapInc_fst]
  split <;> omega

theorem wrapDec_le {v top : Nat} : wrapDec v top ≤ top := by
  unfold wrapDec
  split <;> omega

/-- `valid_bcd` digit by digit (R21). -/
theorem valid_digits {t : BcdTime} (h : validBcd t = true) :
    t.s1.toNat ≤ 9 ∧ t.s10.toNat ≤ 5 ∧ t.m1.toNat ≤ 9 ∧ t.m10.toNat ≤ 5 ∧ t.h1.toNat ≤ 9 ∧
      t.h10.toNat ≤ 2 ∧ (t.h10.toNat ≠ 2 ∨ t.h1.toNat ≤ 3) := by
  simp only [validBcd, Bool.and_eq_true, Bool.or_eq_true, decide_eq_true_eq] at h
  tauto

/-- The digits of R21 make a valid time. -/
theorem valid_of_digits {t : BcdTime} (hs1 : t.s1.toNat ≤ 9) (hs10 : t.s10.toNat ≤ 5)
    (hm1 : t.m1.toNat ≤ 9) (hm10 : t.m10.toNat ≤ 5) (hh1 : t.h1.toNat ≤ 9)
    (hh10 : t.h10.toNat ≤ 2) (hh : t.h10.toNat ≠ 2 ∨ t.h1.toNat ≤ 3) : validBcd t = true := by
  simp only [validBcd, Bool.and_eq_true, Bool.or_eq_true, decide_eq_true_eq]
  tauto

/-- The fields of a valid time are in range (R70). -/
theorem valid_fields {t : BcdTime} (h : validBcd t = true) :
    seconds t ≤ 59 ∧ minutes t ≤ 59 ∧ hours t ≤ 23 := by
  have := valid_digits h
  simp only [seconds, minutes, hours, val]
  omega

/-- Two valid times with the same fields are the same time. -/
theorem eq_of_fields {t u : BcdTime} (ht : validBcd t = true) (hu : validBcd u = true)
    (hs : seconds t = seconds u) (hm : minutes t = minutes u) (hh : hours t = hours u) : t = u := by
  have := valid_digits ht
  have := valid_digits hu
  cases t
  cases u
  simp only [seconds, minutes, hours, val, BcdTime.mk.injEq, ← BitVec.toNat_inj] at *
  omega

/-- Writing the seconds back keeps a time valid. -/
theorem valid_withSeconds {t : BcdTime} (h : validBcd t = true) {v : Nat} (hv : v ≤ 59) :
    validBcd (withSeconds t v) = true :=
  have ⟨_, _, h3, h4, h5, h6, h7⟩ := valid_digits h
  valid_of_digits (unitsOf_le v) (tensOf_le (by omega) (by omega)) h3 h4 h5 h6 h7

/-- Writing the minutes back keeps a time valid. -/
theorem valid_withMinutes {t : BcdTime} (h : validBcd t = true) {v : Nat} (hv : v ≤ 59) :
    validBcd (withMinutes t v) = true :=
  have ⟨h1, h2, _, _, h5, h6, h7⟩ := valid_digits h
  valid_of_digits h1 h2 (unitsOf_le v) (tensOf_le (by omega) (by omega)) h5 h6 h7

/-- Writing the hours back keeps a time valid. -/
theorem valid_withHours {t : BcdTime} (h : validBcd t = true) {v : Nat} (hv : v ≤ 23) :
    validBcd (withHours t v) = true :=
  have ⟨h1, h2, h3, h4, _, _, _⟩ := valid_digits h
  valid_of_digits h1 h2 h3 h4 (unitsOf_le v) (tensOf_le (by omega) (by omega))
    (by simp only [withHours, tensOf, unitsOf, BitVec.toNat_ofNat]; omega)

theorem valid_zeroSeconds {t : BcdTime} (h : validBcd t = true) : validBcd (zeroSeconds t) = true :=
  valid_withSeconds h (v := 0) (by omega)

section

variable (t : BcdTime) (v : Nat)

@[simp] theorem seconds_withMinutes : seconds (withMinutes t v) = seconds t := rfl
@[simp] theorem seconds_withHours : seconds (withHours t v) = seconds t := rfl
@[simp] theorem minutes_withSeconds : minutes (withSeconds t v) = minutes t := rfl
@[simp] theorem minutes_withHours : minutes (withHours t v) = minutes t := rfl
@[simp] theorem hours_withSeconds : hours (withSeconds t v) = hours t := rfl
@[simp] theorem hours_withMinutes : hours (withMinutes t v) = hours t := rfl
@[simp] theorem minutes_zeroSeconds : minutes (zeroSeconds t) = minutes t := rfl
@[simp] theorem hours_zeroSeconds : hours (zeroSeconds t) = hours t := rfl
@[simp] theorem seconds_zeroSeconds : seconds (zeroSeconds t) = 0 := rfl

end

theorem seconds_withSeconds {t : BcdTime} {v : Nat} (h : v < 100) :
    seconds (withSeconds t v) = v := val_bcd h

theorem minutes_withMinutes {t : BcdTime} {v : Nat} (h : v < 100) :
    minutes (withMinutes t v) = v := val_bcd h

theorem hours_withHours {t : BcdTime} {v : Nat} (h : v < 100) : hours (withHours t v) = v :=
  val_bcd h

/-- `add_minute` without a carry (R72). -/
theorem addMinute_of_lt {t : BcdTime} (h : minutes t < 59) :
    addMinute t = withMinutes t (minutes t + 1) := by
  simp [addMinute, wrapInc_of_lt h]

/-- `add_minute` with the carry into the hours (R72). -/
theorem addMinute_of_le {t : BcdTime} (h : 59 ≤ minutes t) :
    addMinute t = withHours (withMinutes t 0) (if 23 ≤ hours t then 0 else hours t + 1) := by
  simp [addMinute, wrapInc_of_le h, incHours, wrapInc_fst]

/-- `advance_second` without a carry (R72). -/
theorem advanceSecond_of_lt {t : BcdTime} (h : seconds t < 59) :
    advanceSecond t = withSeconds t (seconds t + 1) := by
  simp [advanceSecond, wrapInc_of_lt h]

/-- `advance_second` with the carry into the minutes (R72). -/
theorem advanceSecond_of_le {t : BcdTime} (h : 59 ≤ seconds t) :
    advanceSecond t = addMinute (withSeconds t 0) := by
  simp [advanceSecond, wrapInc_of_le h]

theorem valid_addMinute {t : BcdTime} (h : validBcd t = true) : validBcd (addMinute t) = true := by
  by_cases hm : minutes t < 59
  · rw [addMinute_of_lt hm]
    exact valid_withMinutes h (by omega)
  · rw [addMinute_of_le (by omega)]
    exact valid_withHours (valid_withMinutes h (by omega)) (by split <;> omega)

theorem valid_advanceSecond {t : BcdTime} (h : validBcd t = true) :
    validBcd (advanceSecond t) = true := by
  by_cases hs : seconds t < 59
  · rw [advanceSecond_of_lt hs]
    exact valid_withSeconds h (by omega)
  · rw [advanceSecond_of_le (by omega)]
    exact valid_addMinute (valid_withSeconds h (by omega))

theorem valid_bcdIncMin {t : BcdTime} (h : validBcd t = true) : validBcd (bcdIncMin t) = true :=
  valid_withMinutes h wrapInc_le

theorem valid_bcdDecMin {t : BcdTime} (h : validBcd t = true) : validBcd (bcdDecMin t) = true :=
  valid_withMinutes h wrapDec_le

theorem valid_bcdIncHr {t : BcdTime} (h : validBcd t = true) : validBcd (bcdIncHr t) = true :=
  valid_withHours h wrapInc_le

theorem valid_bcdDecHr {t : BcdTime} (h : validBcd t = true) : validBcd (bcdDecHr t) = true :=
  valid_withHours h wrapDec_le

/-- The fields of `t` one minute later, whatever `t` (R72). -/
theorem addMinute_fields (t : BcdTime) :
    seconds (addMinute t) = seconds t ∧
      minutes (addMinute t) = (if 59 ≤ minutes t then 0 else minutes t + 1) ∧
        hours (addMinute t) =
          (if 59 ≤ minutes t then (if 23 ≤ hours t then 0 else hours t + 1) else hours t) := by
  by_cases hm : 59 ≤ minutes t
  · rw [addMinute_of_le hm, if_pos hm, if_pos hm]
    refine ⟨by simp, ?_, hours_withHours (by split <;> omega)⟩
    simpa using minutes_withMinutes (t := t) (v := 0) (by omega)
  · rw [addMinute_of_lt (by omega), if_neg hm, if_neg hm]
    exact ⟨by simp, minutes_withMinutes (by omega), by simp⟩

/-- The fields of `t` one second later, whatever `t` (R72). -/
theorem advanceSecond_fields (t : BcdTime) :
    seconds (advanceSecond t) = (if 59 ≤ seconds t then 0 else seconds t + 1) ∧
      minutes (advanceSecond t) =
        (if 59 ≤ seconds t then (if 59 ≤ minutes t then 0 else minutes t + 1) else minutes t) ∧
        hours (advanceSecond t) =
          (if 59 ≤ seconds t ∧ 59 ≤ minutes t then (if 23 ≤ hours t then 0 else hours t + 1)
            else hours t) := by
  by_cases hs : 59 ≤ seconds t
  · have h := addMinute_fields (withSeconds t 0)
    rw [advanceSecond_of_le hs]
    refine ⟨?_, ?_, ?_⟩
    · rw [h.1, seconds_withSeconds (by omega), if_pos hs]
    · rw [h.2.1, minutes_withSeconds, if_pos hs]
    · rw [h.2.2, minutes_withSeconds, hours_withSeconds]
      simp only [hs, true_and]
  · rw [advanceSecond_of_lt (by omega)]
    refine ⟨?_, by simp [hs], by simp [hs]⟩
    rw [seconds_withSeconds (by omega), if_neg hs]

/-- The time of a minute count of the day (R82). -/
theorem timeOfMinutes_fields {f : Nat} (h : f < 1440) :
    validBcd (timeOfMinutes f) = true ∧ seconds (timeOfMinutes f) = 0 ∧
      minutes (timeOfMinutes f) = f % 60 ∧ hours (timeOfMinutes f) = f / 60 := by
  refine ⟨?_, ?_, ?_, hours_withHours (by omega)⟩
  · exact valid_withHours (valid_withMinutes (by decide) (by omega)) (by omega)
  · simp only [timeOfMinutes, seconds_withHours, seconds_withMinutes]
    rfl
  · exact minutes_withMinutes (t := BcdTime.zero) (by omega)

theorem minuteCount_lt (t : BcdTime) (n : Nat) : minuteCount t n < 1440 :=
  Nat.mod_lt _ (by omega)

end Sys2Proof.Machine
end

