-- ==== Sys2Proof/Laws/State.lean ====
section
/-! SUPPORT. The state record: one lemma per field per update, each true by rfl, so that no later proof
unfolds a record update. -/

namespace Sys2Proof.Machine

open Sys2Proof

section

variable (s : State) (x : Clk)

@[simp] theorem State.withClk_cfg : (s.withClk x).cfg = s.cfg := rfl
@[simp] theorem State.withClk_clk : (s.withClk x).clk = x := rfl
@[simp] theorem State.withClk_dsp : (s.withClk x).dsp = s.dsp := rfl
@[simp] theorem State.withClk_drv : (s.withClk x).drv = s.drv := rfl
@[simp] theorem State.withClk_edg : (s.withClk x).edg = s.edg := rfl
@[simp] theorem State.withClk_fsm : (s.withClk x).fsm = s.fsm := rfl
@[simp] theorem State.withClk_resp : (s.withClk x).resp = s.resp := rfl
@[simp] theorem State.withClk_rsp : (s.withClk x).rsp = s.rsp := rfl
@[simp] theorem State.withClk_tickRsp : (s.withClk x).tickRsp = s.tickRsp := rfl
@[simp] theorem State.withClk_fsmRsp : (s.withClk x).fsmRsp = s.fsmRsp := rfl
@[simp] theorem State.withClk_inbox : (s.withClk x).inbox = s.inbox := rfl
@[simp] theorem State.withClk_digits : (s.withClk x).digits = s.digits := rfl

end

section

variable (s : State) (x : Dsp)

@[simp] theorem State.withDsp_cfg : (s.withDsp x).cfg = s.cfg := rfl
@[simp] theorem State.withDsp_clk : (s.withDsp x).clk = s.clk := rfl
@[simp] theorem State.withDsp_dsp : (s.withDsp x).dsp = x := rfl
@[simp] theorem State.withDsp_drv : (s.withDsp x).drv = s.drv := rfl
@[simp] theorem State.withDsp_edg : (s.withDsp x).edg = s.edg := rfl
@[simp] theorem State.withDsp_fsm : (s.withDsp x).fsm = s.fsm := rfl
@[simp] theorem State.withDsp_resp : (s.withDsp x).resp = s.resp := rfl
@[simp] theorem State.withDsp_rsp : (s.withDsp x).rsp = s.rsp := rfl
@[simp] theorem State.withDsp_tickRsp : (s.withDsp x).tickRsp = s.tickRsp := rfl
@[simp] theorem State.withDsp_fsmRsp : (s.withDsp x).fsmRsp = s.fsmRsp := rfl
@[simp] theorem State.withDsp_inbox : (s.withDsp x).inbox = s.inbox := rfl
@[simp] theorem State.withDsp_digits : (s.withDsp x).digits = s.digits := rfl

end

section

variable (s : State) (x : Drv)

@[simp] theorem State.withDrv_cfg : (s.withDrv x).cfg = s.cfg := rfl
@[simp] theorem State.withDrv_clk : (s.withDrv x).clk = s.clk := rfl
@[simp] theorem State.withDrv_dsp : (s.withDrv x).dsp = s.dsp := rfl
@[simp] theorem State.withDrv_drv : (s.withDrv x).drv = x := rfl
@[simp] theorem State.withDrv_edg : (s.withDrv x).edg = s.edg := rfl
@[simp] theorem State.withDrv_fsm : (s.withDrv x).fsm = s.fsm := rfl
@[simp] theorem State.withDrv_resp : (s.withDrv x).resp = s.resp := rfl
@[simp] theorem State.withDrv_rsp : (s.withDrv x).rsp = s.rsp := rfl
@[simp] theorem State.withDrv_tickRsp : (s.withDrv x).tickRsp = s.tickRsp := rfl
@[simp] theorem State.withDrv_fsmRsp : (s.withDrv x).fsmRsp = s.fsmRsp := rfl
@[simp] theorem State.withDrv_inbox : (s.withDrv x).inbox = s.inbox := rfl
@[simp] theorem State.withDrv_digits : (s.withDrv x).digits = s.digits := rfl

end

section

variable (s : State) (x : Vector Bool edgeN)

@[simp] theorem State.withEdg_cfg : (s.withEdg x).cfg = s.cfg := rfl
@[simp] theorem State.withEdg_clk : (s.withEdg x).clk = s.clk := rfl
@[simp] theorem State.withEdg_dsp : (s.withEdg x).dsp = s.dsp := rfl
@[simp] theorem State.withEdg_drv : (s.withEdg x).drv = s.drv := rfl
@[simp] theorem State.withEdg_edg : (s.withEdg x).edg = x := rfl
@[simp] theorem State.withEdg_fsm : (s.withEdg x).fsm = s.fsm := rfl
@[simp] theorem State.withEdg_resp : (s.withEdg x).resp = s.resp := rfl
@[simp] theorem State.withEdg_rsp : (s.withEdg x).rsp = s.rsp := rfl
@[simp] theorem State.withEdg_tickRsp : (s.withEdg x).tickRsp = s.tickRsp := rfl
@[simp] theorem State.withEdg_fsmRsp : (s.withEdg x).fsmRsp = s.fsmRsp := rfl
@[simp] theorem State.withEdg_inbox : (s.withEdg x).inbox = s.inbox := rfl
@[simp] theorem State.withEdg_digits : (s.withEdg x).digits = s.digits := rfl

end

section

variable (s : State) (x : Fsm)

@[simp] theorem State.withFsm_cfg : (s.withFsm x).cfg = s.cfg := rfl
@[simp] theorem State.withFsm_clk : (s.withFsm x).clk = s.clk := rfl
@[simp] theorem State.withFsm_dsp : (s.withFsm x).dsp = s.dsp := rfl
@[simp] theorem State.withFsm_drv : (s.withFsm x).drv = s.drv := rfl
@[simp] theorem State.withFsm_edg : (s.withFsm x).edg = s.edg := rfl
@[simp] theorem State.withFsm_fsm : (s.withFsm x).fsm = x := rfl
@[simp] theorem State.withFsm_resp : (s.withFsm x).resp = s.resp := rfl
@[simp] theorem State.withFsm_rsp : (s.withFsm x).rsp = s.rsp := rfl
@[simp] theorem State.withFsm_tickRsp : (s.withFsm x).tickRsp = s.tickRsp := rfl
@[simp] theorem State.withFsm_fsmRsp : (s.withFsm x).fsmRsp = s.fsmRsp := rfl
@[simp] theorem State.withFsm_inbox : (s.withFsm x).inbox = s.inbox := rfl
@[simp] theorem State.withFsm_digits : (s.withFsm x).digits = s.digits := rfl

end

section

variable (s : State) (x : Word64)

@[simp] theorem State.withResp_cfg : (s.withResp x).cfg = s.cfg := rfl
@[simp] theorem State.withResp_clk : (s.withResp x).clk = s.clk := rfl
@[simp] theorem State.withResp_dsp : (s.withResp x).dsp = s.dsp := rfl
@[simp] theorem State.withResp_drv : (s.withResp x).drv = s.drv := rfl
@[simp] theorem State.withResp_edg : (s.withResp x).edg = s.edg := rfl
@[simp] theorem State.withResp_fsm : (s.withResp x).fsm = s.fsm := rfl
@[simp] theorem State.withResp_resp : (s.withResp x).resp = x := rfl
@[simp] theorem State.withResp_rsp : (s.withResp x).rsp = s.rsp := rfl
@[simp] theorem State.withResp_tickRsp : (s.withResp x).tickRsp = s.tickRsp := rfl
@[simp] theorem State.withResp_fsmRsp : (s.withResp x).fsmRsp = s.fsmRsp := rfl
@[simp] theorem State.withResp_inbox : (s.withResp x).inbox = s.inbox := rfl
@[simp] theorem State.withResp_digits : (s.withResp x).digits = s.digits := rfl

end

section

variable (s : State) (x : List Ports)

@[simp] theorem State.withInbox_cfg : (s.withInbox x).cfg = s.cfg := rfl
@[simp] theorem State.withInbox_clk : (s.withInbox x).clk = s.clk := rfl
@[simp] theorem State.withInbox_dsp : (s.withInbox x).dsp = s.dsp := rfl
@[simp] theorem State.withInbox_drv : (s.withInbox x).drv = s.drv := rfl
@[simp] theorem State.withInbox_edg : (s.withInbox x).edg = s.edg := rfl
@[simp] theorem State.withInbox_fsm : (s.withInbox x).fsm = s.fsm := rfl
@[simp] theorem State.withInbox_resp : (s.withInbox x).resp = s.resp := rfl
@[simp] theorem State.withInbox_rsp : (s.withInbox x).rsp = s.rsp := rfl
@[simp] theorem State.withInbox_tickRsp : (s.withInbox x).tickRsp = s.tickRsp := rfl
@[simp] theorem State.withInbox_fsmRsp : (s.withInbox x).fsmRsp = s.fsmRsp := rfl
@[simp] theorem State.withInbox_inbox : (s.withInbox x).inbox = x := rfl
@[simp] theorem State.withInbox_digits : (s.withInbox x).digits = s.digits := rfl

end

section

variable (r : Response) (s : State)

@[simp] theorem respond_cfg : (respond r s).cfg = s.cfg := rfl
@[simp] theorem respond_clk : (respond r s).clk = s.clk := rfl
@[simp] theorem respond_dsp : (respond r s).dsp = s.dsp := rfl
@[simp] theorem respond_drv : (respond r s).drv = s.drv := rfl
@[simp] theorem respond_edg : (respond r s).edg = s.edg := rfl
@[simp] theorem respond_fsm : (respond r s).fsm = s.fsm := rfl
@[simp] theorem respond_resp : (respond r s).resp = r.word := rfl
@[simp] theorem respond_rsp : (respond r s).rsp = s.rsp := rfl
@[simp] theorem respond_tickRsp : (respond r s).tickRsp = s.tickRsp := rfl
@[simp] theorem respond_fsmRsp : (respond r s).fsmRsp = s.fsmRsp := rfl
@[simp] theorem respond_inbox : (respond r s).inbox = s.inbox := rfl
@[simp] theorem respond_digits : (respond r s).digits = s.digits := rfl

end

section

variable (e : DrvEvent) (s : State)

@[simp] theorem emit_cfg : (emit e s).cfg = s.cfg := rfl
@[simp] theorem emit_clk : (emit e s).clk = s.clk := rfl
@[simp] theorem emit_dsp : (emit e s).dsp = s.dsp := rfl
@[simp] theorem emit_drv : (emit e s).drv = s.drv.after e := rfl
@[simp] theorem emit_edg : (emit e s).edg = s.edg := rfl
@[simp] theorem emit_fsm : (emit e s).fsm = s.fsm := rfl
@[simp] theorem emit_resp : (emit e s).resp = s.resp := rfl
@[simp] theorem emit_rsp : (emit e s).rsp = s.rsp := rfl
@[simp] theorem emit_tickRsp : (emit e s).tickRsp = s.tickRsp := rfl
@[simp] theorem emit_fsmRsp : (emit e s).fsmRsp = s.fsmRsp := rfl
@[simp] theorem emit_inbox : (emit e s).inbox = s.inbox := rfl
@[simp] theorem emit_digits : (emit e s).digits = s.digits := rfl

end

section

variable (s : State)

@[simp] theorem illegal_cfg : (illegal s).cfg = s.cfg := rfl
@[simp] theorem illegal_clk : (illegal s).clk = s.clk := rfl
@[simp] theorem illegal_dsp : (illegal s).dsp = s.dsp := rfl
@[simp] theorem illegal_drv : (illegal s).drv = s.drv := rfl
@[simp] theorem illegal_edg : (illegal s).edg = s.edg := rfl
@[simp] theorem illegal_fsm : (illegal s).fsm = s.fsm := rfl
@[simp] theorem illegal_resp : (illegal s).resp = Response.word { ill := true } := rfl
@[simp] theorem illegal_rsp : (illegal s).rsp = s.rsp := rfl
@[simp] theorem illegal_tickRsp : (illegal s).tickRsp = s.tickRsp := rfl
@[simp] theorem illegal_fsmRsp : (illegal s).fsmRsp = s.fsmRsp := rfl
@[simp] theorem illegal_inbox : (illegal s).inbox = s.inbox := rfl

end

section

variable (a : Agent) (s : State)

@[simp] theorem deliver_cfg : (deliver a s).cfg = s.cfg := by cases a <;> rfl
@[simp] theorem deliver_clk : (deliver a s).clk = s.clk := by cases a <;> rfl
@[simp] theorem deliver_dsp : (deliver a s).dsp = s.dsp := by cases a <;> rfl
@[simp] theorem deliver_drv : (deliver a s).drv = s.drv := by cases a <;> rfl
@[simp] theorem deliver_edg : (deliver a s).edg = s.edg := by cases a <;> rfl
@[simp] theorem deliver_fsm : (deliver a s).fsm = s.fsm := by cases a <;> rfl
@[simp] theorem deliver_resp : (deliver a s).resp = s.resp := by cases a <;> rfl
@[simp] theorem deliver_inbox : (deliver a s).inbox = s.inbox := by cases a <;> rfl
@[simp] theorem deliver_digits : (deliver a s).digits = s.digits := by cases a <;> rfl

end

@[simp] theorem deliver_host_rsp (s : State) : (deliver .host s).rsp = s.resp := rfl
@[simp] theorem deliver_host_tickRsp (s : State) : (deliver .host s).tickRsp = s.tickRsp := rfl
@[simp] theorem deliver_host_fsmRsp (s : State) : (deliver .host s).fsmRsp = s.fsmRsp := rfl
@[simp] theorem deliver_fsm_rsp (s : State) : (deliver .fsm s).rsp = s.rsp := rfl
@[simp] theorem deliver_fsm_tickRsp (s : State) : (deliver .fsm s).tickRsp = s.tickRsp := rfl
@[simp] theorem deliver_fsm_fsmRsp (s : State) : (deliver .fsm s).fsmRsp = s.fsmRsp ++ [s.resp] := rfl
@[simp] theorem deliver_tick_rsp (s : State) : (deliver .tick s).rsp = s.rsp := rfl
@[simp] theorem deliver_tick_tickRsp (s : State) : (deliver .tick s).tickRsp = s.tickRsp ++ [s.resp] := rfl
@[simp] theorem deliver_tick_fsmRsp (s : State) : (deliver .tick s).fsmRsp = s.fsmRsp := rfl

/-- The command placed before all requests is all that `withFetchWord` changes. -/
@[simp] theorem withFetchWord_inbox (s : State) (nbits w : Nat) :
    (s.withFetchWord nbits w).inbox = commandFirst nbits w s.inbox := rfl

/-- Putting the requests back after a placed command gives the state it was placed in. -/
@[simp] theorem withFetchWord_withInbox (s : State) (nbits w : Nat) :
    (s.withFetchWord nbits w).withInbox s.inbox = s := rfl

end Sys2Proof.Machine
end

