-- ==== Sys2Proof/Laws/Clock.lean ====
section
/-! SUPPORT. The clock engine's operations: what each can leave behind, said once. -/

namespace Sys2Proof.Machine

open Sys2Proof

/-- `TPS` is at least 1 (R8). -/
theorem tps_pos (c : Config) : 0 < c.tps.val.toNat := by
  have : c.tps.val.toNat ≠ 0 := fun e => c.tps.nonzero (BitVec.eq_of_toNat_eq (by simpa using e))
  omega

/-- `clk_set_time` stores a valid time or clears the validity (R74). -/
theorem clkSetTime_cases (t : BcdTime) (x : Clk) :
    (validBcd t = true ∧ clkSetTime t x = { x with cur := t, valid := true }) ∨
      validBcd t = false ∧ clkSetTime t x = { x with valid := false } := by
  by_cases h : validBcd t = true
  · exact .inl ⟨h, by simp only [clkSetTime, if_pos h]⟩
  · exact .inr ⟨by simpa using h, by simp only [clkSetTime, if_neg h]⟩

/-- `clk_tick` counts, or completes a second (R75). -/
theorem clkTick_cases (tps : BitVec 16) (x : Clk) :
    (x.acc.toNat + 1 = tps.toNat ∧
        clkTick tps x = { x with acc := 0, cur := advanceSecond x.cur }) ∨
      x.acc.toNat + 1 ≠ tps.toNat ∧ clkTick tps x = { x with acc := x.acc + 1 } := by
  by_cases h : x.acc.toNat + 1 = tps.toNat
  · exact .inl ⟨h, by simp only [clkTick, if_pos h]⟩
  · exact .inr ⟨h, by simp only [clkTick, if_neg h]⟩

/-- The counter below `TPS` does not wrap in 16 bits (R75). -/
theorem acc_succ_toNat {tps acc : BitVec 16} (h : acc.toNat < tps.toNat) :
    (acc + 1).toNat = acc.toNat + 1 := by
  have := tps.isLt
  rw [BitVec.toNat_add]
  show (acc.toNat + 1) % 2 ^ 16 = _
  omega

/-- `clk_alarm_is_ringing` latches the ring, resynchronises the baseline, or writes nothing (R78). -/
theorem clkAlarmIsRinging_cases (x : Clk) :
    (x.cur = x.snooze ∧ x.en = true ∧ clkAlarmIsRinging x = { x with ring := true }) ∨
      (x.cur = x.snooze ∧ x.en = false ∧ clkAlarmIsRinging x = { x with snooze := x.alarm }) ∨
        x.cur ≠ x.snooze ∧ clkAlarmIsRinging x = x := by
  by_cases h : x.cur = x.snooze
  · by_cases he : x.en = true
    · exact .inl ⟨h, he, by simp only [clkAlarmIsRinging, if_pos h, if_pos he]⟩
    · exact .inr (.inl ⟨h, by simpa using he, by
        simp only [clkAlarmIsRinging, if_pos h, if_neg he]⟩)
  · exact .inr (.inr ⟨h, by simp only [clkAlarmIsRinging, if_neg h]⟩)

theorem badPostponement_iff (n : BitVec 8) :
    badPostponement n = true ↔ n.toNat = 0 ∨ 60 ≤ n.toNat := by
  simp only [badPostponement, Bool.or_eq_true, decide_eq_true_eq]

/-- `clk_postpone_minutes` moves the baseline, or writes nothing (R82). -/
theorem clkPostponeMinutes_cases (n : BitVec 8) (x : Clk) :
    ((n.toNat = 0 ∨ 60 ≤ n.toNat) ∧ clkPostponeMinutes n x = (x, false)) ∨
      (1 ≤ n.toNat ∧ n.toNat < 60) ∧
        clkPostponeMinutes n x =
          ({ x with snooze := timeOfMinutes (minuteCount x.cur n.toNat), ring := false }, true) := by
  by_cases h : badPostponement n = true
  · exact .inl ⟨(badPostponement_iff n).1 h, by simp only [clkPostponeMinutes, if_pos h]⟩
  · refine .inr ⟨?_, by simp only [clkPostponeMinutes, if_neg h]⟩
    rw [badPostponement_iff] at h
    omega

/-- The FSM's snooze amount is one that `CLK_POSTPONE_MINUTES` accepts (R124). -/
theorem clkPostponeMinutes_snooze (x : Clk) :
    (clkPostponeMinutes snoozeMin x).1 =
      { x with snooze := timeOfMinutes (minuteCount x.cur 5), ring := false } := rfl

/-- What an evaluation of the alarm leaves alone (R78). -/
theorem clkAlarmIsRinging_frame (x : Clk) :
    (clkAlarmIsRinging x).cur = x.cur ∧ (clkAlarmIsRinging x).acc = x.acc ∧
      (clkAlarmIsRinging x).valid = x.valid ∧ (clkAlarmIsRinging x).alarm = x.alarm ∧
        (clkAlarmIsRinging x).en = x.en := by
  rcases clkAlarmIsRinging_cases x with ⟨-, -, h⟩ | ⟨-, -, h⟩ | ⟨-, h⟩ <;> rw [h] <;>
    exact ⟨rfl, rfl, rfl, rfl, rfl⟩

/-- `CLK_TICK` always completes (R75). -/
theorem exec_clkTick (s : State) :
    exec .clkTick s =
      .next { s with clk := clkTick s.cfg.tps.val s.clk, resp := Response.word {} } := rfl

end Sys2Proof.Machine
end

