-- ==== Sys2Proof/Laws/Display.lean ====
section
/-! SUPPORT. The display engine's operations: what each can leave behind, said once. -/

namespace Sys2Proof.Machine

open Sys2Proof

theorem digitCount_le (c : Config) : digitCount c ≤ 8 := Nat.min_le_right _ _

theorem digitCount_pos (c : Config) : 0 < digitCount c := by
  have h := c.digits.nonzero
  have : c.digits.val.toNat ≠ 0 := fun e => h (BitVec.eq_of_toNat_eq (by simpa using e))
  simp only [digitCount, maxDigits]
  omega

theorem digits_le (s : State) : s.digits ≤ 8 := digitCount_le s.cfg

theorem digits_pos (s : State) : 0 < s.digits := digitCount_pos s.cfg

/-- Reading a vector given by a function. -/
theorem get_ofFn {α : Type} {n : Nat} (f : Fin n → α) (d : Fin n) : (Vector.ofFn f).get d = f d := by
  show (Vector.ofFn f)[d.val] = f d
  simp

@[simp] theorem slot_val (d : BitVec 3) : (slot d).val = d.toNat := rfl

/-- An index below 8 is its own digit register (R99, R100). -/
theorem digitReg_toNat {i : BitVec 4} (h : i.toNat < 8) : (digitReg i).toNat = i.toNat := by
  simp only [digitReg, BitVec.toNat_setWidth]
  omega

/-- The period of a divisor loses no bit (R65). -/
theorem period_toNat (divisor : BitVec 16) : (period divisor).toNat = 2 * divisor.toNat := by
  have := divisor.isLt
  simp only [period, BitVec.toNat_ofNat]
  omega

theorem nextPhase_toNat {ph per : BitVec 17} (h : per ≠ 0) :
    (nextPhase ph per).toNat = (ph.toNat + 1) % per.toNat := by
  have h0 : per.toNat ≠ 0 := fun e => h (BitVec.eq_of_toNat_eq (by simpa using e))
  have := per.isLt
  have := Nat.mod_lt (ph.toNat + 1) (Nat.pos_of_ne_zero h0)
  simp only [nextPhase, BitVec.toNat_ofNat]
  omega

/-- The next digit is a digit of the display (R94). -/
theorem nextDigit_toNat {n : Nat} (x : Dsp) (h0 : 0 < n) (h8 : n ≤ 8) :
    (nextDigit n x).toNat = (x.cur.toNat + 1) % n := by
  have := Nat.mod_lt (x.cur.toNat + 1) h0
  simp only [nextDigit, BitVec.toNat_ofNat]
  omega

/-- `DSP_WRITE_BCD` writes the segment values or nothing (R93). -/
theorem dspWriteBcd_cases (c : Config) (size : BitVec 4) (v : Vector Nibble 8) (x : Dsp) :
    (badValues (min size.toNat (digitCount c)) v = true ∧ dspWriteBcd c size v x = (x, false)) ∨
      badValues (min size.toNat (digitCount c)) v = false ∧
        ∃ g : Vector (BitVec 8) 8, dspWriteBcd c size v x = ({ x with seg := g }, true) ∧
          ∀ d : Fin 8, g.get d =
            if d.val < min size.toNat (digitCount c) then segPattern c (v.get d)
            else if d.val < digitCount c then 0 else x.seg.get d := by
  by_cases h : badValues (min size.toNat (digitCount c)) v = true
  · exact .inl ⟨h, by simp only [dspWriteBcd, if_pos h]⟩
  · refine .inr ⟨by simpa using h, _, by simp only [dspWriteBcd, if_neg h], fun d => get_ofFn _ d⟩

/-- A rejected vector has a value above 9 among those written, and only then (R93). -/
theorem badValues_iff (k : Nat) (v : Vector Nibble 8) :
    badValues k v = true ↔ ∃ i : Fin 8, i.val < k ∧ 9 < (v.get i).toNat := by
  simp only [badValues, List.any_eq_true, Bool.and_eq_true, decide_eq_true_eq]
  constructor
  · rintro ⟨i, -, h⟩
    exact ⟨i, h⟩
  · rintro ⟨i, h⟩
    exact ⟨i, by fin_cases i <;> simp, h⟩

/-- The pattern of a digit 0 to 9 is its table entry with the decimal point dark (R92). -/
theorem segPattern_of_le {c : Config} {v : Nibble} (h : v.toNat ≤ 9) :
    ∃ p : BitVec 7, c.segTable[v.toNat]? = some p ∧ segPattern c v = p.setWidth 8 := by
  have h' : v.toNat < 10 := by omega
  refine ⟨c.segTable[v.toNat], ?_, ?_⟩
  · simp [h']
  · simp [segPattern, h']

/-- A stored pattern has no decimal point (R27, R92). -/
theorem segPattern_dp (c : Config) (v : Nibble) : (segPattern c v).getLsbD 7 = false := by
  unfold segPattern
  split <;> simp

/-- `DSP_CFG_DIGIT_BLINK` programs the whole descriptor or nothing (R99). -/
theorem dspCfgDigitBlink_cases (n : Nat) (first last : BitVec 4) (divisor : BitVec 16) (x : Dsp) :
    ((last.toNat < first.toNat ∨ n ≤ first.toNat ∨ n ≤ last.toNat) ∧
        dspCfgDigitBlink n first last divisor x = (x, false)) ∨
      (first.toNat ≤ last.toNat ∧ last.toNat < n) ∧
        dspCfgDigitBlink n first last divisor x =
          ({ x with bfrom := digitReg first, bto := digitReg last, bper := period divisor,
                    bph := 0 }, true) := by
  by_cases h : badWindow n first last = true
  · refine .inl ⟨?_, by simp only [dspCfgDigitBlink, if_pos h]⟩
    simp only [badWindow, Bool.or_eq_true, decide_eq_true_eq] at h
    tauto
  · refine .inr ⟨?_, by simp only [dspCfgDigitBlink, if_neg h]⟩
    simp only [badWindow, Bool.or_eq_true, decide_eq_true_eq] at h
    omega

/-- `DSP_CFG_DOT_BLINK` programs one descriptor or nothing (R100). -/
theorem dspCfgDotBlink_cases (n : Nat) (digit : BitVec 4) (divisor : BitVec 16) (en : Bool)
    (x : Dsp) :
    (n ≤ digit.toNat ∧ dspCfgDotBlink n digit divisor en x = (x, false)) ∨
      digit.toNat < n ∧
        ∃ g : Vector Dot 8, dspCfgDotBlink n digit divisor en x = ({ x with dots := g }, true) ∧
          ∀ k : Fin 8, g.get k =
            if k = slot (digitReg digit) then { per := period divisor, en := en, ph := 0 }
            else x.dots.get k := by
  by_cases h : n ≤ digit.toNat
  · exact .inl ⟨h, by simp only [dspCfgDotBlink, if_pos h]⟩
  · refine .inr ⟨by omega, _, by simp only [dspCfgDotBlink, if_neg h], fun k => get_ofFn _ k⟩

/-- The phases after a mux-cycle boundary, dot by dot (R96). -/
theorem advancePhases_dot (n : Nat) (x : Dsp) (k : Fin 8) :
    (advancePhases n x).dots.get k =
      if k.val < n then (x.dots.get k).advance else x.dots.get k :=
  get_ofFn _ k

theorem advancePhases_bph (n : Nat) (x : Dsp) :
    (advancePhases n x).bph = if x.bper ≠ 0 then nextPhase x.bph x.bper else x.bph := rfl

section

variable (n : Nat) (x : Dsp)

@[simp] theorem advancePhases_cur : (advancePhases n x).cur = x.cur := rfl
@[simp] theorem advancePhases_seg : (advancePhases n x).seg = x.seg := rfl
@[simp] theorem advancePhases_bfrom : (advancePhases n x).bfrom = x.bfrom := rfl
@[simp] theorem advancePhases_bto : (advancePhases n x).bto = x.bto := rfl
@[simp] theorem advancePhases_bper : (advancePhases n x).bper = x.bper := rfl
@[simp] theorem dspAfterRefresh_cur : (dspAfterRefresh n x).cur = nextDigit n x := by
  simp only [dspAfterRefresh]
  split <;> rfl
@[simp] theorem dspAfterRefresh_seg : (dspAfterRefresh n x).seg = x.seg := by
  simp only [dspAfterRefresh]
  split <;> rfl
@[simp] theorem dspAfterRefresh_bfrom : (dspAfterRefresh n x).bfrom = x.bfrom := by
  simp only [dspAfterRefresh]
  split <;> rfl
@[simp] theorem dspAfterRefresh_bto : (dspAfterRefresh n x).bto = x.bto := by
  simp only [dspAfterRefresh]
  split <;> rfl
@[simp] theorem dspAfterRefresh_bper : (dspAfterRefresh n x).bper = x.bper := by
  simp only [dspAfterRefresh]
  split <;> rfl

end

@[simp] theorem Dot.advance_per (x : Dot) : x.advance.per = x.per := by
  unfold Dot.advance
  split <;> rfl

@[simp] theorem Dot.advance_en (x : Dot) : x.advance.en = x.en := by
  unfold Dot.advance
  split <;> rfl

/-- An armed dot advances, another keeps its phase (R96). -/
theorem Dot.advance_ph (x : Dot) :
    x.advance.ph = if x.en = true ∧ x.per ≠ 0 then nextPhase x.ph x.per else x.ph := by
  by_cases h : x.isArmed = true
  · have h' := h
    simp only [Dot.isArmed, Bool.and_eq_true, decide_eq_true_eq] at h'
    simp only [Dot.advance, if_pos h, if_pos h']
  · have h' := h
    simp only [Dot.isArmed, Bool.and_eq_true, decide_eq_true_eq] at h'
    simp only [Dot.advance, if_neg h, if_neg h']

/-- The pattern's segments: those stored, unless the digit is in its off half (R94, R97). -/
theorem patternOf_segment (x : Dsp) (d : BitVec 3) {k : Nat} (h : k < 7) :
    (patternOf x d).getLsbD k = (!digitOff x d && (x.seg.get (slot d)).getLsbD k) := by
  have hk : decimalPoint.getLsbD k = false := by
    rcases k with _ | _ | _ | _ | _ | _ | _ | k <;> first | rfl | omega
  unfold patternOf
  cases digitOff x d <;> cases dotOff x d <;> simp [hk]
  omega

/-- The pattern's decimal point: lit unless the dot is in its off half (R94, R98). -/
theorem patternOf_dp (x : Dsp) (d : BitVec 3) : (patternOf x d).getLsbD 7 = !dotOff x d := by
  have hk : decimalPoint.getLsbD 7 = true := by decide
  unfold patternOf
  cases dotOff x d <;> simp [hk]

theorem digitOff_iff (x : Dsp) (d : BitVec 3) :
    digitOff x d = true ↔
      x.bper ≠ 0 ∧ x.bfrom.toNat ≤ d.toNat ∧ d.toNat ≤ x.bto.toNat ∧
        x.bph.toNat < x.bper.toNat / 2 := by
  simp only [digitOff, Bool.and_eq_true, decide_eq_true_eq, and_assoc]

theorem dotOff_iff (x : Dsp) (d : BitVec 3) :
    dotOff x d = true ↔
      (x.dots.get (slot d)).en = true ∧ (x.dots.get (slot d)).per ≠ 0 ∧
        (x.dots.get (slot d)).ph.toNat < (x.dots.get (slot d)).per.toNat / 2 := by
  simp only [dotOff, Dot.isOff, Dot.isArmed, Bool.and_eq_true, decide_eq_true_eq, and_assoc]

/-- `DSP_REFRESH` always completes (R94). -/
theorem exec_dspRefresh (s : State) :
    exec .dspRefresh s =
      .next { s with
        dsp := dspAfterRefresh s.digits s.dsp
        drv :=
          { segOut := patternOf (dspAfterRefresh s.digits s.dsp) (nextDigit s.digits s.dsp)
            digOn := some (nextDigit s.digits s.dsp)
            trace := s.drv.trace ++
              [.offAll,
               .update (patternOf (dspAfterRefresh s.digits s.dsp) (nextDigit s.digits s.dsp)),
               .on (nextDigit s.digits s.dsp)] }
        resp := Response.word
          { dig := nextDigit s.digits s.dsp,
            pat := patternOf (dspAfterRefresh s.digits s.dsp) (nextDigit s.digits s.dsp) } } := by
  simp [exec, execDspRefresh, respond, emit, Drv.after, State.withDsp, State.withDrv,
    State.withResp]

end Sys2Proof.Machine
end

