-- ==== Sys2Proof/Laws/Coordinator.lean ====
section
/-! SUPPORT. The coordinator's step: what it can write, said once (R108, R124). -/

namespace Sys2Proof.Machine

open Sys2Proof

/-- `FSM_STEP` completes with at least four digits (R108). -/
theorem exec_fsmStep {s : State} (h : 4 ≤ s.digits) (btn : Buttons) (eet eea xa : Bool) :
    exec (.fsmStep btn eet eea xa) s =
      .next (respond
        { state := stateCode (fsmStep btn eet eea xa s).fsm.state,
          aout := (fsmStep btn eet eea xa s).fsm.alarmOut } (fsmStep btn eet eea xa s)) := by
  simp only [exec, execFsmStep, if_neg (Nat.not_lt.2 h)]

/-- Without them it is refused (R9). -/
theorem exec_fsmStep_refused {s : State} (h : s.digits < 4) (btn : Buttons) (eet eea xa : Bool) :
    exec (.fsmStep btn eet eea xa) s = .refused .illegalConfiguration := by
  simp only [exec, execFsmStep, if_pos h]

/-- If a step completes, the display has four digits, and the step is `fsmStep` with its response. -/
theorem exec_fsmStep_next {s t : State} {btn : Buttons} {eet eea xa : Bool}
    (h : exec (.fsmStep btn eet eea xa) s = .next t) :
    4 ≤ s.digits ∧
      t = respond
        { state := stateCode (fsmStep btn eet eea xa s).fsm.state,
          aout := (fsmStep btn eet eea xa s).fsm.alarmOut } (fsmStep btn eet eea xa s) := by
  by_cases hd : s.digits < 4
  · rw [exec_fsmStep_refused hd] at h
    cases h
  · rw [exec_fsmStep (by omega)] at h
    exact ⟨by omega, (Host.Outcome.next.inj h).symm⟩

/-- `render_time` writes segment values and nothing else (R111). -/
theorem renderTime_seg (c : Config) (t : BcdTime) (x : Dsp) :
    ∃ g : Vector (BitVec 8) 8, renderTime c t x = { x with seg := g } := by
  rcases dspWriteBcd_cases c 4 (fourValues t.h10 t.h1 t.m10 t.m1) x with ⟨-, h⟩ | ⟨-, g, h, -⟩
  · exact ⟨x.seg, by rw [renderTime, h]⟩
  · exact ⟨g, by rw [renderTime, h]⟩

/-- `ensure_digit_blink` leaves the display as it was, or programs the window (R112). -/
theorem ensureDigitBlink_cases (c : Config) (first last : BitVec 4) (divisor : BitVec 16) (x : Dsp) :
    ensureDigitBlink c first last divisor x = x ∨
      (first.toNat ≤ last.toNat ∧ last.toNat < digitCount c) ∧
        ensureDigitBlink c first last divisor x =
          { x with bfrom := digitReg first, bto := digitReg last, bper := period divisor,
                   bph := 0 } := by
  unfold ensureDigitBlink
  split
  · exact .inl rfl
  · rcases dspCfgDigitBlink_cases (digitCount c) first last divisor x with ⟨-, h⟩ | ⟨hr, h⟩
    · exact .inl (by rw [h])
    · exact .inr ⟨hr, by rw [h]⟩

/-- `ensure_dot` leaves the display as it was, or programs one dot (R112). -/
theorem ensureDot_cases (c : Config) (d : BitVec 4) (divisor : BitVec 16) (en : Bool) (x : Dsp) :
    ensureDot c d divisor en x = x ∨
      d.toNat < digitCount c ∧
        ∃ g : Vector Dot 8, ensureDot c d divisor en x = { x with dots := g } ∧
          ∀ k : Fin 8, g.get k =
            if k = slot (digitReg d) then { per := period divisor, en := en, ph := 0 }
            else x.dots.get k := by
  unfold ensureDot
  split
  · exact .inl rfl
  · rcases dspCfgDotBlink_cases (digitCount c) d divisor en x with ⟨-, h⟩ | ⟨hr, g, h, hg⟩
    · exact .inl (by rw [h])
    · exact .inr ⟨hr, g, by rw [h], hg⟩

@[simp] theorem renderTime_cur (c : Config) (t : BcdTime) (x : Dsp) :
    (renderTime c t x).cur = x.cur := by
  obtain ⟨g, h⟩ := renderTime_seg c t x
  rw [h]

@[simp] theorem ensureDigitBlink_cur (c : Config) (first last : BitVec 4) (divisor : BitVec 16)
    (x : Dsp) : (ensureDigitBlink c first last divisor x).cur = x.cur := by
  rcases ensureDigitBlink_cases c first last divisor x with h | ⟨-, h⟩ <;> rw [h]

@[simp] theorem ensureDot_cur (c : Config) (d : BitVec 4) (divisor : BitVec 16) (en : Bool)
    (x : Dsp) : (ensureDot c d divisor en x).cur = x.cur := by
  rcases ensureDot_cases c d divisor en x with h | ⟨-, g, h, -⟩ <;> rw [h]

@[simp] theorem renderShowTime_cur (c : Config) (t : BcdTime) (valid active : Bool) (x : Dsp) :
    (renderShowTime c t valid active x).cur = x.cur := by
  cases active <;> simp [renderShowTime]

@[simp] theorem renderAdjust_cur (c : Config) (kind : EditKind) (field : EditField) (t : BcdTime)
    (x : Dsp) : (renderAdjust c kind field t x).cur = x.cur := by
  cases kind <;> cases field <;> simp [renderAdjust]

/-- The edit helpers keep a buffer valid (R124). -/
theorem valid_editedBuffer {t : BcdTime} (field : EditField) (fire : Buttons)
    (h : validBcd t = true) : validBcd (editedBuffer field fire t) = true := by
  have inc : ∀ {u}, validBcd u = true → validBcd (increment field u) = true := fun hu =>
    match field with
    | .minutes => valid_bcdIncMin hu
    | .hours => valid_bcdIncHr hu
  have dec : ∀ {u}, validBcd u = true → validBcd (decrement field u) = true := fun hu =>
    match field with
    | .minutes => valid_bcdDecMin hu
    | .hours => valid_bcdDecHr hu
  unfold editedBuffer
  cases fire.inc <;> cases fire.dec
  · exact h
  · exact dec h
  · exact inc h
  · exact dec (inc h)

/-- The coordinator's registers after a `ShowTime` step, field by field (R114). -/
theorem showTimeFsm_eq (t alarm : BcdTime) (fire : Buttons) (eet eea : Bool) (f : Fsm) :
    showTimeFsm t alarm fire eet eea f =
      { f with
          active := activeAfter fire f.active
          etime := if eet then t else f.etime
          ealarm := if !eet && eea then alarm else f.ealarm
          state := if eet then .adjustTimeMinutes else if eea then .adjustAlarmMinutes
            else if activeAfter fire f.active then .controlAlarm else .showTime } := by
  unfold showTimeFsm
  generalize activeAfter fire f.active = a
  cases eet <;> cases eea <;> cases a <;> rfl

/-- The clock engine after a `ShowTime` step (R114). -/
theorem showTimeClk_eq (active : Bool) (x : Clk) :
    showTimeClk active x = { x with en := active || x.en } := by
  cases active <;> rfl

@[simp] theorem storeBuffer_armed (kind : EditKind) (t : BcdTime) (f : Fsm) :
    (storeBuffer kind t f).armed = f.armed := by cases kind <;> rfl

@[simp] theorem storeBuffer_active (kind : EditKind) (t : BcdTime) (f : Fsm) :
    (storeBuffer kind t f).active = f.active := by cases kind <;> rfl

@[simp] theorem storeBuffer_alarmOut (kind : EditKind) (t : BcdTime) (f : Fsm) :
    (storeBuffer kind t f).alarmOut = f.alarmOut := by cases kind <;> rfl

@[simp] theorem storeBuffer_state (kind : EditKind) (t : BcdTime) (f : Fsm) :
    (storeBuffer kind t f).state = f.state := by cases kind <;> rfl

/-- What an adjust step keeps of the coordinator's registers (R115, R123). -/
theorem adjustFsm_frame (kind : EditKind) (field : EditField) (fire : Buttons) (xa : Bool)
    (t : BcdTime) (f : Fsm) :
    (adjustFsm kind field fire xa t f).armed = f.armed ∧
      (adjustFsm kind field fire xa t f).active = f.active ∧
        (adjustFsm kind field fire xa t f).alarmOut = f.alarmOut := by
  unfold adjustFsm
  split
  · exact ⟨rfl, rfl, rfl⟩
  · split <;> simp

/-- An adjust step leaves the clock engine alone, or commits the stored buffer (R115). -/
theorem adjustClk_cases (kind : EditKind) (field : EditField) (fire : Buttons) (xa : Bool)
    (t : BcdTime) (x : Clk) :
    adjustClk kind field fire xa t x = x ∨
      (discards fire xa = false ∧ field = .hours ∧ fire.acc = true) ∧
        adjustClk kind field fire xa t x = commit kind (storedBuffer field fire t) x := by
  unfold adjustClk
  cases h : discards fire xa
  · cases hc : commits field fire
    · exact .inl rfl
    · refine .inr ⟨⟨rfl, ?_⟩, rfl⟩
      cases field
      · cases hc
      · exact ⟨rfl, hc⟩
  · exact .inl rfl

/-- The buffer an adjust step stores is valid if it was (R124). -/
theorem valid_storedBuffer {t : BcdTime} (field : EditField) (fire : Buttons)
    (h : validBcd t = true) : validBcd (storedBuffer field fire t) = true := by
  unfold storedBuffer
  cases commits field fire
  · exact valid_editedBuffer field fire h
  · exact valid_zeroSeconds (valid_editedBuffer field fire h)

theorem commit_acc (kind : EditKind) (t : BcdTime) (x : Clk) : (commit kind t x).acc = x.acc := by
  cases kind
  · rcases clkSetTime_cases t x with ⟨-, h⟩ | ⟨-, h⟩ <;> simp only [commit, h]
  · rfl

theorem adjustClk_acc (kind : EditKind) (field : EditField) (fire : Buttons) (xa : Bool)
    (t : BcdTime) (x : Clk) : (adjustClk kind field fire xa t x).acc = x.acc := by
  rcases adjustClk_cases kind field fire xa t x with h | ⟨-, h⟩ <;> rw [h]
  exact commit_acc _ _ _

/-- The clock engine after a `ControlAlarm` step: the evaluation, a snooze, a one-day postponement
(R120). -/
theorem controlAlarmClk_frame (fire : Buttons) (x : Clk) :
    (controlAlarmClk fire x).cur = x.cur ∧ (controlAlarmClk fire x).acc = x.acc ∧
      (controlAlarmClk fire x).valid = x.valid ∧ (controlAlarmClk fire x).alarm = x.alarm ∧
        (controlAlarmClk fire x).en = x.en := by
  have h := clkAlarmIsRinging_frame x
  unfold controlAlarmClk
  cases fire.acc <;> cases fire.can <;> exact h

/-- What a coordinator step never writes: the configuration, the driver, the edge detectors, the
records, the requests, the cursor and the accumulator (R124). -/
theorem fsmStep_frame (btn : Buttons) (eet eea xa : Bool) (s : State) :
    fsmStep btn eet eea xa s =
        { s with clk := (fsmStep btn eet eea xa s).clk, dsp := (fsmStep btn eet eea xa s).dsp,
                 fsm := (fsmStep btn eet eea xa s).fsm } ∧
      (fsmStep btn eet eea xa s).clk.acc = s.clk.acc ∧
        (fsmStep btn eet eea xa s).dsp.cur = s.dsp.cur ∧
          (fsmStep btn eet eea xa s).fsm.armed = latches btn (testedSet s) s.fsm.armed := by
  have adjust : ∀ (kind : EditKind) (field : EditField) (fire : Buttons) (u : State),
      stepAdjust kind field fire xa u =
          { u with clk := (stepAdjust kind field fire xa u).clk,
                   dsp := (stepAdjust kind field fire xa u).dsp,
                   fsm := (stepAdjust kind field fire xa u).fsm } ∧
        (stepAdjust kind field fire xa u).clk.acc = u.clk.acc ∧
          (stepAdjust kind field fire xa u).dsp.cur = u.dsp.cur ∧
            (stepAdjust kind field fire xa u).fsm.armed = u.fsm.armed :=
    fun kind field fire u =>
      ⟨rfl, adjustClk_acc .., renderAdjust_cur .., (adjustFsm_frame ..).1⟩
  unfold fsmStep stepInState
  simp only [State.withFsm_fsm]
  split
  · refine ⟨rfl, ?_, renderShowTime_cur _ _ _ _ _, ?_⟩
    · simp only [stepShowTime, showTimeClk_eq, State.withFsm_clk, State.withClk_clk]
    · simp only [stepShowTime, showTimeFsm_eq, State.withFsm_fsm]
  · exact adjust ..
  · exact adjust ..
  · exact adjust ..
  · exact adjust ..
  · exact ⟨rfl, (controlAlarmClk_frame ..).2.1, rfl, rfl⟩

section

variable (kind : EditKind) (field : EditField) (fire : Buttons) (xa : Bool) (s : State)

@[simp] theorem stepAdjust_clk : (stepAdjust kind field fire xa s).clk =
    adjustClk kind field fire xa (editBuffer kind s.fsm) s.clk := rfl
@[simp] theorem stepAdjust_dsp : (stepAdjust kind field fire xa s).dsp =
    renderAdjust s.cfg kind field (editBuffer kind s.fsm) s.dsp := rfl
@[simp] theorem stepAdjust_fsm : (stepAdjust kind field fire xa s).fsm =
    adjustFsm kind field fire xa (editBuffer kind s.fsm) s.fsm := rfl

end

/-- The adjust state of a buffer and a field (R115). -/
def editState : EditKind → EditField → FsmState
  | .time, .minutes => .adjustTimeMinutes
  | .time, .hours => .adjustTimeHours
  | .alarm, .minutes => .adjustAlarmMinutes
  | .alarm, .hours => .adjustAlarmHours

/-- The coordinator's registers when the state's own part of a step begins: the latches written. -/
def latched (btn : Buttons) (s : State) : Fsm :=
  { s.fsm with armed := latches btn (testedSet s) s.fsm.armed }

@[simp] theorem editBuffer_latched (kind : EditKind) (btn : Buttons) (s : State) :
    editBuffer kind (latched btn s) = editBuffer kind s.fsm := by cases kind <;> rfl

/-- A step in `ShowTime` (R114). -/
theorem fsmStep_showTime {s : State} (h : s.fsm.state = .showTime) (btn : Buttons)
    (eet eea xa : Bool) :
    fsmStep btn eet eea xa s =
      stepShowTime (firing btn (testedSet s) s.fsm.armed) eet eea (s.withFsm (latched btn s)) := by
  simp only [fsmStep, stepInState, State.withFsm_fsm, h, latched]

/-- A step in `ControlAlarm` (R120). -/
theorem fsmStep_controlAlarm {s : State} (h : s.fsm.state = .controlAlarm) (btn : Buttons)
    (eet eea xa : Bool) :
    fsmStep btn eet eea xa s =
      stepControlAlarm (firing btn (testedSet s) s.fsm.armed) (s.withFsm (latched btn s)) := by
  simp only [fsmStep, stepInState, State.withFsm_fsm, h, latched]

/-- A step in an adjust state (R115). -/
theorem fsmStep_adjust {s : State} {kind : EditKind} {field : EditField}
    (h : s.fsm.state = editState kind field) (btn : Buttons) (eet eea xa : Bool) :
    fsmStep btn eet eea xa s =
      stepAdjust kind field (firing btn (testedSet s) s.fsm.armed) xa
        (s.withFsm (latched btn s)) := by
  cases kind <;> cases field <;> rw [editState] at h <;>
    simp only [fsmStep, stepInState, State.withFsm_fsm, h, latched]

/-- What a step does to each unit, in whichever state it runs (R108). -/
theorem fsmStep_cases (btn : Buttons) (eet eea xa : Bool) (s : State) :
    let fire := firing btn (testedSet s) s.fsm.armed
    let t := fsmStep btn eet eea xa s
    (s.fsm.state = .showTime ∧
        t.clk = showTimeClk (activeAfter fire s.fsm.active) s.clk ∧
        t.dsp = renderShowTime s.cfg s.clk.cur s.clk.valid s.fsm.active s.dsp ∧
        t.fsm = showTimeFsm s.clk.cur s.clk.alarm fire eet eea (latched btn s)) ∨
      (s.fsm.state = .controlAlarm ∧
        t.clk = controlAlarmClk fire s.clk ∧ t.dsp = s.dsp ∧
        t.fsm = { latched btn s with
          alarmOut := (clkAlarmIsRinging s.clk).ring && s.fsm.active && !fire.acc && !fire.can
          state := .showTime }) ∨
      ∃ kind field, s.fsm.state = editState kind field ∧
        t.clk = adjustClk kind field fire xa (editBuffer kind s.fsm) s.clk ∧
        t.dsp = renderAdjust s.cfg kind field (editBuffer kind s.fsm) s.dsp ∧
        t.fsm = adjustFsm kind field fire xa (editBuffer kind s.fsm) (latched btn s) := by
  intro fire t
  by_cases hs : s.fsm.state = .showTime
  · exact .inl ⟨hs, by rw [show t = _ from fsmStep_showTime hs btn eet eea xa]; exact ⟨rfl, rfl, rfl⟩⟩
  by_cases hc : s.fsm.state = .controlAlarm
  · exact .inr (.inl
      ⟨hc, by rw [show t = _ from fsmStep_controlAlarm hc btn eet eea xa]; exact ⟨rfl, rfl, rfl⟩⟩)
  have ⟨kind, field, h⟩ : ∃ kind field, s.fsm.state = editState kind field := by
    cases h : s.fsm.state with
    | showTime => exact absurd h hs
    | controlAlarm => exact absurd h hc
    | adjustTimeMinutes => exact ⟨.time, .minutes, rfl⟩
    | adjustTimeHours => exact ⟨.time, .hours, rfl⟩
    | adjustAlarmMinutes => exact ⟨.alarm, .minutes, rfl⟩
    | adjustAlarmHours => exact ⟨.alarm, .hours, rfl⟩
  refine .inr (.inr ⟨kind, field, h, ?_⟩)
  rw [show t = _ from fsmStep_adjust h btn eet eea xa]
  simp [fire]

end Sys2Proof.Machine
end

