-- ==== Sys2Proof/Laws/Encoding.lean ====
section
/-! SUPPORT. Words as numbers: what each packing of spec/30_encoding.md is as a sum of its fields, and
what the decoder's field reads are as quotients and remainders. With these a fact about an encoding is
linear arithmetic over the fields. -/

namespace Sys2Proof

/-- A joined bit vector as a number. -/
theorem toNat_join {n m : Nat} (x : BitVec n) (y : BitVec m) :
    (x ++ y).toNat = x.toNat * 2 ^ m + y.toNat := by
  rw [BitVec.toNat_append, ← Nat.shiftLeft_add_eq_or_of_lt y.isLt, Nat.shiftLeft_eq]

/-- A field of a bit vector as a number. -/
theorem field_toNat {n : Nat} (w : BitVec n) (lo len : Nat) :
    (w.extractLsb' lo len).toNat = w.toNat / 2 ^ lo % 2 ^ len := by
  rw [BitVec.extractLsb'_toNat, Nat.shiftRight_eq_div_pow]

/-- A bit of a bit vector as a number. -/
theorem getLsbD_eq_decide {n : Nat} (w : BitVec n) (k : Nat) :
    w.getLsbD k = decide (w.toNat / 2 ^ k % 2 = 1) := by
  rw [BitVec.getLsbD, Nat.testBit_eq_decide_div_mod_eq]

theorem flag_eq_decide (w : Word64) (k : Nat) :
    flag w k = decide (w.toNat / 2 ^ k % 2 = 1) := getLsbD_eq_decide w k

/-- The reserved bits of a field are clear exactly when the field is 0. -/
theorem clear_eq_decide (w : Word64) (lo len : Nat) :
    clear w lo len = decide (w.toNat / 2 ^ lo % 2 ^ len = 0) := by
  rw [clear, Bool.eq_iff_iff, beq_iff_eq, decide_eq_true_iff, ← BitVec.toNat_inj, field_toNat]
  rfl

theorem toNat_ofBool (b : Bool) : (BitVec.ofBool b).toNat = b.toNat := BitVec.toNat_ofBool b

/-- R50. -/
theorem packTime_toNat (t : BcdTime) :
    (packTime t).toNat =
      t.h10.toNat * 2 ^ 20 + t.h1.toNat * 2 ^ 16 + t.m10.toNat * 2 ^ 12 + t.m1.toNat * 2 ^ 8 +
        t.s10.toNat * 2 ^ 4 + t.s1.toNat := by
  simp only [packTime]
  rw [toNat_join (n := 20) (m := 4), toNat_join (n := 16) (m := 4), toNat_join (n := 12) (m := 4),
    toNat_join (n := 8) (m := 4), toNat_join (n := 4) (m := 4)]
  omega

/-- R60. -/
theorem packValues_toNat (v : Vector Nibble 8) :
    (packValues v).toNat =
      v[7].toNat * 2 ^ 28 + v[6].toNat * 2 ^ 24 + v[5].toNat * 2 ^ 20 + v[4].toNat * 2 ^ 16 +
        v[3].toNat * 2 ^ 12 + v[2].toNat * 2 ^ 8 + v[1].toNat * 2 ^ 4 + v[0].toNat := by
  simp only [packValues]
  rw [toNat_join (n := 28) (m := 4), toNat_join (n := 24) (m := 4), toNat_join (n := 20) (m := 4),
    toNat_join (n := 16) (m := 4), toNat_join (n := 12) (m := 4), toNat_join (n := 8) (m := 4),
    toNat_join (n := 4) (m := 4)]
  omega

/-- R64. -/
theorem packButtons_toNat (b : Buttons) :
    (packButtons b).toNat = b.dec.toNat * 8 + b.inc.toNat * 4 + b.can.toNat * 2 + b.acc.toNat := by
  simp only [packButtons]
  rw [toNat_join (n := 3) (m := 1), toNat_join (n := 2) (m := 1), toNat_join (n := 1) (m := 1)]
  simp only [toNat_ofBool]
  omega

/-- A command's word is its opcode byte above its payload (R51). -/
theorem encode_toNat (i : Instr) :
    (encode i).toNat = i.opcode.toNat * 2 ^ 56 + i.payload.toNat := toNat_join i.opcode i.payload

theorem opcodeOf_toNat (w : Word64) : (opcodeOf w).toNat = w.toNat / 2 ^ 56 := by
  rw [opcodeOf, field_toNat]
  have := w.isLt
  omega

theorem payload_clkSetTime (t : BcdTime) :
    (Instr.clkSetTime t).payload.toNat = (packTime t).toNat := by
  have := toNat_join (0#32) (packTime t); simpa [Instr.payload] using this

theorem payload_clkSetAlarm (t : BcdTime) :
    (Instr.clkSetAlarm t).payload.toNat = (packTime t).toNat := payload_clkSetTime t

theorem payload_bcdIncMin (t : BcdTime) :
    (Instr.bcdIncMin t).payload.toNat = (packTime t).toNat := payload_clkSetTime t

theorem payload_bcdDecMin (t : BcdTime) :
    (Instr.bcdDecMin t).payload.toNat = (packTime t).toNat := payload_clkSetTime t

theorem payload_bcdIncHr (t : BcdTime) :
    (Instr.bcdIncHr t).payload.toNat = (packTime t).toNat := payload_clkSetTime t

theorem payload_bcdDecHr (t : BcdTime) :
    (Instr.bcdDecHr t).payload.toNat = (packTime t).toNat := payload_clkSetTime t

theorem payload_clkSetAlarmEnabled (b : Bool) :
    (Instr.clkSetAlarmEnabled b).payload.toNat = b.toNat := by
  have := toNat_join (0#55) (BitVec.ofBool b); simpa [Instr.payload] using this

theorem payload_clkPostponeMinutes (n : BitVec 8) :
    (Instr.clkPostponeMinutes n).payload.toNat = n.toNat := by
  have := toNat_join (0#48) n; simpa [Instr.payload] using this

theorem payload_dspWriteBcd (size : BitVec 4) (v : Vector Nibble 8) :
    (Instr.dspWriteBcd size v).payload.toNat = size.toNat * 2 ^ 32 + (packValues v).toNat := by
  have := toNat_join ((0#20 ++ size : BitVec 24)) (packValues v)
  have h := toNat_join (0#20) size
  simp only [Instr.payload]
  rw [toNat_join (n := 24) (m := 32), toNat_join (n := 20) (m := 4)]
  simp

theorem payload_dspCfgDigitBlink (first last : BitVec 4) (divisor : BitVec 16) :
    (Instr.dspCfgDigitBlink first last divisor).payload.toNat =
      first.toNat * 2 ^ 20 + last.toNat * 2 ^ 16 + divisor.toNat := by
  simp only [Instr.payload]
  rw [toNat_join (n := 40) (m := 16), toNat_join (n := 36) (m := 4), toNat_join (n := 32) (m := 4)]
  simp
  omega

theorem payload_dspCfgDotBlink (digit : BitVec 4) (divisor : BitVec 16) (en : Bool) :
    (Instr.dspCfgDotBlink digit divisor en).payload.toNat =
      digit.toNat * 2 ^ 20 + en.toNat * 2 ^ 16 + divisor.toNat := by
  simp only [Instr.payload]
  rw [toNat_join (n := 40) (m := 16), toNat_join (n := 39) (m := 1), toNat_join (n := 36) (m := 3),
    toNat_join (n := 32) (m := 4), toNat_ofBool]
  simp
  omega

theorem payload_edgSample (idx : BitVec 4) (smp : Bool) :
    (Instr.edgSample idx smp).payload.toNat = idx.toNat * 2 ^ 16 + smp.toNat := by
  simp only [Instr.payload]
  rw [toNat_join (n := 55) (m := 1), toNat_join (n := 40) (m := 15), toNat_join (n := 36) (m := 4),
    toNat_ofBool]
  simp
  omega

theorem payload_fsmStep (btn : Buttons) (eet eea xa : Bool) :
    (Instr.fsmStep btn eet eea xa).payload.toNat =
      xa.toNat * 2 ^ 10 + eea.toNat * 2 ^ 9 + eet.toNat * 2 ^ 8 + (packButtons btn).toNat := by
  simp only [Instr.payload]
  rw [toNat_join (n := 52) (m := 4), toNat_join (n := 48) (m := 4), toNat_join (n := 47) (m := 1),
    toNat_join (n := 46) (m := 1), toNat_join (n := 45) (m := 1), toNat_ofBool, toNat_ofBool,
    toNat_ofBool]
  simp
  omega

/-- A word whose low 24 bits are those of `t` unpacks to `t` (R50). -/
theorem unpackTime_eq {w : Word64} {t : BcdTime} (h : w.toNat % 2 ^ 24 = (packTime t).toNat) :
    unpackTime w = t := by
  rw [packTime_toNat] at h
  cases t
  simp only [unpackTime, BcdTime.mk.injEq, ← BitVec.toNat_inj, field_toNat]
  simp only at h
  omega

/-- Unpacking loses no bit of the field (R50). -/
theorem packTime_unpackTime (w : Word64) : (packTime (unpackTime w)).toNat = w.toNat % 2 ^ 24 := by
  rw [packTime_toNat]
  simp only [unpackTime, field_toNat]
  omega

/-- A word whose low 32 bits are those of `v` unpacks to `v` (R60). -/
theorem unpackValues_eq {w : Word64} {v : Vector Nibble 8}
    (h : w.toNat % 2 ^ 32 = (packValues v).toNat) : unpackValues w = v := by
  rw [packValues_toNat] at h
  have h7 := v[7].isLt
  have h6 := v[6].isLt
  have h5 := v[5].isLt
  have h4 := v[4].isLt
  have h3 := v[3].isLt
  have h2 := v[2].isLt
  have h1 := v[1].isLt
  have h0 := v[0].isLt
  apply Vector.ext
  intro i hi
  apply BitVec.eq_of_toNat_eq
  match i, hi with
  | 0, _ => exact (field_toNat w 0 4).trans (by omega)
  | 1, _ => exact (field_toNat w 4 4).trans (by omega)
  | 2, _ => exact (field_toNat w 8 4).trans (by omega)
  | 3, _ => exact (field_toNat w 12 4).trans (by omega)
  | 4, _ => exact (field_toNat w 16 4).trans (by omega)
  | 5, _ => exact (field_toNat w 20 4).trans (by omega)
  | 6, _ => exact (field_toNat w 24 4).trans (by omega)
  | 7, _ => exact (field_toNat w 28 4).trans (by omega)

/-- Unpacking loses no bit of the eight values (R60). -/
theorem packValues_unpackValues (w : Word64) :
    (packValues (unpackValues w)).toNat = w.toNat % 2 ^ 32 := by
  rw [packValues_toNat]
  simp [unpackValues]
  omega

/-- A word whose low four bits are those of `b` unpacks to `b` (R64). -/
theorem unpackButtons_eq {w : Word64} {b : Buttons}
    (h : w.toNat % 2 ^ 4 = (packButtons b).toNat) : unpackButtons w = b := by
  rw [packButtons_toNat] at h
  rcases b with ⟨a, c, i, d⟩
  simp only [unpackButtons, Buttons.mk.injEq, flag_eq_decide]
  cases a <;> cases c <;> cases i <;> cases d <;> simp_all <;> omega

/-- A boolean read from a bit, as a number. -/
theorem toNat_flag (w : Word64) (k : Nat) : (flag w k).toNat = w.toNat / 2 ^ k % 2 := by
  rw [flag_eq_decide]
  rcases Nat.mod_two_eq_zero_or_one (w.toNat / 2 ^ k) with h | h <;> simp [h]

/-- Unpacking loses none of the four bits (R64). -/
theorem packButtons_unpackButtons (w : Word64) :
    (packButtons (unpackButtons w)).toNat = w.toNat % 2 ^ 4 := by
  rw [packButtons_toNat]
  simp only [unpackButtons, toNat_flag]
  omega

end Sys2Proof
end

