-- ==== Sys2Proof/Laws/Agents.lean ====
section
/-! SUPPORT. The agents and the step: which request a step takes (R44, R131), and what serving it is. -/

namespace Sys2Proof.Machine

open Sys2Proof

/-- A bind that answers `next` had a next state to go on from. -/
theorem andThen_next {r : Result} {f : State → Result} {t : State} (h : andThen r f = .next t) :
    ∃ s, r = .next s ∧ f s = .next t := by
  cases r with
  | next s => exact ⟨s, rfl, h⟩
  | fault x => cases h
  | refused x => cases h

@[simp] theorem andThen_of_next (s : State) (f : State → Result) : andThen (.next s) f = f s := rfl

@[simp] theorem nextRequest_nil : nextRequest [] = (none, []) := rfl

/-- A reset is taken first (log 4). -/
theorem nextRequest_reset {p : Ports} {x : Straps} (l : List Ports) (h : p.rst = some x) :
    nextRequest (p :: l) = (some (.reset x), remaining { p with rst := none } l) := by
  simp [nextRequest, h]

/-- Without a reset the tick is taken first (R44). -/
theorem nextRequest_tick {p : Ports} (l : List Ports) (h : p.rst = none) (ht : p.tick = true) :
    nextRequest (p :: l) = (some .tick, remaining { p with tick := false } l) := by
  simp [nextRequest, h, ht]

/-- Then the event (R44). -/
theorem nextRequest_event {p : Ports} {e : Event} (l : List Ports) (h : p.rst = none)
    (ht : p.tick = false) (he : p.evt = some e) :
    nextRequest (p :: l) = (some (.event e), remaining { p with evt := none } l) := by
  simp [nextRequest, h, ht, he]

/-- The command port comes last (R44). -/
theorem nextRequest_command {p : Ports} {w : Word64} (l : List Ports) (h : p.rst = none)
    (ht : p.tick = false) (he : p.evt = none) (hc : p.cmd = some w) :
    nextRequest (p :: l) = (some (.command w), l) := by
  simp [nextRequest, h, ht, he, hc]

/-- A cycle without a request is passed over. -/
theorem nextRequest_none {p : Ports} (l : List Ports) (h : p.rst = none) (ht : p.tick = false)
    (he : p.evt = none) (hc : p.cmd = none) : nextRequest (p :: l) = (none, l) := by
  simp [nextRequest, h, ht, he, hc]

/-- A step that has a request serves it. -/
theorem step_of_request {s : State} {r : Request} {l : List Ports}
    (h : nextRequest s.inbox = (some r, l)) : step s = serve r (s.withInbox l) := by
  simp only [step, advance, h]

/-- A step without a request passes over an empty cycle. -/
theorem step_of_none {s : State} {l : List Ports} (h : nextRequest s.inbox = (none, l)) :
    step s = .next (s.withInbox l) := by
  simp only [step, advance, h]

theorem runWord_ok {a : Agent} {w : Word64} {i : Instr} (s : State) (h : decode w = .ok i) :
    runWord a w s = andThen (exec i s) fun t => .next (deliver a t) := by
  simp only [runWord, h]

theorem runWord_error {a : Agent} {w : Word64} {e : DecodeError} (s : State)
    (h : decode w = .error e) : runWord a w s = .next (deliver a (illegal s)) := by
  simp only [runWord, h]

theorem stepInState_withInbox (fire : Buttons) (eet eea xa : Bool) (s : State) (l : List Ports) :
    stepInState fire eet eea xa (s.withInbox l) = (stepInState fire eet eea xa s).withInbox l := by
  unfold stepInState
  rw [State.withInbox_fsm]
  split <;>
    simp only [stepShowTime, stepAdjust, stepControlAlarm, State.withDsp, State.withClk,
      State.withFsm, State.withInbox]

theorem fsmStep_withInbox (btn : Buttons) (eet eea xa : Bool) (s : State) (l : List Ports) :
    fsmStep btn eet eea xa (s.withInbox l) = (fsmStep btn eet eea xa s).withInbox l := by
  unfold fsmStep
  rw [← stepInState_withInbox]
  rfl

/-- What a command does does not depend on the requests still to come, and it keeps them (R48). -/
theorem exec_withInbox (i : Instr) (s : State) (l : List Ports) :
    exec i (s.withInbox l) = andThen (exec i s) fun t => .next (t.withInbox l) := by
  cases i <;> try rfl
  case edgSample n b =>
    simp only [exec, execEdgSample, State.withInbox_edg]
    split <;> rfl
  case fsmStep btn eet eea xa =>
    by_cases h : s.digits < 4
    · rw [exec_fsmStep_refused h, exec_fsmStep_refused (s := s.withInbox l) h]
      rfl
    · rw [exec_fsmStep (Nat.not_lt.1 h), exec_fsmStep (s := s.withInbox l) (Nat.not_lt.1 h),
        fsmStep_withInbox]
      rfl

/-- A 64-bit word survives the numbering of the opcode table. -/
theorem ofNat_toNat_mod (w : Word64) : BitVec.ofNat 64 (w.toNat % 2 ^ 64) = w := by
  rw [Nat.mod_eq_of_lt w.isLt, BitVec.ofNat_toNat, BitVec.setWidth_eq]

/-- A placed command word is what the next step takes (log 3). -/
theorem step_withFetchWord (s : State) (nbits w : Nat) :
    step (s.withFetchWord nbits w) = runWord .host (BitVec.ofNat 64 (w % 2 ^ nbits)) s := rfl

/-- The word of a delivered event as a number (R64). -/
theorem eventWord_toNat (e : Event) :
    (eventWord e).toNat = 0x40 * 2 ^ 56 + e.cond.toNat * 2 ^ 8 + e.btn.toNat := by
  simp only [eventWord]
  rw [toNat_join (n := 60) (m := 4), toNat_join (n := 56) (m := 4), toNat_join (n := 53) (m := 3),
    toNat_join (n := 8) (m := 45)]
  simp
  omega

/-- What a delivery keeps: everything but the agent's record. -/
theorem deliver_eq (a : Agent) (s : State) :
    deliver a s = { s with rsp := (deliver a s).rsp, tickRsp := (deliver a s).tickRsp,
                           fsmRsp := (deliver a s).fsmRsp } := by
  cases a <;> rfl

/-- No command writes the requests. -/
theorem exec_inbox {i : Instr} {s t : State} (h : exec i s = .next t) : t.inbox = s.inbox := by
  have e : (Host.Outcome.next t : Result) = .next (t.withInbox s.inbox) := by
    have e := exec_withInbox i s s.inbox
    rwa [show s.withInbox s.inbox = s from rfl, h] at e
  have ht : t = t.withInbox s.inbox := Host.Outcome.next.inj e
  rw [ht, State.withInbox_inbox]

/-- A step that answers `next` passed over an idle cycle, or served a reset, a tick event, a legal word
or an illegal one; `l` is what is left of the requests. -/
theorem step_cases {s t : State} (h : step s = .next t) :
    ∃ o l, nextRequest s.inbox = (o, l) ∧
      ((o = none ∧ t = s.withInbox l) ∨
      (∃ p ok, o = some (.reset p) ∧ t = (State.resetWith (configOf p ok)).withInbox l) ∨
      (∃ u v, exec .clkTick (s.withInbox l) = .next u ∧
        exec .dspRefresh (deliver .tick u) = .next v ∧ t = deliver .tick v) ∨
      (∃ a i u, exec i (s.withInbox l) = .next u ∧ t = deliver a u) ∨
      ∃ a, t = deliver a (illegal (s.withInbox l))) := by
  have word : ∀ {a : Agent} {w : Word64} {l : List Ports}, runWord a w (s.withInbox l) = .next t →
      (∃ a i u, exec i (s.withInbox l) = .next u ∧ t = deliver a u) ∨
        ∃ a, t = deliver a (illegal (s.withInbox l)) := by
    intro a w l hw
    unfold runWord at hw
    split at hw
    · obtain ⟨u, hu, hv⟩ := andThen_next hw
      exact .inl ⟨a, _, u, hu, (Host.Outcome.next.inj hv).symm⟩
    · exact .inr ⟨a, (Host.Outcome.next.inj hw).symm⟩
  unfold step advance at h
  split at h
  · rename_i r l hr
    refine ⟨some r, l, hr, .inr ?_⟩
    cases r with
    | reset p =>
      simp only [serve, boot] at h
      split at h
      · exact .inl ⟨p, ‹_›, rfl, (Host.Outcome.next.inj h).symm⟩
      · cases h
    | tick =>
      simp only [serve, tickEvent] at h
      obtain ⟨u, hu, h⟩ := andThen_next h
      obtain ⟨v, hv, h⟩ := andThen_next h
      exact .inr (.inl ⟨u, v, hu, hv, (Host.Outcome.next.inj h).symm⟩)
    | event e => exact .inr (.inr (word h))
    | command w => exact .inr (.inr (word h))
  · exact ⟨none, _, ‹_›, .inl ⟨rfl, (Host.Outcome.next.inj h).symm⟩⟩

/-- A step leaves the requests that it did not take. -/
theorem step_inbox {s t : State} (h : step s = .next t) : t.inbox = (nextRequest s.inbox).2 := by
  obtain ⟨o, l, hr, h | ⟨p, ok, -, h⟩ | ⟨u, v, hu, hv, h⟩ | ⟨a, i, u, hu, h⟩ | ⟨a, h⟩⟩ := step_cases h
  · rw [h.2, hr, State.withInbox_inbox]
  · rw [h, hr, State.withInbox_inbox]
  · rw [h, hr, deliver_inbox, exec_inbox hv, deliver_inbox, exec_inbox hu, State.withInbox_inbox]
  · rw [h, hr, deliver_inbox, exec_inbox hu, State.withInbox_inbox]
  · rw [h, hr, deliver_inbox, illegal_inbox, State.withInbox_inbox]

end Sys2Proof.Machine
end

