-- ==== Sys2Proof/Laws/PerInstr.lean ====
section
/-! SUPPORT. Statements made per instruction: one lemma per constructor of `Instr`. -/

namespace Sys2Proof.Laws

open Sys2Proof

/-- The opcode byte of a command's word is the opcode of its row in the table (R51, R52). -/
def EncodedOpcode.Statement (i : Instr) : Prop := opcodeOf (encode i) = i.opcode

theorem encodedOpcode (i : Instr) : EncodedOpcode.Statement i := by
  apply BitVec.eq_of_toNat_eq
  have := i.payload.isLt
  rw [opcodeOf_toNat, encode_toNat]
  omega

theorem EncodedOpcode.clkGetTime : EncodedOpcode.Statement .clkGetTime := encodedOpcode _

theorem EncodedOpcode.clkSetTime (t : BcdTime) : EncodedOpcode.Statement (.clkSetTime t) := encodedOpcode _

theorem EncodedOpcode.clkTick : EncodedOpcode.Statement .clkTick := encodedOpcode _

theorem EncodedOpcode.clkSetAlarm (t : BcdTime) : EncodedOpcode.Statement (.clkSetAlarm t) := encodedOpcode _

theorem EncodedOpcode.clkGetAlarm : EncodedOpcode.Statement .clkGetAlarm := encodedOpcode _

theorem EncodedOpcode.clkAlarmIsRinging : EncodedOpcode.Statement .clkAlarmIsRinging := encodedOpcode _

theorem EncodedOpcode.clkSetAlarmEnabled (b : Bool) :
    EncodedOpcode.Statement (.clkSetAlarmEnabled b) := encodedOpcode _

theorem EncodedOpcode.clkPostponeAlarm : EncodedOpcode.Statement .clkPostponeAlarm := encodedOpcode _

theorem EncodedOpcode.clkPostponeMinutes (n : BitVec 8) :
    EncodedOpcode.Statement (.clkPostponeMinutes n) := encodedOpcode _

theorem EncodedOpcode.clkPostponeOneDay : EncodedOpcode.Statement .clkPostponeOneDay := encodedOpcode _

theorem EncodedOpcode.clkResetAlarm : EncodedOpcode.Statement .clkResetAlarm := encodedOpcode _

theorem EncodedOpcode.bcdIncMin (t : BcdTime) : EncodedOpcode.Statement (.bcdIncMin t) := encodedOpcode _

theorem EncodedOpcode.bcdDecMin (t : BcdTime) : EncodedOpcode.Statement (.bcdDecMin t) := encodedOpcode _

theorem EncodedOpcode.bcdIncHr (t : BcdTime) : EncodedOpcode.Statement (.bcdIncHr t) := encodedOpcode _

theorem EncodedOpcode.bcdDecHr (t : BcdTime) : EncodedOpcode.Statement (.bcdDecHr t) := encodedOpcode _

theorem EncodedOpcode.dspWriteBcd (size : BitVec 4) (v : Vector Nibble 8) :
    EncodedOpcode.Statement (.dspWriteBcd size v) := encodedOpcode _

theorem EncodedOpcode.dspRefresh : EncodedOpcode.Statement .dspRefresh := encodedOpcode _

theorem EncodedOpcode.dspCfgDigitBlink (first : BitVec 4) (last : BitVec 4) (divisor : BitVec 16) :
    EncodedOpcode.Statement (.dspCfgDigitBlink first last divisor) := encodedOpcode _

theorem EncodedOpcode.dspCfgDotBlink (digit : BitVec 4) (divisor : BitVec 16) (en : Bool) :
    EncodedOpcode.Statement (.dspCfgDotBlink digit divisor en) := encodedOpcode _

theorem EncodedOpcode.edgSample (idx : BitVec 4) (smp : Bool) :
    EncodedOpcode.Statement (.edgSample idx smp) := encodedOpcode _

theorem EncodedOpcode.fsmStep (btn : Buttons) (eet : Bool) (eea : Bool) (xa : Bool) :
    EncodedOpcode.Statement (.fsmStep btn eet eea xa) := encodedOpcode _

end Sys2Proof.Laws
end

