-- ==== Sys2Proof/Laws/Responses.lean ====
section
/-! SUPPORT. The response word as a number, and its fields read back (R54). -/

namespace Sys2Proof.Machine

open Sys2Proof

/-- The response word is the sum of its fields (R54). -/
theorem word_toNat (r : Response) :
    r.word.toNat =
      r.ill.toNat * 2 ^ 63 + r.aout.toNat * 2 ^ 52 + r.state.toNat * 2 ^ 48 + r.dig.toNat * 2 ^ 44 +
        r.edge.toNat * 2 ^ 40 + r.res.toNat * 2 ^ 32 + r.pat.toNat * 2 ^ 24 +
          (packTime r.time).toNat := by
  simp only [Response.word]
  rw [toNat_join (n := 40) (m := 24), toNat_join (n := 32) (m := 8), toNat_join (n := 31) (m := 1),
    toNat_join (n := 24) (m := 7), toNat_join (n := 22) (m := 2), toNat_join (n := 20) (m := 2),
    toNat_join (n := 17) (m := 3), toNat_join (n := 16) (m := 1), toNat_join (n := 13) (m := 3),
    toNat_join (n := 12) (m := 1), toNat_join (n := 11) (m := 1), toNat_join (n := 1) (m := 10)]
  simp only [toNat_ofBool, BitVec.toNat_ofNat]
  omega

/-- A bit with a given number. -/
theorem bit_eq {n : Nat} {w : BitVec n} {k : Nat} {b : Bool}
    (h : w.toNat / 2 ^ k % 2 = b.toNat) : w.getLsbD k = b := by
  rw [getLsbD_eq_decide, h]
  cases b <;> rfl

/-- A field with a given number. -/
theorem field_eq {n m : Nat} {w : BitVec n} {lo : Nat} {x : BitVec m}
    (h : w.toNat / 2 ^ lo % 2 ^ m = x.toNat) : w.extractLsb' lo m = x :=
  BitVec.eq_of_toNat_eq ((field_toNat w lo m).trans h)

/-- The `RES` bit of a response (R54). -/
@[simp] theorem resBit_word (r : Response) : resBit r.word = r.res := by
  have h := word_toNat r
  have := r.res.toNat_lt
  have := r.pat.isLt
  have := (packTime r.time).isLt
  exact bit_eq (by omega)

/-- The `EDGE` field of a response (R54). -/
@[simp] theorem edgeField_word (r : Response) : edgeField r.word = r.edge := by
  have h := word_toNat r
  have := r.edge.isLt
  have := r.res.toNat_lt
  have := r.pat.isLt
  have := (packTime r.time).isLt
  exact field_eq (by omega)

end Sys2Proof.Machine
end

