-- ==== Sys2Proof/Machine/Assembler.lean ====
section
/-! DEFINITION. The assembler text of a command (R68) and the pseudo-commands of the edge predicates
(R69). Text only: no step reads it. -/

namespace Sys2Proof.Machine

open Sys2Proof

/-- One hexadecimal digit. -/
def hexDigit (d : Nibble) : Char :=
  if d.toNat < 10 then Char.ofNat (48 + d.toNat) else Char.ofNat (55 + d.toNat)

/-- A number in decimal. -/
def decimal (n : Nat) : String := String.ofList (Nat.toDigits 10 n)

/-- `hh:mm:ss`, each digit one hexadecimal digit (R68). -/
def asmTime (t : BcdTime) : String :=
  String.ofList
    [hexDigit t.h10, hexDigit t.h1, ':', hexDigit t.m10, hexDigit t.m1, ':', hexDigit t.s10,
     hexDigit t.s1]

/-- Words between commas. -/
def commaList : List String → String
  | [] => ""
  | [x] => x
  | x :: rest => x ++ ", " ++ commaList rest

/-- A set of names between braces (R68); the braces are characters 123 and 125. -/
def asmSet (l : List String) : String :=
  String.ofList [Char.ofNat 123] ++ commaList l ++ String.ofList [Char.ofNat 125]

/-- The name, if it is in the set. -/
def named (present : Bool) (name : String) : List String := if present then [name] else []

/-- The buttons of a step by name. -/
def asmButtons (b : Buttons) : List String :=
  named b.acc "ACC" ++ named b.can "CAN" ++ named b.inc "INC" ++ named b.dec "DEC"

/-- The operands of a command as words (R68). A `DSP_WRITE_BCD` lists all eight values. -/
def asmOperands : Instr → List String
  | .clkGetTime => []
  | .clkSetTime t => [asmTime t]
  | .clkTick => []
  | .clkSetAlarm t => [asmTime t]
  | .clkGetAlarm => []
  | .clkAlarmIsRinging => []
  | .clkSetAlarmEnabled b => [decimal b.toNat]
  | .clkPostponeAlarm => []
  | .clkPostponeMinutes n => [decimal n.toNat]
  | .clkPostponeOneDay => []
  | .clkResetAlarm => []
  | .bcdIncMin t => [asmTime t]
  | .bcdDecMin t => [asmTime t]
  | .bcdIncHr t => [asmTime t]
  | .bcdDecHr t => [asmTime t]
  | .dspWriteBcd size v =>
    [decimal size.toNat, "[" ++ commaList (v.toList.map fun d => decimal d.toNat) ++ "]"]
  | .dspRefresh => []
  | .dspCfgDigitBlink first last divisor =>
    [decimal first.toNat, decimal last.toNat, decimal divisor.toNat]
  | .dspCfgDotBlink digit divisor en => [decimal digit.toNat, decimal divisor.toNat, decimal en.toNat]
  | .edgSample idx smp => [decimal idx.toNat, decimal smp.toNat]
  | .fsmStep btn eet eea xa =>
    [asmSet (asmButtons btn), asmSet (named eet "EET" ++ named eea "EEA" ++ named xa "XA")]

/-- The assembler text of a command (R68). -/
def asmText (i : Instr) : String :=
  match asmOperands i with
  | [] => i.mnemonic
  | x :: rest => i.mnemonic ++ " " ++ commaList (x :: rest)

end Sys2Proof.Machine
end

