-- ==== Sys2Proof/Tests/Slice0.lean ====
section
/-! SUPPORT. Tests. The expected words, responses and register values are those of spec/95_test_vectors.md
and of the rules each docstring names; `witness_<Name>` shows inputs that meet the hypotheses of
`Obligations.<Name>`. -/

namespace Sys2Proof.Tests

open Sys2Proof Sys2Proof.Machine Sys2Proof.Stated

/-! ## Helpers -/

/-- The parameters of the vectors (spec/95_test_vectors.md, Conventions), with `DIGITS = n`. -/
def configOfDigits (n : Positive 8) : Config where
  tps := { val := 2, nonzero := by decide }
  digits := n
  fsmBlinkDiv := { val := 2, nonzero := by decide }
  fsmDotDiv := { val := 3, nonzero := by decide }
  segTable := defaultSegTable

/-- The vectors' configuration: `DIGITS = 4`. -/
def config : Config := configOfDigits { val := 4, nonzero := by decide }

/-- The reset state of the vectors. -/
def start : State := State.resetWith config

/-- The reset state of a display of three digits. -/
def threeDigits : State := State.resetWith (configOfDigits { val := 3, nonzero := by decide })

/-- The time `hh:mm:ss` read from the number whose hexadecimal digits are the clock's. -/
def time (w : Word64) : BcdTime := unpackTime w

/-- `start` with other clock registers. -/
def clocked (f : Clk → Clk) : State := start.withClk (f start.clk)

/-- `start` with other coordinator registers. -/
def coordinated (f : Fsm → Fsm) (s : State) : State := s.withFsm (f s.fsm)

/-- The state after the HOST's word. -/
def after (w : Word64) (s : State) : Option State :=
  match step (s.withFetchWord 64 w.toNat) with
  | .next t => some t
  | .fault _ => none
  | .refused _ => none

/-- Something of the state after the HOST's word, with the response. -/
def see {α : Type} (f : State → α) (w : Word64) (s : State) : Option (Word64 × α) :=
  (after w s).map fun t => (t.rsp, f t)

/-- No button. -/
def released : Buttons := { acc := false, can := false, inc := false, dec := false }

/-- Accept. -/
def accepted : Buttons := { acc := true, can := false, inc := false, dec := false }

/-- Cancel. -/
def cancelled : Buttons := { acc := false, can := true, inc := false, dec := false }

/-- Straps with the default segment table. -/
def straps (tps digits blinkDiv dotDiv : Nat) : Straps where
  tps := tps
  digits := digits
  fsmBlinkDiv := blinkDiv
  fsmDotDiv := dotDiv
  segTable := defaultSegTable

/-! ## Well-formedness (R9, R147): one ill-formed term for each check -/

theorem test_straps_legal : (straps 1 4 1 1).wellFormed = true := by decide

theorem test_straps_largest : (straps 65535 255 65535 65535).wellFormed = true := by decide

theorem test_straps_tps_zero : (straps 0 4 1 1).tpsOk = false := by decide

theorem test_straps_tps_large : (straps 65536 4 1 1).wellFormed = false := by decide

theorem test_straps_digits_zero : (straps 1 0 1 1).digitsOk = false := by decide

theorem test_straps_digits_large : (straps 1 256 1 1).wellFormed = false := by decide

theorem test_straps_three_digits : (straps 1 3 1 1).fsmFits = false := by decide

theorem test_straps_blink_zero : (straps 1 4 0 1).blinkDivOk = false := by decide

theorem test_straps_blink_large : (straps 1 4 65536 1).wellFormed = false := by decide

theorem test_straps_dot_zero : (straps 1 4 1 0).dotDivOk = false := by decide

theorem test_straps_dot_large : (straps 1 4 1 65536).wellFormed = false := by decide

/-! ## Decoding: the words of R68's examples and of spec/95_test_vectors.md -/

theorem test_decode_clkGetTime : decode 0x1000000000000000 = .ok .clkGetTime := by decide

theorem test_decode_clkSetTime : decode 0x1100000000235959 =
    .ok (.clkSetTime { h10 := 2, h1 := 3, m10 := 5, m1 := 9, s10 := 5, s1 := 9 }) := by decide

theorem test_decode_clkTick : decode 0x1200000000000000 = .ok .clkTick := by decide

theorem test_decode_clkSetAlarm : decode 0x13000000007A0000 =
    .ok (.clkSetAlarm { h10 := 7, h1 := 10, m10 := 0, m1 := 0, s10 := 0, s1 := 0 }) := by decide

theorem test_decode_clkGetAlarm : decode 0x1400000000000000 = .ok .clkGetAlarm := by decide

theorem test_decode_clkAlarmIsRinging : decode 0x1500000000000000 = .ok .clkAlarmIsRinging := by
  decide

theorem test_decode_clkSetAlarmEnabled :
    decode 0x1600000000000001 = .ok (.clkSetAlarmEnabled true) := by decide

theorem test_decode_clkPostponeAlarm : decode 0x1700000000000000 = .ok .clkPostponeAlarm := by
  decide

theorem test_decode_clkPostponeMinutes :
    decode 0x180000000000003C = .ok (.clkPostponeMinutes 60) := by decide

theorem test_decode_clkPostponeOneDay : decode 0x1900000000000000 = .ok .clkPostponeOneDay := by
  decide

theorem test_decode_clkResetAlarm : decode 0x1A00000000000000 = .ok .clkResetAlarm := by decide

theorem test_decode_bcdIncMin : decode 0x1B00000000123456 =
    .ok (.bcdIncMin { h10 := 1, h1 := 2, m10 := 3, m1 := 4, s10 := 5, s1 := 6 }) := by decide

theorem test_decode_bcdDecMin : decode 0x1C00000000123000 =
    .ok (.bcdDecMin { h10 := 1, h1 := 2, m10 := 3, m1 := 0, s10 := 0, s1 := 0 }) := by decide

theorem test_decode_bcdIncHr : decode 0x1D00000000091500 =
    .ok (.bcdIncHr { h10 := 0, h1 := 9, m10 := 1, m1 := 5, s10 := 0, s1 := 0 }) := by decide

theorem test_decode_bcdDecHr : decode 0x1E00000000004500 =
    .ok (.bcdDecHr { h10 := 0, h1 := 0, m10 := 4, m1 := 5, s10 := 0, s1 := 0 }) := by decide

theorem test_decode_dspWriteBcd : decode 0x20000009FFFF0765 =
    .ok (.dspWriteBcd 9 #v[5, 6, 7, 0, 15, 15, 15, 15]) := by decide

theorem test_decode_dspRefresh : decode 0x2100000000000000 = .ok .dspRefresh := by decide

theorem test_decode_dspCfgDigitBlink :
    decode 0x220000000032000A = .ok (.dspCfgDigitBlink 3 2 10) := by decide

theorem test_decode_dspCfgDotBlink :
    decode 0x2300000000310032 = .ok (.dspCfgDotBlink 3 50 true) := by decide

theorem test_decode_edgSample : decode 0x3000000000020001 = .ok (.edgSample 2 true) := by decide

theorem test_decode_fsmStep : decode 0x4000000000000605 =
    .ok (.fsmStep { acc := true, can := false, inc := true, dec := false } false true true) := by
  decide

/-- Vectors ILL-1 to ILL-4: opcodes that the table does not list. -/
theorem test_decode_reserved_opcodes :
    [0x0000000000000000, 0x1F00000000000000, 0xFF00000000000000, 0x4100000000000000].all
      (fun w => decide (decode w = .error .reservedOpcode)) = true := by decide

/-- Vectors ILL-5 to ILL-12: one reserved bit set. -/
theorem test_decode_reserved_bits :
    [0x1200000000000001, 0x1600000000000002, 0x1100000001000000, 0x2300000000320032,
      0x3000000000000002, 0x4000000000000010, 0x4000000000000800, 0x2000001000000000].all
      (fun w => decide (decode w = .error .reservedBit)) = true := by decide

/-- The table's numbering: one 64-bit word, bit 0 the least significant (R51). -/
theorem test_decodeTableWord :
    decodeTableWord 64 0x1800000000000005 = some (.clkPostponeMinutes 5) ∧
      decodeTableWord 64 0x1800000000000105 = none := by decide

/-- R68's assembler text. -/
theorem test_asmText :
    asmText (.clkSetTime (time 0x235959)) = "CLK_SET_TIME 23:59:59" ∧
      asmText .clkTick = "CLK_TICK" ∧
        asmText (.dspCfgDotBlink 3 50 true) = "DSP_CFG_DOT_BLINK 3, 50, 1" := by decide

/-! ## Commands, one step each -/

/-- CLK-S-14. -/
theorem test_get_time : see (fun t => t.clk.cur) 0x1000000000000000
    (clocked fun x => { x with cur := time 0x235959, valid := true }) =
      some (0x0000000100235959, time 0x235959) := by decide

/-- CLK-S-1. -/
theorem test_set_time : see (fun t => (t.clk.cur, t.clk.valid)) 0x1100000000235959 start =
    some (0x0000000100000000, time 0x235959, true) := by decide

/-- CLK-S-3. -/
theorem test_set_time_rejected : see (fun t => (t.clk.cur, t.clk.valid)) 0x1100000000240000
    (clocked fun x => { x with cur := time 0x101010, valid := true }) =
      some (0, time 0x101010, false) := by decide

/-- CLK-T-2. -/
theorem test_tick_rolls_over : see (fun t => (t.clk.cur, t.clk.acc)) 0x1200000000000000
    (clocked fun x => { x with cur := time 0x235959, acc := 1 }) = some (0, time 0, 0) := by decide

/-- CLK-T-6. -/
theorem test_tick_carries : see (fun t => (t.clk.cur, t.clk.acc)) 0x1200000000000000
    (clocked fun x => { x with cur := time 0x195959, acc := 1 }) =
      some (0, time 0x200000, 0) := by decide

/-- CLK-A-3. -/
theorem test_set_alarm : see (fun t => (t.clk.alarm, t.clk.snooze, t.clk.valid)) 0x13000000007A0000
    (clocked fun x => { x with cur := time 0x100000 }) =
      some (0x0000000100000000, time 0x7A0000, time 0x7A0000, true) := by decide

/-- CLK-A-2. -/
theorem test_get_alarm : see (fun t => t.clk.snooze) 0x1400000000000000
    (clocked fun x => { x with alarm := time 0x063000, snooze := time 0x063500, valid := true }) =
      some (0x0000000100063000, time 0x063500) := by decide

/-- CLK-A-4. -/
theorem test_ringing : see (fun t => t.clk.ring) 0x1500000000000000
    (clocked fun x => { x with cur := time 0x012100, snooze := time 0x012100, en := true }) =
      some (0x0000000100000000, true) := by decide

/-- CLK-A-7. -/
theorem test_ringing_disabled : see (fun t => (t.clk.ring, t.clk.snooze)) 0x1500000000000000
    (clocked fun x =>
      { x with cur := time 0x063500, snooze := time 0x063500, alarm := time 0x063000 }) =
      some (0, false, time 0x063000) := by decide

/-- CLK-A-10. -/
theorem test_disable_alarm : see (fun t => (t.clk.en, t.clk.ring)) 0x1600000000000000
    (clocked fun x => { x with en := true, ring := true }) = some (0, false, true) := by decide

/-- CLK-P-1. -/
theorem test_postpone_alarm : see (fun t => (t.clk.alarm, t.clk.snooze, t.clk.ring))
    0x1700000000000000
    (clocked fun x => { x with alarm := time 0x235930, snooze := time 0x235930, ring := true }) =
      some (0, time 0x000030, time 0x235930, false) := by decide

/-- CLK-P-6. -/
theorem test_postpone_minutes : see (fun t => (t.clk.snooze, t.clk.ring)) 0x1800000000000005
    (clocked fun x => { x with cur := time 0x235800, snooze := time 0x235800, ring := true }) =
      some (0x0000000100000000, time 0x000300, false) := by decide

/-- CLK-P-4. -/
theorem test_postpone_sixty_minutes : see (fun t => (t.clk.snooze, t.clk.ring)) 0x180000000000003C
    (clocked fun x => { x with cur := time 0x235800, snooze := time 0x235800, ring := true }) =
      some (0, time 0x235800, true) := by decide

/-- CLK-P-9. -/
theorem test_postpone_one_day : see (fun t => (t.clk.snooze, t.clk.ring)) 0x1900000000000000
    (clocked fun x => { x with alarm := time 0x063000, snooze := time 0x063500, ring := true }) =
      some (0, time 0x063000, false) := by decide

/-- CLK-P-10. -/
theorem test_reset_alarm : see (fun t => t.clk) 0x1A00000000000000
    (clocked fun x =>
      { x with
          cur := time 0x100000, valid := true, alarm := time 0x063000, snooze := time 0x063000
          en := true, ring := true }) =
      some (0, { Clk.reset with cur := time 0x100000, snooze := time 0x063000 }) := by decide

/-- BCD-3. -/
theorem test_inc_min : see (fun t => t.clk) 0x1B00000000000A00 start =
    some (0x0000000000001100, Clk.reset) := by decide

/-- BCD-7. -/
theorem test_dec_min : see (fun t => t.clk) 0x1C00000000007A00 start =
    some (0x0000000000005900, Clk.reset) := by decide

/-- BCD-9. -/
theorem test_inc_hr : see (fun t => t.clk) 0x1D00000000235959 start =
    some (0x0000000000005959, Clk.reset) := by decide

/-- BCD-12. -/
theorem test_dec_hr : see (fun t => t.clk) 0x1E00000000100000 start =
    some (0x0000000000090000, Clk.reset) := by decide

/-- DSP-W-5. -/
theorem test_write_bcd : see (fun t => t.dsp.seg) 0x20000009FFFF0765 start =
    some (0x0000000100000000, #v[0x6D, 0x7D, 0x07, 0x3F, 0, 0, 0, 0]) := by decide

/-- DSP-W-2. -/
theorem test_write_bcd_rejected : see (fun t => t.dsp.seg) 0x20000004000055A0 start =
    some (0, Vector.replicate 8 0) := by decide

/-- DSP-R-3. -/
theorem test_refresh_wraps : see (fun t => (t.dsp.cur, t.dsp.bph, t.drv.digOn)) 0x2100000000000000
    (start.withDsp
      { start.dsp with
          cur := 3, seg := #v[0x06, 0, 0, 0, 0, 0, 0, 0], bto := 1, bper := 4, bph := 1 }) =
      some (0x0000000086000000, 0, 2, some 0) := by decide

/-- DSP-R-7. -/
theorem test_refresh_dot_off : see (fun t => t.drv.trace) 0x2100000000000000
    (start.withDsp
      { start.dsp with
          cur := 2, seg := #v[0, 0, 0, 0x66, 0, 0, 0, 0]
          dots := start.dsp.dots.set 3 { per := 2, en := true, ph := 0 } }) =
      some (0x0000300066000000, [.offAll, .update 0x66, .on 3]) := by decide

/-- DSP-C-8. -/
theorem test_digit_blink : see (fun t => (t.dsp.bto, t.dsp.bper)) 0x220000000003FFFF start =
    some (0x0000000100000000, 3, 131070) := by decide

/-- DSP-C-4. -/
theorem test_digit_blink_rejected : see (fun t => t.dsp.bph) 0x220000000032000A
    (start.withDsp { start.dsp with bto := 1, bper := 200, bph := 57 }) = some (0, 57) := by decide

/-- DSP-C-11. -/
theorem test_dot_blink : see (fun t => t.dsp.dots) 0x2300000000300000
    (start.withDsp
      { start.dsp with dots := start.dsp.dots.set 3 { per := 100, en := true, ph := 42 } }) =
      some (0x0000000100000000, Vector.replicate 8 { per := 0, en := false, ph := 0 }) := by decide

/-- DSP-C-10. -/
theorem test_dot_blink_rejected : see (fun t => t.dsp) 0x2300000000410032 start =
    some (0, Dsp.reset) := by decide

/-- EDG-1. -/
theorem test_edge_activated : see (fun t => t.edg) 0x3000000000020001 start =
    some (0x0000010100000000, #v[false, false, true, false, false, false]) := by decide

/-- EDG-3. -/
theorem test_edge_deactivated : see (fun t => t.edg) 0x3000000000020000
    (start.withEdg (start.edg.set 2 true)) =
      some (0x0000020100000000, Vector.replicate 6 false) := by decide

/-- FSM-16: an increment and an Accept in one step commit 00:05:00. -/
theorem test_fsm_commit : see (fun t => (t.clk.cur, t.clk.valid, t.fsm.etime, t.fsm.armed))
    0x4000000000000005
    (coordinated (fun f => { f with state := .adjustTimeHours, etime := time 0x230542 }) start) =
      some (0, time 0x000500, true, time 0x000500,
        { acc := false, can := true, inc := false, dec := true }) := by decide

/-- FSM-24: Accept while the alarm rings postpones by five minutes. -/
theorem test_fsm_snooze : see (fun t => (t.clk.snooze, t.clk.ring, t.fsm.alarmOut))
    0x4000000000000001
    (coordinated (fun f => { f with state := .controlAlarm, active := true, alarmOut := true })
      (clocked fun x =>
        { x with
            cur := time 0x012100, ring := true, alarm := time 0x012100, snooze := time 0x012100
            en := true })) =
      some (0, time 0x012600, false, false) := by decide

/-! ## The step and reset -/

/-- ILL-5. -/
theorem test_illegal_word : see (fun t => t.clk) 0x1200000000000001 start =
    some (0x8000000000000000, Clk.reset) := by decide

/-- R45: the TICK agent's responses do not reach the port `rsp`. -/
theorem test_tick_event : (match step { start with inbox := [{ tick := true }] } with
    | .next t => some (t.rsp, t.tickRsp, t.clk.acc, t.dsp.cur)
    | _ => none) = some (0, [0, 0x0000100080000000], 1, 1) := by decide

/-- R147 step 1. -/
theorem test_reset_input : (match step { start with inbox := [{ rst := some (straps 9 20 8 7) }] } with
    | .next t => some (t.cfg.tps.val, t.digits, t.fsm.state)
    | _ => none) = some (9, 8, .showTime) := by decide

/-- R145. -/
theorem test_reset : State.reset.drv.digOn = none ∧
    State.reset.fsm.armed = { acc := true, can := true, inc := true, dec := true } ∧
      State.reset.digits = 4 := by decide

/-! ## Witnesses: inputs that meet the hypotheses of the statements -/

theorem witness_DecodedWordIsItsEncoding :
    decode 0x4000000000000001 = .ok (.fsmStep accepted false false false) := by decide

theorem witness_DecodingFollowsTheOpcodeTable :
    (∃ row ∈ tableRows, Matches 0x1600000000000001 row) ∧
      (∀ row ∈ tableRows, ¬ Matches 0x1600000000000002 row) ∧
        ∀ row ∈ tableRows, ¬ Matches 0x1F00000000000000 row := by
  simp only [Matches]
  decide

theorem witness_IllegalWordOnlyAnswersIll :
    (∀ k ∈ [0x00, 0x0F, 0x1F, 0x24, 0x2F, 0x31, 0x3F, 0x41, 0xFF], ReservedOpcode k) ∧
      (∀ k ∈ [0x10, 0x1E, 0x20, 0x23, 0x30, 0x40], ¬ ReservedOpcode k) ∧
        decode 0x4100000000000000 = .error .reservedOpcode ∧
          decode 0x1600000000000002 = .error .reservedBit ∧
            { start with inbox := [{ cmd := some 0x1600000000000002 }] }.inbox =
              { cmd := some 0x1600000000000002 } :: [] := by
  simp only [ReservedOpcode]
  decide

theorem witness_HostStepRunsTheDecodedCommand :
    decode 0x1200000000000000 = .ok .clkTick ∧
      { start with inbox := [{ cmd := some 0x1200000000000000 }] }.inbox =
        { cmd := some 0x1200000000000000 } :: [] := by decide

theorem witness_DeliveredEventRunsFsmStep :
    decode (eventWord { btn := 2, cond := 4 }) = .ok (.fsmStep cancelled false false true) ∧
      { start with inbox := [{ evt := some { btn := 2, cond := 4 } }] }.inbox =
        { evt := some { btn := 2, cond := 4 } } :: [] := by decide

theorem witness_TickEventIsTickThenRefresh :
    { start with inbox := [{ tick := true }] }.inbox = { tick := true } :: [] := by decide

theorem witness_SimultaneousRequestsRunTickFsmHost :
    { start with inbox := [{ tick := true, evt := some { btn := 0, cond := 0 }, cmd := some 0 }] }.inbox =
        { tick := true, evt := some { btn := 0, cond := 0 }, cmd := some 0 } :: [] ∧
      pending [{ tick := true, evt := some { btn := 0, cond := 0 }, cmd := some 0 }] = 3 ∧
        0 < pending [{ tick := true }] := by decide

/-- A clock cycle in which every port presents a request. -/
def busy : Ports where
  rst := some (straps 1 4 1 1)
  tick := true
  evt := some { btn := 1, cond := 2 }
  cmd := some 0x1000000000000000

theorem witness_EachStepTakesOneRequest :
    start.inbox = [] ∧ pending [{}] = 0 ∧ pending [{ tick := true }] = 1 ∧ pending [busy] = 4 ∧
      oneTaken busy = { busy with rst := none } ∧
        oneTaken { busy with rst := none } = { busy with rst := none, tick := false } ∧
          (∃ t, step { start with inbox := [{ tick := true }, {}] } = .next t ∧ t.inbox = [{}]) ∧
            ∃ t, step { start with inbox := [{ busy with rst := none }] } = .next t ∧
              t.inbox = [{ busy with rst := none, tick := false }] :=
  ⟨by decide, by decide, by decide, by decide, by decide, by decide, ⟨_, rfl, by decide⟩,
    ⟨_, rfl, by decide⟩⟩

theorem witness_ResetInputLatchesLegalStraps :
    LegalStraps (straps 1 4 1 1) ∧ LegalStraps (straps 65535 255 65535 65535) ∧
      ¬ LegalStraps (straps 0 4 1 1) ∧ ¬ LegalStraps (straps 65536 4 1 1) ∧
      ¬ LegalStraps (straps 1 3 1 1) ∧ ¬ LegalStraps (straps 1 256 1 1) ∧
      ¬ LegalStraps (straps 1 4 0 1) ∧ ¬ LegalStraps (straps 1 4 1 65536) ∧
        ({ rst := some (straps 1 4 1 1) } : Ports).rst = some (straps 1 4 1 1) ∧
          busy.rst = some (straps 1 4 1 1) ∧
            { start with inbox := [busy] }.inbox = busy :: [] := by
  unfold LegalStraps
  refine ⟨?_, ?_, ?_, ?_, ?_, ?_, ?_, ?_, rfl, rfl, rfl⟩ <;> decide

theorem witness_ValidTimesAreTheSecondsOfTheDay :
    validBcd BcdTime.zero = true ∧ validBcd (time 0x235959) = true ∧
      secondOfDay (time 0x235959) = 86399 := by decide

theorem witness_FieldHelpersWrapAtTheTop :
    (59 ≥ 59 ∧ 58 < 59 ∧ 60 > 59) ∧ ((1 : Nat) ≠ 0 ∧ 1 ≤ 59) ∧ (59 ≤ 59 ∧ 23 ≤ 23) := by decide

theorem witness_AdvancesAddOneModuloTheDay :
    seconds (time 0x000058) < 59 ∧ 59 ≤ seconds (time 0x000059) ∧
      minutes (time 0x005859) < 59 ∧ 59 ≤ minutes (time 0x005959) ∧
        validBcd (time 0x235959) = true ∧
          advanceSecond (time 0x235959) = advanceSecond (time 0x235959) := by decide

theorem witness_SetTimeStoresOnlyValidTimes :
    validBcd (time 0x235959) = true ∧ validBcd (time 0x240000) = false := by decide

theorem witness_TickCountsOrAdvancesTheSecond :
    (start.clk.acc.toNat < start.cfg.tps.val.toNat ∧
        start.clk.acc.toNat + 1 ≠ start.cfg.tps.val.toNat) ∧
      ((clocked fun x => { x with acc := 1 }).clk.acc.toNat < config.tps.val.toNat ∧
        (clocked fun x => { x with acc := 1 }).clk.acc.toNat + 1 = config.tps.val.toNat) := by decide

theorem witness_TpsTicksAdvanceOneSecond :
    (clocked fun x => { x with acc := 1 }).clk.acc.toNat <
      (clocked fun x => { x with acc := 1 }).cfg.tps.val.toNat := by decide

theorem witness_RingingComparesWithTheBaseline :
    (start.clk.cur = start.clk.snooze ∧ start.clk.en = false) ∧
      ((clocked fun x => { x with en := true }).clk.cur =
          (clocked fun x => { x with en := true }).clk.snooze ∧
        (clocked fun x => { x with en := true }).clk.en = true) ∧
      (clocked fun x => { x with cur := time 1 }).clk.cur ≠
        (clocked fun x => { x with cur := time 1 }).clk.snooze := by decide

theorem witness_RingIsALatch :
    (∃ t, exec (.clkPostponeMinutes 59) (clocked fun x => { x with ring := true }) = .next t ∧
        (clocked fun x => { x with ring := true }).clk.ring = true ∧ t.clk.ring = false) ∧
      (∃ t, exec (.fsmStep cancelled false false false)
          (coordinated (fun f => { f with state := .controlAlarm })
            (clocked fun x => { x with ring := true })) = .next t ∧ t.clk.ring = false) ∧
      ∃ t, exec .clkAlarmIsRinging (clocked fun x => { x with en := true }) = .next t ∧
        (clocked fun x => { x with en := true }).clk.ring = false ∧ t.clk.ring = true :=
  ⟨⟨_, rfl, by decide, by decide⟩, ⟨_, rfl, by decide⟩, ⟨_, rfl, by decide, by decide⟩⟩

theorem witness_PostponeAlarmAddsOneMinute :
    minutes (clocked fun x => { x with alarm := time 0x235800 }).clk.alarm < 59 ∧
      59 ≤ minutes (clocked fun x => { x with alarm := time 0x235900 }).clk.alarm := by decide

theorem witness_PostponeMinutesMovesTheBaseline :
    ((0 : BitVec 8).toNat = 0 ∨ 60 ≤ (0 : BitVec 8).toNat) ∧
      ((60 : BitVec 8).toNat = 0 ∨ 60 ≤ (60 : BitVec 8).toNat) ∧
        (1 ≤ (1 : BitVec 8).toNat ∧ (1 : BitVec 8).toNat < 60) ∧
          (1 ≤ (59 : BitVec 8).toNat ∧ (59 : BitVec 8).toNat < 60) := by decide

theorem witness_OnlyTicksAndSetsChangeTheTime :
    (∃ t, exec .clkTick (clocked fun x => { x with acc := 1 }) = .next t ∧
        t.clk.cur ≠ (clocked fun x => { x with acc := 1 }).clk.cur) ∧
      (∃ t, exec (.clkSetTime (time 1)) start = .next t ∧ t.clk.cur ≠ start.clk.cur) ∧
      ∃ t, exec (.fsmStep accepted false false false)
          (coordinated (fun f => { f with state := .adjustTimeHours, etime := time 0x010000 })
            start) = .next t ∧ t.clk.cur ≠ start.clk.cur :=
  ⟨⟨_, rfl, by decide⟩, ⟨_, rfl, by decide⟩, ⟨_, rfl, by decide⟩⟩

theorem witness_WriteBcdLoadsOrRejects :
    (∃ i : Fin 8, written start 4 i ∧ 9 < ((#v[0, 0, 0, 10, 0, 0, 0, 0] : Vector Nibble 8).get i).toNat) ∧
      (∀ i : Fin 8, written start 4 i →
        ((#v[9, 9, 9, 9, 15, 15, 15, 15] : Vector Nibble 8).get i).toNat ≤ 9) ∧
      ∀ i : Fin 8, ¬ written start 0 i := by
  simp only [written]
  decide

theorem witness_PhasesAdvanceModuloTheirPeriods :
    let x := { Dsp.reset with dots := Dsp.reset.dots.set 0 { per := 2, en := true, ph := 1 } }
    x.bper = 0 ∧ { x with bper := 2, bph := 1 }.bper ≠ 0 ∧
      ((0 : Fin 8).val < 4 ∧ (x.dots.get 0).en = true ∧ (x.dots.get 0).per ≠ 0) ∧
        (4 ≤ (4 : Fin 8).val ∧ (x.dots.get 3).en = false ∧ (x.dots.get 3).per = 0) := by decide

theorem witness_OffHalvesAreTheFirstHalves :
    digitOff { Dsp.reset with bto := 1, bper := 4, bph := 1 } 1 = true ∧
      digitOff { Dsp.reset with bto := 1, bper := 4, bph := 2 } 1 = false ∧
        digitOff { Dsp.reset with bto := 1, bper := 4, bph := 1 } 2 = false := by decide

theorem witness_DigitBlinkIsProgrammedOrRejected :
    (2 : BitVec 4).toNat < (3 : BitVec 4).toNat ∧ start.digits ≤ (4 : BitVec 4).toNat ∧
      ((3 : BitVec 4).toNat ≤ (3 : BitVec 4).toNat ∧ (3 : BitVec 4).toNat < start.digits) := by
  decide

theorem witness_DotBlinkIsProgrammedOrRejected :
    start.digits ≤ (4 : BitVec 4).toNat ∧ (3 : BitVec 4).toNat < start.digits := by decide

theorem witness_MuxCycleLightsEachDigitOnce :
    (start.withDsp { start.dsp with cur := 3 }).dsp.cur.toNat <
      (start.withDsp { start.dsp with cur := 3 }).digits := by decide

theorem witness_WindowAndDotsDoNotInterfere :
    let x := { Dsp.reset with bto := 1, bper := 4, bph := 1 }
    let y := { x with dots := x.dots.set 0 { per := 2, en := true, ph := 0 } }
    (x.seg.get (slot 0) = y.seg.get (slot 0) ∧ x.bfrom = y.bfrom ∧ x.bto = y.bto ∧
        x.bper = y.bper ∧ x.bph = y.bph) ∧
      x.dots.get (slot 0) = Dsp.reset.dots.get (slot 0) := by decide

theorem witness_SampleReportsTheEdgeAndIsStored :
    6 ≤ (6 : BitVec 4).toNat ∧ (5 : BitVec 4).toNat = (5 : Fin 6).val ∧
      start.edg.get 5 = false ∧ (start.withEdg (start.edg.set 5 true)).edg.get 5 = true := by decide

theorem witness_EdgePredicatesReadTheResponse :
    (5 : BitVec 4).toNat = (5 : Fin 6).val ∧ 6 ≤ (6 : BitVec 4).toNat := by decide

theorem witness_ButtonsFireOncePerPress :
    let s := coordinated (fun f => { f with active := true }) (clocked fun x => { x with ring := true })
    (Buttons.acc ∈ [Buttons.acc, Buttons.can, Buttons.inc, Buttons.dec] ∧ released.acc = false ∧
        accepted.acc = true) ∧
      (s.fsm.state = .showTime ∧ s.fsm.active = true ∧ s.clk.ring = true) ∧
      (start.fsm.state = .showTime ∧ ¬ (start.fsm.active = true ∧ start.clk.ring = true)) ∧
      (coordinated (fun f => { f with state := .controlAlarm }) s).fsm.state = .controlAlarm ∧
      (coordinated (fun f => { f with state := .adjustTimeHours }) s).fsm.state ≠ .showTime := by
  refine ⟨⟨?_, ?_⟩, ?_⟩
  · simp
  · decide
  · decide

theorem witness_RenderShowsHoursAndMinutes :
    4 ≤ digitCount config ∧
      (∃ v ∈ [(time 0x00A000).h10, (time 0x00A000).h1, (time 0x00A000).m10, (time 0x00A000).m1],
        9 < v.toNat) ∧
      ∀ v ∈ [(time 0x9999FF).h10, (time 0x9999FF).h1, (time 0x9999FF).m10, (time 0x9999FF).m1],
        v.toNat ≤ 9 := by decide

theorem witness_FsmStepCompletesWithFourDigits : threeDigits.digits < 4 ∧ 4 ≤ start.digits := by
  decide

theorem witness_EnsuredDescriptorsKeepTheirPhase :
    ((0 : BitVec 4).toNat ≤ (3 : BitVec 4).toNat ∧ (3 : BitVec 4).toNat < digitCount config) ∧
      ({ Dsp.reset with bto := 3, bper := 4 }.bfrom.toNat = (0 : BitVec 4).toNat ∧
        { Dsp.reset with bto := 3, bper := 4 }.bto.toNat = (3 : BitVec 4).toNat ∧
          { Dsp.reset with bto := 3, bper := 4 }.bper.toNat = 2 * (2 : BitVec 16).toNat) ∧
      (¬ Dsp.reset.bto.toNat = (3 : BitVec 4).toNat) ∧
      ((Dsp.reset.dots.get 3).per.toNat = 2 * (0 : BitVec 16).toNat ∧
        (Dsp.reset.dots.get 3).en = false) ∧
      ¬ (Dsp.reset.dots.get 3).en = true := by decide

theorem witness_ShowTimeStep : 4 ≤ start.digits ∧ start.fsm.state = .showTime := by decide

/-- A state of the vectors in the coordinator's state `x`, with the edit buffers at 07:59:10. -/
def editing (x : FsmState) : State :=
  coordinated (fun f => { f with state := x, etime := time 0x075910, ealarm := time 0x075910 }) start

theorem witness_AdjustStepsShowTheBuffer :
    ∀ a ∈ adjustStates, (editing a.1).fsm.state = a.1 ∧
      ∃ t, exec (.fsmStep released false false false) (editing a.1) = .next t := by
  intro a _
  exact ⟨rfl, _, rfl⟩

theorem witness_AdjustStepsEditAndCommit :
    ∀ a ∈ adjustStates, (editing a.1).fsm.state = a.1 ∧
      (fired cancelled (editing a.1)).can = true ∧ (fired released (editing a.1)).can = false ∧
        (fired released (editing a.1)).acc = false ∧ (fired accepted (editing a.1)).acc = true ∧
          (fired accepted (editing a.1)).can = false := by decide

theorem witness_TimeCommitNeverFails :
    (∃ t, exec (.fsmStep accepted false false false) (editing .adjustTimeHours) = .next t) ∧
      (editing .adjustTimeHours).fsm.state = .adjustTimeHours ∧ EditInv (editing .adjustTimeHours) ∧
        (fired accepted (editing .adjustTimeHours)).can = false ∧
          (fired accepted (editing .adjustTimeHours)).acc = true :=
  ⟨⟨_, rfl⟩, rfl, by unfold EditInv; decide, by decide, by decide⟩

theorem witness_ControlAlarmStep :
    4 ≤ (editing .controlAlarm).digits ∧ (editing .controlAlarm).fsm.state = .controlAlarm ∧
      (fired accepted (editing .controlAlarm)).acc = true ∧
        (fired accepted (editing .controlAlarm)).can = false ∧
          (fired cancelled (editing .controlAlarm)).acc = false ∧
            (fired cancelled (editing .controlAlarm)).can = true := by decide

theorem witness_TransitionRelation :
    ∀ x, ∃ t, exec (.fsmStep accepted false false false) (editing x) = .next t := by
  intro x
  exact ⟨_, rfl⟩

theorem witness_AlarmOutputChangesOnlyInControlAlarm :
    let s := coordinated (fun f => { f with state := .controlAlarm, active := true })
      (clocked fun x => { x with ring := true })
    ∃ t, exec (.fsmStep released false false false) s = .next t ∧ t.fsm.alarmOut ≠ s.fsm.alarmOut :=
  ⟨_, rfl, by decide⟩

theorem witness_IdempotentCommandsRepeat :
    (∃ t, exec (.clkSetTime (time 0x240000)) start = .next t) ∧
      (∃ t, exec .clkAlarmIsRinging start = .next t) ∧
        (∃ t, exec (.clkPostponeMinutes 59) start = .next t) ∧
          (∃ t, exec (.dspWriteBcd 4 (Vector.replicate 8 1)) start = .next t) ∧
            ∃ t, exec (.dspCfgDotBlink 3 1 true) start = .next t :=
  ⟨⟨_, rfl⟩, ⟨_, rfl⟩, ⟨_, rfl⟩, ⟨_, rfl⟩, ⟨_, rfl⟩⟩

theorem witness_CommandsStayInTheirUnits :
    (∃ t, exec .clkTick start = .next t ∧ (opcodeOf (encode .clkTick)).extractLsb' 4 4 = 1) ∧
      (∃ t, exec .dspRefresh start = .next t ∧
        (opcodeOf (encode .dspRefresh)).extractLsb' 4 4 = 2) ∧
      (∃ t, exec (.dspWriteBcd 0 (Vector.replicate 8 0)) start = .next t ∧
        Instr.dspWriteBcd 0 (Vector.replicate 8 0) ≠ .dspRefresh) ∧
      (∃ t, exec (.edgSample 0 true) start = .next t ∧
        (opcodeOf (encode (.edgSample 0 true))).extractLsb' 4 4 = 3) ∧
      ∃ t, exec (.fsmStep accepted false false false) start = .next t ∧
        (opcodeOf (encode (.fsmStep accepted false false false))).extractLsb' 4 4 = 4 :=
  ⟨⟨_, rfl, by decide⟩, ⟨_, rfl, by decide⟩, ⟨_, rfl, by decide⟩, ⟨_, rfl, by decide⟩,
    ⟨_, rfl, by decide⟩⟩

theorem witness_RejectedCommandsChangeNothing :
    ∀ i ∈ [Instr.clkPostponeMinutes 60, .clkPostponeMinutes 0,
        .dspWriteBcd 1 (Vector.replicate 8 10), .dspCfgDigitBlink 3 2 1, .dspCfgDigitBlink 4 4 1,
        .dspCfgDotBlink 4 1 true, .edgSample 6 true, .clkSetTime (time 0x240000)],
      (match exec i start with
        | .next t => t.resp.getLsbD 32
        | _ => true) = false := by decide

theorem witness_StepKeepsTheClockInvariant :
    ClockInv start ∧ ∃ t, step (start.withFetchWord 64 0x1200000000000000) = .next t :=
  ⟨by unfold ClockInv; decide, _, rfl⟩

theorem witness_StepKeepsTheDisplayInvariant :
    DisplayInv start ∧ ∃ t, step (start.withFetchWord 64 0x2100000000000000) = .next t :=
  ⟨by unfold DisplayInv DescriptorOk PhaseOk; decide, _, rfl⟩

theorem witness_StepKeepsTheDriverTrace :
    DriverInv start ∧ ∃ t, step (start.withFetchWord 64 0x2100000000000000) = .next t :=
  ⟨by unfold DriverInv; decide, _, rfl⟩

theorem witness_StepKeepsTheEditBufferValid :
    ClockInv start ∧ EditInv start ∧
      ∃ t, step (start.withFetchWord 64 0x4000000000000100) = .next t :=
  ⟨by unfold ClockInv; decide, by unfold EditInv; decide, _, rfl⟩

theorem witness_ReadyBlockNeverStops :
    Ready start ∧ Ready { start with inbox := [{ rst := some (straps 1 4 1 1) }, { tick := true }] } := by
  unfold Ready
  exact ⟨⟨by decide, by simp [start, State.resetWith]⟩, by decide,
    by intro p hp x hx; simp at hp; rcases hp with rfl | rfl <;> simp at hx; subst hx; decide⟩

end Sys2Proof.Tests
end

section
/-! The opcode table as masks (R52, R53): what each reserved field of a format is as a mask, what the
decoder does with a word that has the opcode of a row, and that an encoded command has its reserved bits
0. The two statements about legal and illegal words follow. -/

namespace Sys2Proof.Encoding

open Sys2Proof Sys2Proof.Machine Sys2Proof.Stated

/-! ## Fields as masks -/

/-- The mask of the field `cmd[lo + len - 1 : lo]`. -/
def fieldMask (lo len : Nat) : Word64 := (BitVec.allOnes len).setWidth 64 <<< lo

theorem getLsbD_fieldMask {lo len k : Nat} :
    (fieldMask lo len).getLsbD k = decide (k < 64 ∧ lo ≤ k ∧ k < lo + len) := by
  simp only [fieldMask, BitVec.getLsbD_shiftLeft, BitVec.getLsbD_setWidth, BitVec.getLsbD_allOnes]
  grind

/-- Two words agree on a field exactly when they agree under its mask. -/
theorem extract_eq_iff_and_fieldMask {w v : Word64} {lo len : Nat} :
    w.extractLsb' lo len = v.extractLsb' lo len ↔
      w &&& fieldMask lo len = v &&& fieldMask lo len := by
  constructor
  · intro h
    refine BitVec.eq_of_getLsbD_eq fun k hk => ?_
    have bit := congrArg (·.getLsbD (k - lo)) h
    simp only [BitVec.getLsbD_extractLsb'] at bit
    simp only [BitVec.getLsbD_and, getLsbD_fieldMask]
    grind
  · intro h
    refine BitVec.eq_of_getLsbD_eq fun j hj => ?_
    have bit := congrArg (·.getLsbD (lo + j)) h
    simp only [BitVec.getLsbD_and, getLsbD_fieldMask] at bit
    simp only [BitVec.getLsbD_extractLsb']
    grind

/-- Two words have the same opcode exactly when they agree under its mask. -/
theorem opcodeOf_eq_iff {w v : Word64} :
    opcodeOf w = opcodeOf v ↔ w &&& fieldMask 56 8 = v &&& fieldMask 56 8 :=
  extract_eq_iff_and_fieldMask

/-- The decoder's test of a reserved field, as a mask. -/
theorem clear_eq_mask (w : Word64) (lo len : Nat) :
    clear w lo len = decide (w &&& fieldMask lo len = 0#64) := by
  have h := extract_eq_iff_and_fieldMask (w := w) (v := 0#64) (lo := lo) (len := len)
  rw [BitVec.zero_and, BitVec.extractLsb'_zero] at h
  rw [clear, Bool.eq_iff_iff, beq_iff_eq, decide_eq_true_iff, ← h]
  rfl

/-- The decoder's test of two reserved fields, as one mask. -/
theorem clear_and_clear_eq_mask (w : Word64) (lo len lo' len' : Nat) :
    (clear w lo len && clear w lo' len') =
      decide (w &&& (fieldMask lo len ||| fieldMask lo' len') = 0#64) := by
  simp only [clear_eq_mask, BitVec.and_or_distrib_left, BitVec.or_eq_zero_iff, Bool.decide_and]

/-- A comparison under two masks, of which one holds the whole value, is two comparisons. -/
theorem and_or_eq_iff {w v a b : Word64} (ha : v &&& a = v) (hb : v &&& b = 0#64) :
    w &&& (a ||| b) = v ↔ w &&& a = v ∧ w &&& b = 0#64 := by
  constructor
  · intro h
    have under (m : Word64) (hm : (a ||| b) &&& m = m) : w &&& m = v &&& m := by
      rw [← h, BitVec.and_assoc, hm]
    refine ⟨(under a ?_).trans ha, (under b ?_).trans hb⟩
    · ext k
      simp [Bool.and_or_distrib_right]
    · ext k
      simp [Bool.and_or_distrib_right]
  · rintro ⟨h, h'⟩
    rw [BitVec.and_or_distrib_left, h, h', BitVec.or_zero]

/-! ## The rows of the opcode table -/

/-- The bits of a row's mask below the opcode: those that its format reserves (R56 to R64). -/
def reservedMask (row : String × Word64 × Word64) : Word64 := row.2.2 &&& fieldMask 0 56

/-- A row's mask is the opcode byte and the reserved bits, and its match holds the opcode alone. -/
theorem row_masks : ∀ row ∈ tableRows,
    row.2.2 = fieldMask 56 8 ||| reservedMask row ∧ row.2.1 &&& fieldMask 56 8 = row.2.1 ∧
      row.2.1 &&& reservedMask row = 0#64 := by
  decide

/-- The opcodes of the rows (R52). -/
theorem row_opcodes :
    tableRows.map (fun row => (opcodeOf row.2.1).toNat) =
      List.range' 0x10 15 ++ List.range' 0x20 4 ++ [0x30, 0x40] := by
  decide

theorem row_eq_of_opcodeOf_eq {row other : String × Word64 × Word64} (hrow : row ∈ tableRows)
    (hother : other ∈ tableRows) (h : opcodeOf row.2.1 = opcodeOf other.2.1) : row = other := by
  have nodup : (tableRows.map fun row => (opcodeOf row.2.1).toNat).Nodup := by
    rw [row_opcodes]
    decide
  exact List.inj_on_of_nodup_map nodup hrow hother (congrArg BitVec.toNat h)

/-- A word matches a row when it has the row's opcode and every reserved bit of the row is 0. -/
theorem matches_iff {w : Word64} {row : String × Word64 × Word64} (hrow : row ∈ tableRows) :
    Matches w row ↔ opcodeOf w = opcodeOf row.2.1 ∧ w &&& reservedMask row = 0#64 := by
  obtain ⟨mask_eq, match_opcode, match_reserved⟩ := row_masks row hrow
  rw [Matches, opcodeOf_eq_iff, mask_eq, and_or_eq_iff match_opcode match_reserved, match_opcode]

/-- The reserved opcodes are those of no row (R52, R66). -/
theorem reservedOpcode_iff {w : Word64} :
    ReservedOpcode (opcodeOf w).toNat ↔ ∀ row ∈ tableRows, opcodeOf w ≠ opcodeOf row.2.1 := by
  have listed : (∀ row ∈ tableRows, opcodeOf w ≠ opcodeOf row.2.1) ↔
      (opcodeOf w).toNat ∉ tableRows.map fun row => (opcodeOf row.2.1).toNat := by
    simp only [List.mem_map, BitVec.toNat_inj, not_exists, not_and, ne_eq, eq_comm]
  rw [listed, row_opcodes]
  simp only [ReservedOpcode, List.mem_append, List.mem_range'_1, List.mem_cons, List.not_mem_nil,
    or_false]
  omega

/-! ## The decoder over the rows -/

/-- A word with the opcode of a row is that row's command if the row's reserved bits are clear. -/
theorem decode_of_row {w : Word64} {row : String × Word64 × Word64} (hrow : row ∈ tableRows)
    (h : opcodeOf w = opcodeOf row.2.1) :
    ∃ i, i.mnemonic = row.1 ∧ decode w = accept (decide (w &&& reservedMask row = 0#64)) i := by
  have code : (opcodeOf w).toNat = (opcodeOf row.2.1).toNat := by rw [h]
  simp only [tableRows, List.cons_append, List.nil_append, List.mem_cons, List.not_mem_nil,
    or_false] at hrow
  rcases hrow with rfl | rfl | rfl | rfl | rfl | rfl | rfl | rfl | rfl | rfl | rfl | rfl | rfl | rfl |
    rfl | rfl | rfl | rfl | rfl | rfl | rfl
  all_goals
    simp only [decode, code, decodeFN, decodeFT, decodeFB, decodeFM, decodeFW, decodeFDB, decodeFDD,
      decodeFE, decodeFS, ↓clear_and_clear_eq_mask, clear_eq_mask]
    exact ⟨_, rfl, rfl⟩

/-- A word whose opcode is in no row is refused for its opcode (R66). -/
theorem decode_of_no_row {w : Word64} (h : ∀ row ∈ tableRows, opcodeOf w ≠ opcodeOf row.2.1) :
    decode w = .error .reservedOpcode := by
  have reserved := reservedOpcode_iff.2 h
  unfold ReservedOpcode at reserved
  unfold decode
  split
  case h_22 => rfl
  all_goals omega

/-- A word that matches a row is a command with the row's mnemonic (R53). -/
theorem decode_of_matches {w : Word64} {row : String × Word64 × Word64} (hrow : row ∈ tableRows)
    (h : Matches w row) : ∃ i, decode w = .ok i ∧ i.mnemonic = row.1 := by
  obtain ⟨hopc, hres⟩ := (matches_iff hrow).1 h
  obtain ⟨i, name, hi⟩ := decode_of_row hrow hopc
  exact ⟨i, by rw [hi, accept, if_pos (decide_eq_true hres)], name⟩

/-- A word that has the opcode of a row and does not match it is refused for a reserved bit (R66). -/
theorem decode_of_not_matches {w : Word64} {row : String × Word64 × Word64} (hrow : row ∈ tableRows)
    (hopc : opcodeOf w = opcodeOf row.2.1) (h : ¬ Matches w row) :
    decode w = .error .reservedBit := by
  have hres : ¬ w &&& reservedMask row = 0#64 := fun hres => h ((matches_iff hrow).2 ⟨hopc, hres⟩)
  obtain ⟨i, -, hi⟩ := decode_of_row hrow hopc
  rw [hi, accept, if_neg (by simpa using hres)]

/-- The decoder's three answers: a word matches a row, or it has the opcode of a row and a reserved bit,
or its opcode is in no row (R53, R66). -/
theorem decode_cases (w : Word64) :
    (∃ row ∈ tableRows, Matches w row ∧ ∃ i, decode w = .ok i) ∨
      (∃ row ∈ tableRows, opcodeOf w = opcodeOf row.2.1 ∧ ¬ Matches w row ∧
        decode w = .error .reservedBit) ∨
      ((∀ row ∈ tableRows, opcodeOf w ≠ opcodeOf row.2.1) ∧
        decode w = .error .reservedOpcode) := by
  by_cases h : ∃ row ∈ tableRows, opcodeOf w = opcodeOf row.2.1
  · obtain ⟨row, hrow, hopc⟩ := h
    by_cases hm : Matches w row
    · obtain ⟨i, hi, -⟩ := decode_of_matches hrow hm
      exact .inl ⟨row, hrow, hm, i, hi⟩
    · exact .inr (.inl ⟨row, hrow, hopc, hm, decode_of_not_matches hrow hopc hm⟩)
  · push Not at h
    exact .inr (.inr ⟨h, decode_of_no_row h⟩)

/-! ## Encoded commands are legal -/

/-- A field above the operands of an encoded command and below its opcode is clear. -/
theorem clear_encode_of_lt {i : Instr} {lo len : Nat} (fits : lo + len = 56)
    (h : i.payload.toNat < 2 ^ lo) : clear (encode i) lo len = true := by
  have word : (encode i).toNat = i.payload.toNat + 2 ^ lo * (i.opcode.toNat * 2 ^ len) := by
    have high : 2 ^ 56 = 2 ^ lo * 2 ^ len := by rw [← pow_add, fits]
    rw [encode_toNat, high]
    ring
  rw [clear_eq_decide, word, Nat.add_mul_div_left _ _ (by positivity), Nat.div_eq_of_lt h]
  simp

theorem accept_ok {c : Bool} (h : c = true) (i : Instr) : ∃ j, accept c i = .ok j :=
  ⟨i, by rw [accept, if_pos h]⟩

/-- Reserved bits 19:17 of an encoded `DSP_CFG_DOT_BLINK` (R62). -/
theorem clear_encode_dspCfgDotBlink (digit : BitVec 4) (divisor : BitVec 16) (en : Bool) :
    clear (encode (.dspCfgDotBlink digit divisor en)) 17 3 = true := by
  have := en.toNat_lt
  rw [clear_eq_decide, encode_toNat, payload_dspCfgDotBlink, decide_eq_true_iff]
  omega

/-- Reserved bits 15:1 of an encoded `EDG_SAMPLE` (R63). -/
theorem clear_encode_edgSample (idx : BitVec 4) (smp : Bool) :
    clear (encode (.edgSample idx smp)) 1 15 = true := by
  have := smp.toNat_lt
  rw [clear_eq_decide, encode_toNat, payload_edgSample, decide_eq_true_iff]
  omega

/-- Reserved bits 7:4 of an encoded `FSM_STEP` (R64). -/
theorem clear_encode_fsmStep (btn : Buttons) (eet eea xa : Bool) :
    clear (encode (.fsmStep btn eet eea xa)) 4 4 = true := by
  rw [clear_eq_decide, encode_toNat, payload_fsmStep, decide_eq_true_iff]
  omega

/-- An encoded command is legal, whatever its operands are (R66). -/
theorem decode_encode_ok (i : Instr) : ∃ j, decode (encode i) = .ok j := by
  have code : (opcodeOf (encode i)).toNat = i.opcode.toNat :=
    congrArg BitVec.toNat (Laws.encodedOpcode i)
  cases i
  all_goals
    simp only [decode, code, Instr.opcode]
    apply accept_ok
  case clkSetAlarmEnabled b =>
    exact clear_encode_of_lt rfl (by rw [payload_clkSetAlarmEnabled]; exact b.toNat_lt)
  case clkPostponeMinutes n =>
    exact clear_encode_of_lt rfl (by rw [payload_clkPostponeMinutes]; exact n.isLt)
  case dspWriteBcd size v =>
    exact clear_encode_of_lt rfl (by rw [payload_dspWriteBcd]; omega)
  case dspCfgDigitBlink first last divisor =>
    exact clear_encode_of_lt rfl (by rw [payload_dspCfgDigitBlink]; omega)
  case dspCfgDotBlink digit divisor en =>
    have := en.toNat_lt
    exact Bool.and_eq_true_iff.2
      ⟨clear_encode_of_lt rfl (by rw [payload_dspCfgDotBlink]; omega), clear_encode_dspCfgDotBlink ..⟩
  case edgSample idx smp =>
    have := smp.toNat_lt
    exact Bool.and_eq_true_iff.2
      ⟨clear_encode_of_lt rfl (by rw [payload_edgSample]; omega), clear_encode_edgSample ..⟩
  case fsmStep btn eet eea xa =>
    have := eet.toNat_lt
    have := eea.toNat_lt
    have := xa.toNat_lt
    exact Bool.and_eq_true_iff.2
      ⟨clear_encode_of_lt rfl (by rw [payload_fsmStep]; omega), clear_encode_fsmStep ..⟩
  case clkSetTime t | clkSetAlarm t | bcdIncMin t | bcdDecMin t | bcdIncHr t | bcdDecHr t =>
    exact clear_encode_of_lt rfl ((payload_clkSetTime t).trans_lt (packTime t).isLt)
  all_goals exact clear_encode_of_lt rfl (by decide)

/-! ## The illegal word on the command port -/

/-- The whole effect of an illegal word that the HOST presents (R45, R66). -/
theorem step_of_illegal {w : Word64} {e : DecodeError} {s : State} {l : List Ports}
    (h : decode w = .error e) (hs : s.inbox = { cmd := some w } :: l) :
    step s = .next { s with inbox := l, resp := 0x8000000000000000, rsp := 0x8000000000000000 } := by
  have request : nextRequest s.inbox = (some (.command w), l) := by
    rw [hs]
    exact nextRequest_command l rfl rfl rfl rfl
  have answer : Response.word { ill := true } = 0x8000000000000000 := by decide
  rw [step_of_request request, serve, runWord_error _ h, illegal, respond, answer]
  rfl

/-! ## The statements -/

/-- Settles O3: a matching row has the word's opcode, which is no other row's. -/
theorem decodingFollowsTheOpcodeTable : Obligations.DecodingFollowsTheOpcodeTable := by
  intro w
  refine ⟨fun row hrow h => decode_of_matches hrow h, fun unmatched => ?_,
    fun row hrow other hother h h' => ?_⟩
  · obtain ⟨row, hrow, h, -⟩ | ⟨_, -, -, -, h⟩ | ⟨-, h⟩ := decode_cases w
    · exact absurd h (unmatched row hrow)
    · exact ⟨_, h⟩
    · exact ⟨_, h⟩
  · obtain ⟨hopc, -⟩ := (matches_iff hrow).1 h
    obtain ⟨hopc', -⟩ := (matches_iff hother).1 h'
    exact row_eq_of_opcodeOf_eq hrow hother (hopc.symm.trans hopc')

/-- Settles O6: the decoder's three answers are exclusive, and an encoded command has no reserved bit. -/
theorem illegalWordOnlyAnswersIll : Obligations.IllegalWordOnlyAnswersIll := by
  refine ⟨fun i e h => ?_, fun w => ⟨?_, ?_, fun e s l => step_of_illegal⟩⟩
  · obtain ⟨j, hj⟩ := decode_encode_ok i
    cases hj.symm.trans h
  · rw [reservedOpcode_iff]
    refine ⟨fun h => ?_, decode_of_no_row⟩
    obtain ⟨_, -, -, _, h'⟩ | ⟨_, -, -, -, h'⟩ | ⟨unlisted, -⟩ := decode_cases w
    · cases h'.symm.trans h
    · cases h'.symm.trans h
    · exact unlisted
  · refine ⟨fun h => ?_, fun ⟨row, hrow, hopc, hm⟩ => decode_of_not_matches hrow hopc hm⟩
    obtain ⟨_, -, -, _, h'⟩ | ⟨row, hrow, hopc, hm, -⟩ | ⟨-, h'⟩ := decode_cases w
    · cases h'.symm.trans h
    · exact ⟨row, hrow, hopc, hm⟩
    · cases h'.symm.trans h

end Sys2Proof.Encoding
end

section
/-! The clock engine's commands (R73, R74, R76 to R78, R80 to R84) and the editing helpers (R85 to R88):
each command as one operation over the registers it writes and one answer, then the statements, by the
cases of that operation. -/

namespace Sys2Proof.Clock

open Sys2Proof Sys2Proof.Machine Sys2Proof.Stated

/-! ## Each command as its operation and its answer (R55) -/

section

variable (t : BcdTime) (b : Bool) (n : BitVec 8) (s : State)

theorem exec_clkGetTime :
    exec .clkGetTime s = .next { s with resp := timeResAnswer s.clk.cur s.clk.valid } := rfl

theorem exec_clkSetTime :
    exec (.clkSetTime t) s =
      .next { s with clk := clkSetTime t s.clk, resp := resAnswer (clkSetTime t s.clk).valid } := rfl

theorem exec_clkSetAlarm :
    exec (.clkSetAlarm t) s =
      .next { s with clk := clkSetAlarm t s.clk, resp := resAnswer true } := rfl

theorem exec_clkGetAlarm :
    exec .clkGetAlarm s = .next { s with resp := timeResAnswer s.clk.alarm s.clk.valid } := rfl

theorem exec_clkAlarmIsRinging :
    exec .clkAlarmIsRinging s =
      .next { s with clk := clkAlarmIsRinging s.clk,
                     resp := resAnswer (clkAlarmIsRinging s.clk).ring } := rfl

theorem exec_clkSetAlarmEnabled :
    exec (.clkSetAlarmEnabled b) s =
      .next { s with clk := clkSetAlarmEnabled b s.clk, resp := noFields } := rfl

theorem exec_clkPostponeAlarm :
    exec .clkPostponeAlarm s =
      .next { s with clk := clkPostponeAlarm s.clk, resp := noFields } := rfl

theorem exec_clkPostponeMinutes :
    exec (.clkPostponeMinutes n) s =
      .next { s with clk := (clkPostponeMinutes n s.clk).1,
                     resp := resAnswer (clkPostponeMinutes n s.clk).2 } := rfl

theorem exec_clkPostponeOneDay :
    exec .clkPostponeOneDay s =
      .next { s with clk := clkPostponeOneDay s.clk, resp := noFields } := rfl

theorem exec_clkResetAlarm :
    exec .clkResetAlarm s = .next { s with clk := clkResetAlarm s.clk, resp := noFields } := rfl

theorem exec_bcdIncMin :
    exec (.bcdIncMin t) s = .next { s with resp := timeAnswer (bcdIncMin t) } := rfl

theorem exec_bcdDecMin :
    exec (.bcdDecMin t) s = .next { s with resp := timeAnswer (bcdDecMin t) } := rfl

theorem exec_bcdIncHr :
    exec (.bcdIncHr t) s = .next { s with resp := timeAnswer (bcdIncHr t) } := rfl

theorem exec_bcdDecHr :
    exec (.bcdDecHr t) s = .next { s with resp := timeAnswer (bcdDecHr t) } := rfl

end

/-! ## The value each editing helper and postponement writes -/

section

variable (t : BcdTime)

/-- Minutes one higher, 59 and above to 00 (R71, R85). -/
theorem bcdIncMin_eq :
    bcdIncMin t = withMinutes t (if 59 ≤ minutes t then 0 else minutes t + 1) := by
  rw [bcdIncMin, wrapInc_fst]

/-- Minutes one lower, 00 and everything above 59 to 59 (R71, R86). -/
theorem bcdDecMin_eq :
    bcdDecMin t =
      withMinutes t (if minutes t = 0 ∨ 59 < minutes t then 59 else minutes t - 1) := by
  rw [bcdDecMin, wrapDec]

/-- Hours one higher, 23 and above to 00 (R71, R87). -/
theorem bcdIncHr_eq : bcdIncHr t = withHours t (if 23 ≤ hours t then 0 else hours t + 1) := by
  rw [bcdIncHr, wrapInc_fst]

/-- Hours one lower, 00 and everything above 23 to 23 (R71, R88). -/
theorem bcdDecHr_eq :
    bcdDecHr t = withHours t (if hours t = 0 ∨ 23 < hours t then 23 else hours t - 1) := by
  rw [bcdDecHr, wrapDec]

end

/-- The fields of a minute count's time add up to the count (R82). -/
theorem timeOfMinutes_count {f : Nat} (h : f < 1440) :
    hours (timeOfMinutes f) * 60 + minutes (timeOfMinutes f) = f := by
  obtain ⟨-, -, hm, hh⟩ := timeOfMinutes_fields h
  rw [hm, hh, Nat.div_add_mod']

/-! ## The statements -/

/-- Settles O27: a legal amount writes the time of a minute count below 1440, and such a time is valid
and reads as its count. -/
theorem postponeMinutesMovesTheBaseline : Obligations.PostponeMinutesMovesTheBaseline := by
  intro n s
  have count := minuteCount_lt s.clk.cur n.toNat
  rw [exec_clkPostponeMinutes]
  obtain ⟨rejected, h⟩ | ⟨⟨low, high⟩, h⟩ := clkPostponeMinutes_cases n s.clk
  · rw [h]
    exact ⟨rfl, fun _ => rfl, fun _ _ => by omega⟩
  · rw [h]
    obtain ⟨valid, second, -, -⟩ := timeOfMinutes_fields count
    exact ⟨rfl, fun _ => by omega, fun _ _ => ⟨_, rfl, valid, second, timeOfMinutes_count count⟩⟩

/-- Settles O18: each helper answers the value it writes and touches no register. -/
theorem bcdHelpersAnswerTheEditedTime : Obligations.BcdHelpersAnswerTheEditedTime := by
  intro t s
  refine ⟨⟨rfl, rfl, rfl, rfl⟩, ?_, ?_, ?_, ?_⟩
  · rw [exec_bcdIncMin, bcdIncMin_eq]
  · rw [exec_bcdDecMin, bcdDecMin_eq]
  · rw [exec_bcdIncHr, bcdIncHr_eq]
  · rw [exec_bcdDecHr, bcdDecHr_eq]

/-- Settles O19: both commands only answer. -/
theorem getTimeAndGetAlarmOnlyRead : Obligations.GetTimeAndGetAlarmOnlyRead := fun s =>
  ⟨by decide, by decide, exec_clkGetTime s, exec_clkGetAlarm s⟩

/-- Settles O20, by the two cases of `clk_set_time`. -/
theorem setTimeStoresOnlyValidTimes : Obligations.SetTimeStoresOnlyValidTimes := by
  intro t s
  rw [exec_clkSetTime]
  obtain ⟨valid, h⟩ | ⟨invalid, h⟩ := clkSetTime_cases t s.clk
  · rw [h]
    exact ⟨rfl, fun _ => rfl, fun invalid => by simp [valid] at invalid⟩
  · rw [h]
    exact ⟨rfl, fun valid => by simp [invalid] at valid, fun _ => rfl⟩

/-- Settles O23: the operand is stored without a check. -/
theorem setAlarmAndSetAlarmEnabled : Obligations.SetAlarmAndSetAlarmEnabled := fun t b s =>
  ⟨rfl, rfl, exec_clkSetAlarm t s, exec_clkSetAlarmEnabled b s⟩

/-- Settles O24, by the three cases of `clk_alarm_is_ringing`, which are exclusive. -/
theorem ringingComparesWithTheBaseline : Obligations.RingingComparesWithTheBaseline := by
  intro s
  have encoded : encode .clkAlarmIsRinging = 0x1500000000000000 := by decide
  rw [exec_clkAlarmIsRinging]
  obtain ⟨hit, enabled, h⟩ | ⟨hit, disabled, h⟩ | ⟨differs, h⟩ := clkAlarmIsRinging_cases s.clk
  · rw [h]
    exact ⟨encoded, fun _ _ => rfl, fun _ disabled => by simp [enabled] at disabled,
      fun differs => absurd hit differs⟩
  · rw [h]
    exact ⟨encoded, fun _ enabled => by simp [disabled] at enabled, fun _ _ => rfl,
      fun differs => absurd hit differs⟩
  · rw [h]
    exact ⟨encoded, fun hit => absurd hit differs, fun hit => absurd hit differs, fun _ => rfl⟩

/-- Settles O26, by the carry of `add_minute` out of the minutes. -/
theorem postponeAlarmAddsOneMinute : Obligations.PostponeAlarmAddsOneMinute := by
  intro s
  refine ⟨by decide, fun below => ?_, fun carry => ?_⟩
  · rw [exec_clkPostponeAlarm, clkPostponeAlarm, addMinute_of_lt below]
  · rw [exec_clkPostponeAlarm, clkPostponeAlarm, addMinute_of_le carry]

/-- Settles O28: both commands write constants and the configured alarm. -/
theorem postponeOneDayAndResetAlarm : Obligations.PostponeOneDayAndResetAlarm := fun s =>
  ⟨by decide, by decide, exec_clkPostponeOneDay s, exec_clkResetAlarm s⟩

end Sys2Proof.Clock
end

section
/-! The display engine's commands (R93, R94, R96, R99, R100): each command as one operation over the
display's registers and one answer, then the statements, by the cases of that operation. -/

namespace Sys2Proof.Display

open Sys2Proof Sys2Proof.Machine Sys2Proof.Stated

/-! ## Each command as its operation and its answer (R55) -/

section

variable (s : State)

theorem exec_dspWriteBcd (size : BitVec 4) (v : Vector Nibble 8) :
    exec (.dspWriteBcd size v) s =
      .next { s with dsp := (dspWriteBcd s.cfg size v s.dsp).1,
                     resp := resAnswer (dspWriteBcd s.cfg size v s.dsp).2 } := rfl

theorem exec_dspCfgDigitBlink (first last : BitVec 4) (divisor : BitVec 16) :
    exec (.dspCfgDigitBlink first last divisor) s =
      .next { s with dsp := (dspCfgDigitBlink s.digits first last divisor s.dsp).1,
                     resp := resAnswer (dspCfgDigitBlink s.digits first last divisor s.dsp).2 } :=
  rfl

theorem exec_dspCfgDotBlink (digit : BitVec 4) (divisor : BitVec 16) (en : Bool) :
    exec (.dspCfgDotBlink digit divisor en) s =
      .next { s with dsp := (dspCfgDotBlink s.digits digit divisor en s.dsp).1,
                     resp := resAnswer (dspCfgDotBlink s.digits digit divisor en s.dsp).2 } := rfl

end

/-! ## The registers that each operation writes -/

/-- The call is rejected exactly when a value above 9 is among those it would write (R93). -/
theorem badValues_iff_written (size : BitVec 4) (v : Vector Nibble 8) (s : State) :
    badValues (min size.toNat (digitCount s.cfg)) v = true ↔
      ∃ i : Fin 8, written s size i ∧ 9 < (v.get i).toNat := badValues_iff _ v

/-- No entry above the display's digits is written (R93). -/
theorem not_written_of_digits_le {s : State} (size : BitVec 4) {d : Fin 8}
    (h : s.digits ≤ d.val) : ¬ written s size d := by
  unfold written
  omega

/-- A refresh moves the cursor and, when it becomes 0, the phases (R94). -/
theorem dspAfterRefresh_eq (n : Nat) (x : Dsp) :
    dspAfterRefresh n x =
      if nextDigit n x = 0 then advancePhases n { x with cur := nextDigit n x }
      else { x with cur := nextDigit n x } := rfl

/-- An armed dot's phase advances modulo its period (R96). -/
theorem advance_ph_of_armed {x : Dot} (hen : x.en = true) (hper : x.per ≠ 0) :
    x.advance.ph.toNat = (x.ph.toNat + 1) % x.per.toNat := by
  rw [Dot.advance_ph, if_pos ⟨hen, hper⟩, nextPhase_toNat hper]

/-- A disabled dot and one with period 0 keep their phase (R96). -/
theorem advance_ph_of_not_armed {x : Dot} (h : x.en = false ∨ x.per = 0) :
    x.advance.ph = x.ph := by
  have unarmed : ¬ (x.en = true ∧ x.per ≠ 0) := fun ⟨hen, hper⟩ =>
    h.elim (fun off => by simp [off] at hen) hper
  rw [Dot.advance_ph, if_neg unarmed]

theorem advancePhases_dot_of_lt {n : Nat} (x : Dsp) {k : Fin 8} (h : k.val < n) :
    (advancePhases n x).dots.get k = (x.dots.get k).advance := by
  rw [advancePhases_dot, if_pos h]

theorem advancePhases_dot_of_le {n : Nat} (x : Dsp) {k : Fin 8} (h : n ≤ k.val) :
    (advancePhases n x).dots.get k = x.dots.get k := by
  rw [advancePhases_dot, if_neg (Nat.not_lt.2 h)]

/-- A digit of the display is written at its own place in the array (R100). -/
theorem eq_slot_digitReg_iff {digit : BitVec 4} (h : digit.toNat < 8) (k : Fin 8) :
    k = slot (digitReg digit) ↔ k.val = digit.toNat := by
  rw [Fin.ext_iff, slot_val, digitReg_toNat h]

/-! ## The statements -/

/-- Settles O30, by the two cases of `dsp_write_bcd`: a loaded value has a table entry because the
vector was not rejected. -/
theorem writeBcdLoadsOrRejects : Obligations.WriteBcdLoadsOrRejects := by
  intro size v s
  rw [exec_dspWriteBcd]
  obtain ⟨bad, h⟩ | ⟨good, g, h, loaded⟩ := dspWriteBcd_cases s.cfg size v s.dsp
  · obtain ⟨i, hi, above⟩ := (badValues_iff_written size v s).1 bad
    rw [h]
    exact ⟨rfl, fun _ => rfl, fun ok => absurd (ok i hi) (Nat.not_le.2 above)⟩
  · rw [h]
    refine ⟨rfl, fun bad => ?_, fun ok =>
      ⟨g, rfl, fun d => ⟨fun hd => ?_, fun hd hn => ?_, fun hn => ?_⟩⟩⟩
    · simp [(badValues_iff_written size v s).2 bad] at good
    · obtain ⟨p, entry, pattern⟩ := segPattern_of_le (c := s.cfg) (ok d hd)
      exact ⟨p, entry, (loaded d).trans ((if_pos hd).trans pattern)⟩
    · exact (loaded d).trans ((if_neg hd).trans (if_pos hn))
    · exact (loaded d).trans
        ((if_neg (not_written_of_digits_le size hn)).trans (if_neg (Nat.not_lt.2 hn)))

/-- Settles O31: the pattern shown is that of the registers after the cursor and the phases have moved
(D19). -/
theorem refreshLightsTheNextDigit : Obligations.RefreshLightsTheNextDigit := fun s =>
  ⟨by decide, nextDigit s.digits s.dsp, dspAfterRefresh s.digits s.dsp, _,
    nextDigit_toNat s.dsp (digits_pos s) (digits_le s), dspAfterRefresh_eq s.digits s.dsp,
    patternOf_dp _ _, fun _ => patternOf_segment _ _, exec_dspRefresh s⟩

/-- Settles O32, counter by counter; a dot at or above `DSP.n` keeps its descriptor, one below it
advances if it is armed. -/
theorem phasesAdvanceModuloTheirPeriods : Obligations.PhasesAdvanceModuloTheirPeriods := by
  intro n x
  refine ⟨fun blinks => ?_, fun still => ?_, ⟨rfl, rfl, rfl, rfl, rfl⟩, fun k => ?_⟩
  · rw [advancePhases_bph, if_pos blinks, nextPhase_toNat blinks]
  · rw [advancePhases_bph, if_neg (not_not.2 still)]
  · obtain hk | hk := Nat.lt_or_ge k.val n
    · rw [advancePhases_dot_of_lt x hk]
      refine ⟨Dot.advance_per _, Dot.advance_en _, fun _ => advance_ph_of_armed, fun idle => ?_⟩
      exact advance_ph_of_not_armed (idle.resolve_left (Nat.not_le.2 hk))
    · rw [advancePhases_dot_of_le x hk]
      exact ⟨rfl, rfl, fun below => absurd below (Nat.not_lt.2 hk), fun _ => rfl⟩

/-- Settles O34, by the two cases of `dsp_cfg_digit_blink`: an index it accepts fits its register. -/
theorem digitBlinkIsProgrammedOrRejected : Obligations.DigitBlinkIsProgrammedOrRejected := by
  intro first last divisor s
  rw [exec_dspCfgDigitBlink]
  obtain ⟨bad, h⟩ | ⟨⟨ordered, fits⟩, h⟩ :=
    dspCfgDigitBlink_cases s.digits first last divisor s.dsp
  · rw [h]
    exact ⟨rfl, fun _ => rfl, fun _ _ => by omega⟩
  · have n_le := digits_le s
    rw [h]
    exact ⟨rfl, fun _ => by omega, fun _ _ =>
      ⟨_, _, _, digitReg_toNat (by omega), digitReg_toNat (by omega), period_toNat divisor, rfl⟩⟩

/-- Settles O35, by the two cases of `dsp_cfg_dot_blink`. -/
theorem dotBlinkIsProgrammedOrRejected : Obligations.DotBlinkIsProgrammedOrRejected := by
  intro digit divisor en s
  rw [exec_dspCfgDotBlink]
  obtain ⟨above, h⟩ | ⟨below, g, h, dots⟩ :=
    dspCfgDotBlink_cases s.digits digit divisor en s.dsp
  · rw [h]
    exact ⟨rfl, fun _ => rfl, fun below => absurd above (Nat.not_le.2 below)⟩
  · have place := eq_slot_digitReg_iff (below.trans_le (digits_le s))
    rw [h]
    refine ⟨rfl, fun above => absurd above (Nat.not_le.2 below), fun _ =>
      ⟨g, period divisor, period_toNat divisor, rfl, fun k => ⟨fun hk => ?_, fun hk => ?_⟩⟩⟩
    · rw [dots, if_pos ((place k).2 hk)]
    · rw [dots, if_neg (mt (place k).1 hk)]

end Sys2Proof.Display
end

section
/-! The edge detectors (R104, R105): the edge code of two samples, the two cases of `EDG_SAMPLE` by its
index, and the predicates over a response word, then the statements. -/

namespace Sys2Proof.Edge

open Sys2Proof Sys2Proof.Machine Sys2Proof.Stated

/-! ## The edge of two samples (R104) -/

@[simp] theorem edgeCode_activated : edgeCode false true = 1 := rfl

@[simp] theorem edgeCode_deactivated : edgeCode true false = 2 := rfl

@[simp] theorem edgeCode_unchanged (b : Bool) : edgeCode b b = 0 := by
  cases b <;> rfl

/-- `Activated` is reported exactly on a change to active. -/
theorem edgeCode_eq_one_iff (stored smp : Bool) :
    edgeCode stored smp = 1 ↔ smp = true ∧ stored = false := by
  cases stored <;> cases smp <;> decide

/-- `Deactivated` is reported exactly on a change to inactive. -/
theorem edgeCode_eq_two_iff (stored smp : Bool) :
    edgeCode stored smp = 2 ↔ smp = false ∧ stored = true := by
  cases stored <;> cases smp <;> decide

/-! ## The stored samples -/

/-- Storing a sample writes its own detector and no other (R104). -/
theorem get_set_edg (x : Vector Bool edgeN) (k j : Fin 6) (smp : Bool) :
    (x.set k.val smp).get j = if j = k then smp else x.get j := by
  simp only [Vector.get_eq_getElem, Vector.getElem_set, Fin.ext_iff, eq_comm (a := k.val)]

/-! ## `EDG_SAMPLE` by its index (R104) -/

/-- The index of a detector stores the sample and answers its edge. -/
theorem exec_edgSample_of_detector {idx : BitVec 4} {k : Fin 6} (h : idx.toNat = k.val) (smp : Bool)
    (s : State) :
    exec (.edgSample idx smp) s =
      .next { s with edg := s.edg.set k.val smp,
                     resp := Response.word { res := true, edge := edgeCode (s.edg.get k) smp } } := by
  simp only [exec, execEdgSample, h]
  exact dif_pos k.isLt

/-- The index of no detector only answers `RES = FAIL` (D23). -/
theorem exec_edgSample_of_no_detector {idx : BitVec 4} (h : 6 ≤ idx.toNat) (smp : Bool) (s : State) :
    exec (.edgSample idx smp) s = .next { s with resp := resAnswer false } := by
  simp only [exec, execEdgSample]
  exact dif_neg (Nat.not_lt.2 h)

/-! ## The predicates over a response (R105) -/

theorem wasActivated_word_iff (r : Response) :
    wasActivated r.word = true ↔ r.res = true ∧ r.edge = 1 := by
  simp only [wasActivated, resBit_word, edgeField_word, Bool.and_eq_true, decide_eq_true_eq]

theorem wasDeactivated_word_iff (r : Response) :
    wasDeactivated r.word = true ↔ r.res = true ∧ r.edge = 2 := by
  simp only [wasDeactivated, resBit_word, edgeField_word, Bool.and_eq_true, decide_eq_true_eq]

/-- The response of a legal sample was an activation when the input became active. -/
theorem wasActivated_sample (stored smp : Bool) :
    wasActivated (Response.word { res := true, edge := edgeCode stored smp }) = (smp && !stored) := by
  rw [Bool.eq_iff_iff, wasActivated_word_iff, edgeCode_eq_one_iff, Bool.and_eq_true,
    Bool.not_eq_true']
  exact and_iff_right rfl

/-- The response of a legal sample was a deactivation when the input became inactive. -/
theorem wasDeactivated_sample (stored smp : Bool) :
    wasDeactivated (Response.word { res := true, edge := edgeCode stored smp }) =
      (!smp && stored) := by
  rw [Bool.eq_iff_iff, wasDeactivated_word_iff, edgeCode_eq_two_iff, Bool.and_eq_true,
    Bool.not_eq_true']
  exact and_iff_right rfl

/-- A failed sample is no activation, whatever its `EDGE` is. -/
theorem wasActivated_of_fail {r : Response} (h : r.res = false) : wasActivated r.word = false := by
  rw [wasActivated, resBit_word, h, Bool.false_and]

/-- A failed sample is no deactivation, whatever its `EDGE` is. -/
theorem wasDeactivated_of_fail {r : Response} (h : r.res = false) :
    wasDeactivated r.word = false := by
  rw [wasDeactivated, resBit_word, h, Bool.false_and]

/-! ## The statements -/

/-- Settles O38, by the two cases of the index. -/
theorem sampleReportsTheEdgeAndIsStored : Obligations.SampleReportsTheEdgeAndIsStored := by
  intro idx smp s
  refine ⟨rfl, fun above => exec_edgSample_of_no_detector above smp s, fun k hk =>
    ⟨_, _, exec_edgSample_of_detector hk smp s, fun active was => ?_, fun inactive was => ?_,
      fun same => ?_, ?_, fun j other => ?_⟩⟩
  · rw [active, was, edgeCode_activated]
  · rw [inactive, was, edgeCode_deactivated]
  · rw [← same, edgeCode_unchanged]
  · rw [get_set_edg, if_pos rfl]
  · rw [get_set_edg, if_neg other]

/-- Settles O39: the fields of a response word read back, and the two cases of the index give the
response. -/
theorem edgePredicatesReadTheResponse : Obligations.EdgePredicatesReadTheResponse := by
  refine ⟨fun r => ⟨wasActivated_word_iff r, wasDeactivated_word_iff r⟩, fun idx smp s => ?_⟩
  obtain below | above := Nat.lt_or_ge idx.toNat 6
  · refine ⟨_, exec_edgSample_of_detector (k := ⟨idx.toNat, below⟩) rfl smp s, fun k hk => ?_,
      fun above => absurd below (Nat.not_lt.2 above)⟩
    obtain rfl : k = ⟨idx.toNat, below⟩ := Fin.ext hk.symm
    exact ⟨wasActivated_sample _ _, wasDeactivated_sample _ _,
      (get_set_edg s.edg _ _ smp).trans (if_pos rfl)⟩
  · exact ⟨_, exec_edgSample_of_no_detector above smp s,
      fun k hk => absurd (hk.symm.trans_ge above) (Nat.not_le.2 k.isLt),
      fun _ => ⟨wasActivated_of_fail rfl, wasDeactivated_of_fail rfl⟩⟩

end Sys2Proof.Edge
end

section
/-! The coordinator's machinery and two of its states: the buttons (R109, R110), the descriptors that are
programmed only on a change (R112), a step in `ShowTime` (R114) and one in `ControlAlarm` (R120), each
step as one next state that names the registers it writes, then the statements. -/

namespace Sys2Proof.Coordinator

open Sys2Proof Sys2Proof.Machine Sys2Proof.Stated

/-! ## The buttons (R109) -/

section

variable {b : Buttons → Bool} (btn tested armed : Buttons)

/-- Each button fires by its own bits. -/
theorem firing_button (hb : b ∈ [Buttons.acc, Buttons.can, Buttons.inc, Buttons.dec]) :
    b (firing btn tested armed) = fires (b btn) (b tested) (b armed) := by
  simp only [List.mem_cons, List.not_mem_nil, or_false] at hb
  obtain rfl | rfl | rfl | rfl := hb <;> rfl

/-- Each latch moves by its own button's bits. -/
theorem latches_button (hb : b ∈ [Buttons.acc, Buttons.can, Buttons.inc, Buttons.dec]) :
    b (latches btn tested armed) = latchAfter (b btn) (b tested) (b armed) := by
  simp only [List.mem_cons, List.not_mem_nil, or_false] at hb
  obtain rfl | rfl | rfl | rfl := hb <;> rfl

end

section

variable (present tested armed : Bool)

@[simp] theorem fires_absent : fires false tested armed = false := rfl

@[simp] theorem fires_present : fires true tested armed = (tested && armed) := rfl

@[simp] theorem latchAfter_absent : latchAfter false tested armed = true := rfl

@[simp] theorem latchAfter_present : latchAfter true tested armed = (armed && !tested) := rfl

end

/-! ## The tested sets (R110) -/

section

variable {s : State}

/-- While the active alarm rings, `ShowTime` tests nothing: the press is left for `ControlAlarm`. -/
theorem testedSet_showTime_ringing (h : s.fsm.state = .showTime)
    (ringing : s.fsm.active = true ∧ s.clk.ring = true) : testedSet s = noButtons := by
  obtain ⟨active, ring⟩ := ringing
  simp only [testedSet, h, ringGuard, active, ring]
  rfl

theorem testedSet_showTime_quiet (h : s.fsm.state = .showTime)
    (quiet : ¬ (s.fsm.active = true ∧ s.clk.ring = true)) : testedSet s = acceptCancel := by
  have guard : ringGuard s.fsm.active s.clk.ring = true := by
    rw [← Bool.and_eq_true, Bool.not_eq_true] at quiet
    rw [ringGuard, quiet, Bool.not_false]
  simp only [testedSet, h, guard, if_true]

theorem testedSet_controlAlarm (h : s.fsm.state = .controlAlarm) : testedSet s = acceptCancel := by
  simp only [testedSet, h]

/-- The other four states edit, and test every button. -/
theorem testedSet_adjust (notShow : s.fsm.state ≠ .showTime)
    (notControl : s.fsm.state ≠ .controlAlarm) : testedSet s = allButtons := by
  cases h : s.fsm.state with
  | showTime => exact absurd h notShow
  | controlAlarm => exact absurd h notControl
  | adjustTimeMinutes | adjustTimeHours | adjustAlarmMinutes | adjustAlarmHours =>
    simp only [testedSet, h]

end

/-! ## Descriptors programmed on a change (R112) -/

/-- A digit register holds an index of the display exactly when it has its value. -/
theorem eq_digitReg_iff {i : BitVec 4} (h : i.toNat < 8) (r : BitVec 3) :
    r = digitReg i ↔ r.toNat = i.toNat := by
  rw [← BitVec.toNat_inj, digitReg_toNat h]

/-- A period register holds a divisor's period exactly when it is twice the divisor (R65). -/
theorem eq_period_iff (p : BitVec 17) (divisor : BitVec 16) :
    p = period divisor ↔ p.toNat = 2 * divisor.toNat := by
  rw [← BitVec.toNat_inj, period_toNat]

section

variable {c : Config} {first last d : BitVec 4} {divisor : BitVec 16} {en : Bool} {x : Dsp}

/-- The window's registers compare as their values, for indices of the display. -/
theorem window_held_iff (ordered : first.toNat ≤ last.toNat) (fits : last.toNat < digitCount c) :
    (x.bfrom = digitReg first ∧ x.bto = digitReg last ∧ x.bper = period divisor) ↔
      x.bfrom.toNat = first.toNat ∧ x.bto.toNat = last.toNat ∧
        x.bper.toNat = 2 * divisor.toNat := by
  have n_le := digitCount_le c
  rw [eq_digitReg_iff (by omega), eq_digitReg_iff (by omega), eq_period_iff]

/-- A window the display already holds is left alone. -/
theorem ensureDigitBlink_of_held
    (held : x.bfrom = digitReg first ∧ x.bto = digitReg last ∧ x.bper = period divisor) :
    ensureDigitBlink c first last divisor x = x := if_pos held

/-- Another window is programmed, its phase cleared. -/
theorem ensureDigitBlink_of_not_held (ordered : first.toNat ≤ last.toNat)
    (fits : last.toNat < digitCount c)
    (change : ¬ (x.bfrom = digitReg first ∧ x.bto = digitReg last ∧ x.bper = period divisor)) :
    ensureDigitBlink c first last divisor x =
      { x with bfrom := digitReg first, bto := digitReg last, bper := period divisor, bph := 0 } := by
  rw [ensureDigitBlink, if_neg change]
  obtain ⟨bad, -⟩ | ⟨-, h⟩ := dspCfgDigitBlink_cases (digitCount c) first last divisor x
  · omega
  · rw [h]

/-- A dot descriptor the display already holds is left alone. -/
theorem ensureDot_of_held
    (held : (x.dots.get (slot (digitReg d))).per = period divisor ∧
      (x.dots.get (slot (digitReg d))).en = en) :
    ensureDot c d divisor en x = x := if_pos held

/-- Another dot descriptor is programmed, its phase cleared, and no other dot is written. -/
theorem ensureDot_of_not_held (fits : d.toNat < digitCount c)
    (change : ¬ ((x.dots.get (slot (digitReg d))).per = period divisor ∧
      (x.dots.get (slot (digitReg d))).en = en)) :
    ∃ g : Vector Dot 8, ensureDot c d divisor en x = { x with dots := g } ∧
      g.get (slot (digitReg d)) = { per := period divisor, en := en, ph := 0 } ∧
        ∀ j : Fin 8, j ≠ slot (digitReg d) → g.get j = x.dots.get j := by
  rw [ensureDot, if_neg change]
  obtain ⟨above, -⟩ | ⟨-, g, h, dots⟩ := dspCfgDotBlink_cases (digitCount c) d divisor en x
  · exact absurd fits (Nat.not_lt.2 above)
  · exact ⟨g, by rw [h], (dots _).trans (if_pos rfl), fun j hj => (dots j).trans (if_neg hj)⟩

end

/-! ## A step in `ShowTime` (R114) -/

/-- The display work of `ShowTime`, the alarm dot last: blinking while the alarm is active, else off. -/
theorem renderShowTime_eq (c : Config) (t : BcdTime) (valid active : Bool) (x : Dsp) :
    renderShowTime c t valid active x =
      ensureDot c 3 (if active then c.fsmDotDiv.val else 0) active
        (ensureDot c 2 0 true (ensureDot c 1 0 true (ensureDot c 0 0 true
          (ensureDigitBlink c 0 3 (if valid then 0 else c.fsmBlinkDiv.val)
            (renderTime c t x))))) := by
  unfold renderShowTime noBlink alarmDot
  cases active with
  | true => rw [if_pos rfl, if_pos rfl]
  | false => rw [if_neg Bool.false_ne_true, if_neg Bool.false_ne_true]

/-- A `ShowTime` step writes the alarm's enable, the display and the coordinator's registers. -/
theorem exec_fsmStep_showTime {s : State} (digits : 4 ≤ s.digits) (h : s.fsm.state = .showTime)
    (btn : Buttons) (eet eea xa : Bool) :
    let f := showTimeFsm s.clk.cur s.clk.alarm (fired btn s) eet eea (latched btn s)
    exec (.fsmStep btn eet eea xa) s =
      .next { s with clk := showTimeClk (activeAfter (fired btn s) s.fsm.active) s.clk,
                     dsp := renderShowTime s.cfg s.clk.cur s.clk.valid s.fsm.active s.dsp,
                     fsm := f,
                     resp := Response.word { state := stateCode f.state, aout := f.alarmOut } } := by
  rw [exec_fsmStep digits, fsmStep_showTime h]
  rfl

/-! ## A step in `ControlAlarm` (R120) -/

/-- A `ControlAlarm` step writes the clock engine and the coordinator's registers, not the display. -/
theorem exec_fsmStep_controlAlarm {s : State} (digits : 4 ≤ s.digits)
    (h : s.fsm.state = .controlAlarm) (btn : Buttons) (eet eea xa : Bool) :
    let aout := (clkAlarmIsRinging s.clk).ring && s.fsm.active && !(fired btn s).acc &&
      !(fired btn s).can
    exec (.fsmStep btn eet eea xa) s =
      .next { s with clk := controlAlarmClk (fired btn s) s.clk,
                     fsm := { latched btn s with alarmOut := aout, state := .showTime },
                     resp := Response.word { state := stateCode .showTime, aout := aout } } := by
  rw [exec_fsmStep digits, fsmStep_controlAlarm h]
  rfl

/-- Accept's part: after the evaluation left `e`, the snooze command runs exactly if Accept fires. -/
theorem exists_after_accept (fire : Buttons) (e : State) :
    ∃ x : State, (fire.acc = true → exec (.clkPostponeMinutes 5) e = .next x) ∧
      (fire.acc = false → x = e) ∧
        x.clk = if fire.acc then (clkPostponeMinutes snoozeMin e.clk).1 else e.clk := by
  cases h : fire.acc with
  | true => exact ⟨_, fun _ => Clock.exec_clkPostponeMinutes 5 e, nofun, rfl⟩
  | false => exact ⟨e, nofun, fun _ => rfl, rfl⟩

/-- Cancel's part: the clock engine that Accept left, postponed by a day exactly if Cancel fires. -/
theorem controlAlarmClk_of_accepted {fire : Buttons} {x y : Clk}
    (accepted : y = if fire.acc then (clkPostponeMinutes snoozeMin (clkAlarmIsRinging x)).1
      else clkAlarmIsRinging x) :
    controlAlarmClk fire x = if fire.can then clkPostponeOneDay y else y := by
  rw [accepted, controlAlarmClk]

/-! ## The statements -/

/-- Settles O40: a button's bits decide its firing and its latch, and the state decides the tested set. -/
theorem buttonsFireOncePerPress : Obligations.ButtonsFireOncePerPress := by
  refine ⟨fun btn tested armed b hb => ?_, fun s => ⟨testedSet_showTime_ringing,
    testedSet_showTime_quiet, testedSet_controlAlarm, testedSet_adjust⟩⟩
  rw [firing_button _ _ _ hb, latches_button _ _ _ hb]
  refine ⟨fun absent => ?_, fun present isTested isArmed => ?_, fun present idle => ?_⟩
  · rw [absent]
    exact ⟨fires_absent _ _, latchAfter_absent _ _⟩
  · rw [present, isTested, isArmed]
    exact ⟨rfl, rfl⟩
  · rw [present, fires_present, latchAfter_present]
    obtain untested | unarmed := idle
    · simp [untested]
    · simp [unarmed]

/-- Settles O43, by whether the display holds the descriptor: for indices of the display its registers
are equal exactly when their values are. -/
theorem ensuredDescriptorsKeepTheirPhase : Obligations.EnsuredDescriptorsKeepTheirPhase := by
  intro c first last d divisor en x ordered fits below
  have n_le := digitCount_le c
  constructor
  · have held_iff := window_held_iff (x := x) (divisor := divisor) ordered fits
    by_cases held : x.bfrom = digitReg first ∧ x.bto = digitReg last ∧ x.bper = period divisor
    · obtain ⟨hfrom, hto, hper⟩ := held_iff.1 held
      rw [ensureDigitBlink_of_held held]
      exact ⟨rfl, hfrom, hto, hper, fun _ _ _ => rfl, fun change => absurd ⟨hfrom, hto, hper⟩ change⟩
    · rw [ensureDigitBlink_of_not_held ordered fits held]
      exact ⟨rfl, digitReg_toNat (by omega), digitReg_toNat (by omega), period_toNat divisor,
        fun hfrom hto hper => absurd (held_iff.2 ⟨hfrom, hto, hper⟩) held, fun _ => rfl⟩
  · intro k hk
    obtain rfl := (Display.eq_slot_digitReg_iff (by omega) k).2 hk
    have period_iff := eq_period_iff (x.dots.get (slot (digitReg d))).per divisor
    by_cases held : (x.dots.get (slot (digitReg d))).per = period divisor ∧
        (x.dots.get (slot (digitReg d))).en = en
    · obtain ⟨hper, hen⟩ := held
      rw [ensureDot_of_held ⟨hper, hen⟩]
      exact ⟨rfl, fun _ _ => rfl, period_iff.1 hper, hen, fun _ _ => rfl,
        fun change => absurd ⟨period_iff.1 hper, hen⟩ change⟩
    · obtain ⟨g, h, programmed, others⟩ := ensureDot_of_not_held below held
      rw [h]
      refine ⟨rfl, others, ?_, ?_, fun hper hen => absurd ⟨period_iff.2 hper, hen⟩ held, fun _ => ?_⟩
      · exact (congrArg (·.per.toNat) programmed).trans (period_toNat divisor)
      · exact congrArg Dot.en programmed
      · exact congrArg Dot.ph programmed

/-- Settles O44: the step's next state, with each unit's work written out line by line. -/
theorem showTimeStep : Obligations.ShowTimeStep := by
  intro btn eet eea xa s digits h
  refine ⟨_, _, _, rfl, rfl, rfl, ?_⟩
  rw [exec_fsmStep_showTime digits h, showTimeClk_eq, renderShowTime_eq, showTimeFsm_eq]
  rfl

/-- Settles O48: the evaluation, then Accept's snooze from what it left, then Cancel's postponement. -/
theorem controlAlarmStep : Obligations.ControlAlarmStep := by
  intro btn eet eea xa s digits h
  obtain ⟨x, accept, noAccept, hx⟩ := exists_after_accept (fired btn s)
    { s with clk := clkAlarmIsRinging s.clk, resp := resAnswer (clkAlarmIsRinging s.clk).ring }
  have clk := controlAlarmClk_of_accepted hx
  refine ⟨_, x, _, Clock.exec_clkAlarmIsRinging s, exec_fsmStep_controlAlarm digits h btn eet eea xa,
    rfl, rfl, accept, noAccept, fun cancel => ?_, fun noCancel => ?_, rfl, rfl, rfl, rfl⟩
  · exact clk.trans (if_pos cancel)
  · exact clk.trans (if_neg (Bool.eq_false_iff.1 noCancel))

end Sys2Proof.Coordinator
end

section
/-! The encoding's two directions (R50 to R64): an encoded command decodes to itself, and a legal word is
its command's encoding, both by comparing words as an opcode byte above a 56-bit payload; then the
response's fields (R54) and the word of a delivered event (R64). -/

namespace Sys2Proof.RoundTrip

open Sys2Proof Sys2Proof.Machine Sys2Proof.Stated

/-! ## What an answer of the decoder says -/

theorem accept_of_exists_ok {c : Bool} {i : Instr} (h : ∃ j, accept c i = .ok j) :
    accept c i = .ok i := by
  obtain ⟨j, hj⟩ := h
  cases c with
  | true => rfl
  | false => cases hj

theorem accept_eq_ok_iff {c : Bool} {i j : Instr} : accept c i = .ok j ↔ c = true ∧ i = j := by
  cases c with
  | true => simp [accept]
  | false => simp [accept]

/-! ## The fields of an encoded command (R56 to R64) -/

section

variable {i : Instr} {lo len : Nat}

/-- A field below the opcode byte is a field of the payload. -/
theorem payload_div (i : Instr) (fits : lo + len ≤ 56) :
    (encode i).toNat / 2 ^ lo % 2 ^ len = i.payload.toNat / 2 ^ lo % 2 ^ len := by
  have split : 2 ^ 56 = 2 ^ lo * (2 ^ len * 2 ^ (56 - lo - len)) := by
    rw [← pow_add, ← pow_add, show lo + (len + (56 - lo - len)) = 56 by omega]
  rw [encode_toNat, split, mul_comm i.opcode.toNat, mul_assoc, Nat.add_comm,
    Nat.add_mul_div_left _ _ (by positivity), mul_assoc, Nat.add_mul_mod_self_left]

theorem extract_encode {x : BitVec len} (fits : lo + len ≤ 56)
    (h : i.payload.toNat / 2 ^ lo % 2 ^ len = x.toNat) : (encode i).extractLsb' lo len = x :=
  field_eq ((payload_div i fits).trans h)

theorem flag_encode {b : Bool} (fits : lo + 1 ≤ 56)
    (h : i.payload.toNat / 2 ^ lo % 2 = b.toNat) : flag (encode i) lo = b :=
  bit_eq ((payload_div (len := 1) i fits).trans h)

theorem unpackTime_encode {t : BcdTime} (h : i.payload.toNat = (packTime t).toNat) :
    unpackTime (encode i) = t := by
  have low := payload_div (lo := 0) (len := 24) i (by omega)
  have fits := (packTime t).isLt
  exact unpackTime_eq (by omega)

theorem unpackValues_encode (size : BitVec 4) (v : Vector Nibble 8) :
    unpackValues (encode (.dspWriteBcd size v)) = v := by
  have low := payload_div (lo := 0) (len := 32) (.dspWriteBcd size v) (by omega)
  have word := payload_dspWriteBcd size v
  exact unpackValues_eq (by omega)

theorem unpackButtons_encode (btn : Buttons) (eet eea xa : Bool) :
    unpackButtons (encode (.fsmStep btn eet eea xa)) = btn := by
  have low := payload_div (lo := 0) (len := 4) (.fsmStep btn eet eea xa) (by omega)
  have word := payload_fsmStep btn eet eea xa
  exact unpackButtons_eq (by omega)

end

/-- Settles O1: an encoded command is legal, so what is left is to read its operands back. -/
theorem encodedCommandDecodesBack : Obligations.EncodedCommandDecodesBack := by
  intro i
  have legal := Encoding.decode_encode_ok i
  have code : (opcodeOf (encode i)).toNat = i.opcode.toNat :=
    congrArg BitVec.toNat (Laws.encodedOpcode i)
  cases i
  all_goals
    simp only [decode, code, Instr.opcode] at legal ⊢
    refine (accept_of_exists_ok legal).trans (congrArg Except.ok ?_)
  case clkSetTime t | clkSetAlarm t | bcdIncMin t | bcdDecMin t | bcdIncHr t | bcdDecHr t =>
    rw [unpackTime_encode]
    exact payload_clkSetTime t
  case clkSetAlarmEnabled b =>
    have word := payload_clkSetAlarmEnabled b
    have := b.toNat_lt
    rw [flag_encode (b := b) (by omega) (by omega)]
  case clkPostponeMinutes n =>
    have word := payload_clkPostponeMinutes n
    rw [extract_encode (x := n) (by omega) (by omega)]
  case dspWriteBcd size v =>
    have word := payload_dspWriteBcd size v
    rw [unpackValues_encode, extract_encode (x := size) (by omega) (by omega)]
  case dspCfgDigitBlink first last divisor =>
    have word := payload_dspCfgDigitBlink first last divisor
    rw [extract_encode (x := first) (by omega) (by omega),
      extract_encode (x := last) (by omega) (by omega),
      extract_encode (x := divisor) (by omega) (by omega)]
  case dspCfgDotBlink digit divisor en =>
    have word := payload_dspCfgDotBlink digit divisor en
    have := en.toNat_lt
    rw [extract_encode (x := digit) (by omega) (by omega), flag_encode (b := en) (by omega) (by omega),
      extract_encode (x := divisor) (by omega) (by omega)]
  case edgSample idx smp =>
    have word := payload_edgSample idx smp
    have := smp.toNat_lt
    rw [extract_encode (x := idx) (by omega) (by omega), flag_encode (b := smp) (by omega) (by omega)]
  case fsmStep btn eet eea xa =>
    have word := payload_fsmStep btn eet eea xa
    have := eet.toNat_lt
    have := eea.toNat_lt
    have := xa.toNat_lt
    rw [unpackButtons_encode, flag_encode (b := eet) (by omega) (by omega),
      flag_encode (b := eea) (by omega) (by omega), flag_encode (b := xa) (by omega) (by omega)]
  all_goals rfl

/-! ## A word that a format accepts is its command's encoding -/

/-- A word with a command's opcode and payload is its encoding (R51). -/
theorem encode_eq_of_parts {w : Word64} {i : Instr} (code : (opcodeOf w).toNat = i.opcode.toNat)
    (payload : i.payload.toNat = w.toNat % 2 ^ 56) : encode i = w := by
  apply BitVec.eq_of_toNat_eq
  rw [opcodeOf_toNat] at code
  rw [encode_toNat]
  omega

section

variable {w : Word64} {i : Instr}

/-- A reserved field that a format accepts is 0 as a number. -/
theorem field_of_clear {lo len : Nat} (h : clear w lo len = true) :
    w.toNat / 2 ^ lo % 2 ^ len = 0 := by
  rwa [clear_eq_decide, decide_eq_true_iff] at h

/-- Format FN: nothing but the opcode (R56). -/
theorem encode_of_decodeFN {j : Instr} (h : decodeFN w j = .ok i)
    (code : (opcodeOf w).toNat = j.opcode.toNat) (empty : j.payload = 0) : encode i = w := by
  obtain ⟨reserved, rfl⟩ := accept_eq_ok_iff.1 h
  have := field_of_clear reserved
  refine encode_eq_of_parts code ?_
  rw [empty]
  show 0 = _
  omega

/-- Format FT: the payload is a time (R57). -/
theorem encode_of_decodeFT {mk : BcdTime → Instr} (h : decodeFT w mk = .ok i)
    (code : (opcodeOf w).toNat = (mk (unpackTime w)).opcode.toNat)
    (packed : (mk (unpackTime w)).payload.toNat = (packTime (unpackTime w)).toNat) :
    encode i = w := by
  obtain ⟨reserved, rfl⟩ := accept_eq_ok_iff.1 h
  have := field_of_clear reserved
  have := packTime_unpackTime w
  exact encode_eq_of_parts code (by omega)

/-- Format FB (R58). -/
theorem encode_of_decodeFB (h : decodeFB w = .ok i) (code : (opcodeOf w).toNat = 0x16) :
    encode i = w := by
  obtain ⟨reserved, rfl⟩ := accept_eq_ok_iff.1 h
  have := field_of_clear reserved
  refine encode_eq_of_parts code ?_
  rw [payload_clkSetAlarmEnabled, toNat_flag]
  omega

/-- Format FM (R59). -/
theorem encode_of_decodeFM (h : decodeFM w = .ok i) (code : (opcodeOf w).toNat = 0x18) :
    encode i = w := by
  obtain ⟨reserved, rfl⟩ := accept_eq_ok_iff.1 h
  have := field_of_clear reserved
  refine encode_eq_of_parts code ?_
  rw [payload_clkPostponeMinutes, field_toNat]
  omega

/-- Format FW (R60). -/
theorem encode_of_decodeFW (h : decodeFW w = .ok i) (code : (opcodeOf w).toNat = 0x20) :
    encode i = w := by
  obtain ⟨reserved, rfl⟩ := accept_eq_ok_iff.1 h
  have := field_of_clear reserved
  refine encode_eq_of_parts code ?_
  rw [payload_dspWriteBcd, packValues_unpackValues, field_toNat]
  omega

/-- Format FDB (R61). -/
theorem encode_of_decodeFDB (h : decodeFDB w = .ok i) (code : (opcodeOf w).toNat = 0x22) :
    encode i = w := by
  obtain ⟨reserved, rfl⟩ := accept_eq_ok_iff.1 h
  have := field_of_clear reserved
  refine encode_eq_of_parts code ?_
  rw [payload_dspCfgDigitBlink, field_toNat, field_toNat, field_toNat]
  omega

/-- Format FDD (R62). -/
theorem encode_of_decodeFDD (h : decodeFDD w = .ok i) (code : (opcodeOf w).toNat = 0x23) :
    encode i = w := by
  obtain ⟨reserved, rfl⟩ := accept_eq_ok_iff.1 h
  obtain ⟨high, low⟩ := Bool.and_eq_true_iff.1 reserved
  have := field_of_clear high
  have := field_of_clear low
  refine encode_eq_of_parts code ?_
  rw [payload_dspCfgDotBlink, field_toNat, field_toNat, toNat_flag]
  omega

/-- Format FE (R63). -/
theorem encode_of_decodeFE (h : decodeFE w = .ok i) (code : (opcodeOf w).toNat = 0x30) :
    encode i = w := by
  obtain ⟨reserved, rfl⟩ := accept_eq_ok_iff.1 h
  obtain ⟨high, low⟩ := Bool.and_eq_true_iff.1 reserved
  have := field_of_clear high
  have := field_of_clear low
  refine encode_eq_of_parts code ?_
  rw [payload_edgSample, field_toNat, toNat_flag]
  omega

/-- Format FS (R64). -/
theorem encode_of_decodeFS (h : decodeFS w = .ok i) (code : (opcodeOf w).toNat = 0x40) :
    encode i = w := by
  obtain ⟨reserved, rfl⟩ := accept_eq_ok_iff.1 h
  obtain ⟨high, low⟩ := Bool.and_eq_true_iff.1 reserved
  have := field_of_clear high
  have := field_of_clear low
  refine encode_eq_of_parts code ?_
  rw [payload_fsmStep, packButtons_unpackButtons, toNat_flag, toNat_flag, toNat_flag]
  omega

end

/-- Settles O2, format by format: the reserved bits are 0 and every other bit is an operand's, so opcode
and payload are those of the word. -/
theorem decodedWordIsItsEncoding : Obligations.DecodedWordIsItsEncoding := by
  intro w i h
  unfold decode at h
  split at h
  case h_2 code | h_4 code | h_12 code | h_13 code | h_14 code | h_15 code =>
    exact encode_of_decodeFT h code (payload_clkSetTime _)
  case h_7 code => exact encode_of_decodeFB h code
  case h_9 code => exact encode_of_decodeFM h code
  case h_16 code => exact encode_of_decodeFW h code
  case h_18 code => exact encode_of_decodeFDB h code
  case h_19 code => exact encode_of_decodeFDD h code
  case h_20 code => exact encode_of_decodeFE h code
  case h_21 code => exact encode_of_decodeFS h code
  case h_22 => cases h
  all_goals exact encode_of_decodeFN h ‹_› rfl

/-- Settles O4: each example is the encoding of the command it stands for. -/
theorem exampleWordsDecode : Obligations.ExampleWordsDecode := by
  have ofEncoding {w : Word64} {i : Instr} (h : encode i = w) : decode w = .ok i :=
    h ▸ encodedCommandDecodesBack i
  refine ⟨ofEncoding ?_, ofEncoding ?_, ofEncoding ?_, ofEncoding ?_, ofEncoding ?_, ofEncoding ?_,
    ofEncoding ?_, ofEncoding ?_, ofEncoding ?_⟩
  all_goals decide

/-! ## Fields of a response -/

/-- Every bit of a field that is 0 is 0. -/
theorem getLsbD_of_field_eq_zero {n : Nat} {w : BitVec n} {lo len k : Nat}
    (h : w.toNat / 2 ^ lo % 2 ^ len = 0) (low : lo ≤ k) (high : k < lo + len) :
    w.getLsbD k = false := by
  have field : w.extractLsb' lo len = 0#len := field_eq (by rw [h]; simp)
  have bit := congrArg (·.getLsbD (k - lo)) field
  simp only [BitVec.getLsbD_extractLsb', BitVec.getLsbD_zero, Nat.add_sub_cancel' low] at bit
  simpa [show k - lo < len by omega] using bit

/-- Settles O5: the response word is the sum of its fields, each below the place of the next. -/
theorem responseFieldsStandWhereNamed : Obligations.ResponseFieldsStandWhereNamed := by
  intro r
  have word := word_toNat r
  have := r.ill.toNat_lt
  have := r.aout.toNat_lt
  have := r.state.isLt
  have := r.dig.isLt
  have := r.edge.isLt
  have := r.res.toNat_lt
  have := r.pat.isLt
  have := (packTime r.time).isLt
  refine ⟨bit_eq ?_, bit_eq ?_, field_eq ?_, field_eq ?_, field_eq ?_, bit_eq ?_, field_eq ?_,
    unpackTime_eq ?_, ?_⟩
  case refine_9 =>
    rintro k (⟨low, high⟩ | rfl | rfl | rfl | rfl | ⟨low, high⟩)
    · exact getLsbD_of_field_eq_zero (lo := 53) (len := 10) (by omega) low (by omega)
    · exact getLsbD_of_field_eq_zero (lo := 51) (len := 1) (by omega) le_rfl (by omega)
    · exact getLsbD_of_field_eq_zero (lo := 47) (len := 1) (by omega) le_rfl (by omega)
    · exact getLsbD_of_field_eq_zero (lo := 42) (len := 1) (by omega) le_rfl (by omega)
    · exact getLsbD_of_field_eq_zero (lo := 43) (len := 1) (by omega) le_rfl (by omega)
    · exact getLsbD_of_field_eq_zero (lo := 33) (len := 7) (by omega) low (by omega)
  all_goals omega

/-! ## The word of a delivered event (R64) -/

/-- The command of a delivered event: the buttons of `evt_btn`, the conditions of `evt_cond`. -/
def eventCommand (e : Event) : Instr :=
  .fsmStep
    { acc := e.btn.getLsbD 0, can := e.btn.getLsbD 1, inc := e.btn.getLsbD 2, dec := e.btn.getLsbD 3 }
    (e.cond.getLsbD 0) (e.cond.getLsbD 1) (e.cond.getLsbD 2)

/-- A bit of a bit vector, as a number. -/
theorem toNat_getLsbD {n : Nat} (w : BitVec n) (k : Nat) :
    (w.getLsbD k).toNat = w.toNat / 2 ^ k % 2 := by
  rw [getLsbD_eq_decide]
  obtain h | h := Nat.mod_two_eq_zero_or_one (w.toNat / 2 ^ k) <;> simp [h]

theorem encode_eventCommand (e : Event) : encode (eventCommand e) = eventWord e := by
  have btn := e.btn.isLt
  have cond := e.cond.isLt
  have word := eventWord_toNat e
  refine encode_eq_of_parts ?_ ?_
  · rw [opcodeOf_toNat, word]
    show _ = 0x40
    omega
  · rw [eventCommand, payload_fsmStep, packButtons_toNat]
    simp only [toNat_getLsbD]
    omega

theorem decode_eventWord (e : Event) : decode (eventWord e) = .ok (eventCommand e) :=
  encode_eventCommand e ▸ encodedCommandDecodesBack _

/-- Settles O8: the event's word is the encoding of its command, and the step runs it for the FSM
agent. -/
theorem deliveredEventRunsFsmStep : Obligations.DeliveredEventRunsFsmStep := by
  intro e s l
  have word := eventWord_toNat e
  have btn := e.btn.isLt
  have cond := e.cond.isLt
  refine ⟨decode_eventWord e, ⟨field_eq ?_, field_eq ?_, field_eq ?_, field_eq ?_, field_eq ?_⟩,
    fun i hi hs => ?_⟩
  case refine_6 =>
    rw [step_of_request (by rw [hs]; exact nextRequest_event l rfl rfl rfl), serve, runWord_ok _ hi]
    rfl
  case refine_1 =>
    show _ = 0x40
    omega
  case refine_2 | refine_4 =>
    show _ = 0
    omega
  all_goals omega

end Sys2Proof.RoundTrip
end

section
/-! The coordinator's steps (R108, R111, R115 to R119, R121): what `render_time` shows, which registers a
step writes, and the four outcomes of an adjust step (discard, edit, move to the hours, commit), from
which the statements about editing follow. -/

namespace Sys2Proof.Editing

open Sys2Proof Sys2Proof.Machine Sys2Proof.Stated

/-! ## What `render_time` writes (R111) -/

/-- The four listed values are the first four of the vector. -/
theorem getElem?_shown_iff {a b c d v : Nibble} (k : Fin 8) :
    [a, b, c, d][k.val]? = some v ↔ k.val < 4 ∧ (fourValues a b c d).get k = v := by
  fin_cases k <;> simp [fourValues, Vector.get]

theorem mem_shown_iff {a b c d v : Nibble} :
    v ∈ [a, b, c, d] ↔ ∃ k : Fin 8, k.val < 4 ∧ (fourValues a b c d).get k = v := by
  rw [List.mem_iff_getElem?]
  constructor
  · rintro ⟨i, hi⟩
    obtain ⟨inside, -⟩ := List.getElem?_eq_some_iff.1 hi
    exact ⟨⟨i, inside.trans (by simp)⟩, (getElem?_shown_iff _).1 hi⟩
  · rintro ⟨k, hk⟩
    exact ⟨k, (getElem?_shown_iff k).2 hk⟩

/-- Settles O41, by the two cases of `dsp_write_bcd` on the four values. -/
theorem renderShowsHoursAndMinutes : Obligations.RenderShowsHoursAndMinutes := by
  intro c t x four shown
  have size : min (4 : BitVec 4).toNat (digitCount c) = 4 := Nat.min_eq_left four
  have outcome := dspWriteBcd_cases c 4 (fourValues t.h10 t.h1 t.m10 t.m1) x
  rw [size] at outcome
  obtain ⟨bad, h⟩ | ⟨good, g, h, loaded⟩ := outcome
  · obtain ⟨k, inside, above⟩ := (badValues_iff _ _).1 bad
    exact ⟨fun _ => congrArg Prod.fst h, fun ok =>
      absurd (ok _ (mem_shown_iff.2 ⟨k, inside, rfl⟩)) (Nat.not_le.2 above)⟩
  · refine ⟨fun ⟨v, hv, above⟩ => ?_, fun ok => ⟨g, congrArg Prod.fst h, fun k v hv => ?_, fun k =>
      ⟨fun high inside => ?_, fun outside => ?_⟩⟩⟩
    · obtain ⟨k, inside, rfl⟩ := mem_shown_iff.1 hv
      simp [(badValues_iff _ _).2 ⟨k, inside, above⟩] at good
    · obtain ⟨inside, rfl⟩ := (getElem?_shown_iff k).1 hv
      obtain ⟨p, entry, pattern⟩ := segPattern_of_le (c := c) (ok _ (mem_shown_iff.2 ⟨k, inside, rfl⟩))
      exact ⟨p, entry, (loaded k).trans ((if_pos inside).trans pattern)⟩
    · exact (loaded k).trans ((if_neg (Nat.not_lt.2 high)).trans (if_pos inside))
    · exact (loaded k).trans
        ((if_neg (Nat.not_lt.2 (four.trans outside))).trans (if_neg (Nat.not_lt.2 outside)))

/-! ## The registers a step writes (R108) -/

/-- A step with its response, unit by unit. -/
theorem respond_fsmStep (r : Response) (btn : Buttons) (eet eea xa : Bool) (s : State) :
    respond r (fsmStep btn eet eea xa s) =
      { s with clk := (fsmStep btn eet eea xa s).clk, dsp := (fsmStep btn eet eea xa s).dsp,
               fsm := (fsmStep btn eet eea xa s).fsm, resp := r.word } :=
  congrArg (respond r) (fsmStep_frame btn eet eea xa s).1

/-- Settles O42: with four digits the step is `fsmStep` with its response, which writes three units. -/
theorem fsmStepCompletesWithFourDigits : Obligations.FsmStepCompletesWithFourDigits := by
  intro btn eet eea xa s
  obtain ⟨-, acc, cur, armed⟩ := fsmStep_frame btn eet eea xa s
  refine ⟨fun few => exec_fsmStep_refused few btn eet eea xa, fun four =>
    ⟨_, _, _, ?_, armed, acc, cur⟩⟩
  rw [exec_fsmStep four, respond_fsmStep]

/-! ## The four outcomes of an adjust step (R115) -/

/-- The listed adjust states are those of the two buffers and the two fields. -/
theorem state_of_mem_adjustStates {a : FsmState × EditKind × EditField} (h : a ∈ adjustStates) :
    a.1 = editState a.2.1 a.2.2 := by
  simp only [adjustStates, List.mem_cons, List.not_mem_nil, or_false] at h
  obtain rfl | rfl | rfl | rfl := h <;> rfl

/-- A step in an adjust state that has a next state, unit by unit. -/
theorem exec_fsmStep_adjust {s t : State} {kind : EditKind} {field : EditField}
    (state : s.fsm.state = editState kind field) {btn : Buttons} {eet eea xa : Bool}
    (h : exec (.fsmStep btn eet eea xa) s = .next t) :
    t.clk = adjustClk kind field (fired btn s) xa (editBuffer kind s.fsm) s.clk ∧
      t.dsp = renderAdjust s.cfg kind field (editBuffer kind s.fsm) s.dsp ∧
        t.fsm = adjustFsm kind field (fired btn s) xa (editBuffer kind s.fsm) (latched btn s) := by
  obtain ⟨-, rfl⟩ := exec_fsmStep_next h
  rw [fsmStep_adjust state]
  simp [fired]

section

variable {kind : EditKind} {field : EditField} {fire : Buttons} {xa : Bool} (t : BcdTime) (x : Clk)
  (f : Fsm)

/-- Leaving discards: no register but the state moves. -/
theorem adjust_of_discards (leave : discards fire xa = true) :
    adjustClk kind field fire xa t x = x ∧
      adjustFsm kind field fire xa t f = { f with state := .showTime } :=
  ⟨if_pos leave, if_pos leave⟩

/-- Without Accept the edited buffer is stored. -/
theorem adjust_of_edit (stay : discards fire xa = false) (noAccept : fire.acc = false) :
    adjustClk kind field fire xa t x = x ∧
      adjustFsm kind field fire xa t f = storeBuffer kind (editedBuffer field fire t) f := by
  cases field <;> simp [adjustClk, adjustFsm, storedBuffer, commits, stay, noAccept]

/-- Accept on the minutes moves to the hours of the same buffer. -/
theorem adjust_of_move (stay : discards fire xa = false) (accept : fire.acc = true) :
    adjustClk kind .minutes fire xa t x = x ∧
      adjustFsm kind .minutes fire xa t f =
        { storeBuffer kind (editedBuffer .minutes fire t) f with state := hoursState kind } := by
  simp [adjustClk, adjustFsm, storedBuffer, commits, acceptState, stay, accept]

/-- Accept on the hours commits the buffer with its seconds zeroed. -/
theorem adjust_of_commit (stay : discards fire xa = false) (accept : fire.acc = true) :
    adjustClk kind .hours fire xa t x = commit kind (zeroSeconds (editedBuffer .hours fire t)) x ∧
      adjustFsm kind .hours fire xa t f =
        { storeBuffer kind (zeroSeconds (editedBuffer .hours fire t)) f with state := .showTime } := by
  simp [adjustClk, adjustFsm, storedBuffer, commits, acceptState, stay, accept]

/-- The state after an adjust step (R121). -/
theorem adjustFsm_state :
    (adjustFsm kind field fire xa t f).state =
      if discards fire xa then .showTime
      else if fire.acc then acceptState kind field else f.state := by
  unfold adjustFsm
  cases discards fire xa <;> cases fire.acc <;> simp

end

/-- Storing a buffer writes the register of its kind. -/
theorem storeBuffer_eq (kind : EditKind) (t : BcdTime) (f : Fsm) :
    storeBuffer kind t f =
      if kind = .time then { f with etime := t } else { f with ealarm := t } := by
  cases kind <;> rfl

/-- Editing the hours keeps the minutes (R87, R88). -/
theorem minutes_editedBuffer_hours (fire : Buttons) (t : BcdTime) :
    minutes (editedBuffer .hours fire t) = minutes t := by
  unfold editedBuffer
  cases fire.inc <;> cases fire.dec <;> rfl

/-! ## The statements on the adjust states -/

/-- The window that blinks while a field is edited (R115). -/
def editWindow (field : EditField) : BitVec 4 × BitVec 4 :=
  if field = .minutes then (2, 3) else (0, 1)

/-- The display work of an adjust step, the dots last. -/
theorem renderAdjust_eq (c : Config) (kind : EditKind) (field : EditField) (t : BcdTime) (x : Dsp) :
    renderAdjust c kind field t x =
      if kind = .time then
        ensureDigitBlink c (editWindow field).1 (editWindow field).2 c.fsmBlinkDiv.val
          (renderTime c t x)
      else
        ensureDot c 3 c.fsmDotDiv.val true (ensureDot c 2 c.fsmDotDiv.val true
          (ensureDot c 1 c.fsmDotDiv.val true (ensureDot c 0 c.fsmDotDiv.val true
            (ensureDigitBlink c (editWindow field).1 (editWindow field).2 c.fsmBlinkDiv.val
              (renderTime c t x))))) := by
  cases kind <;> cases field <;> simp [renderAdjust, editWindow]

theorem editBuffer_eq (kind : EditKind) (f : Fsm) :
    editBuffer kind f = if kind = .time then f.etime else f.ealarm := by
  cases kind <;> rfl

/-- Settles O45: the display work of a state is that of its buffer and its field. -/
theorem adjustStepsShowTheBuffer : Obligations.AdjustStepsShowTheBuffer := by
  intro btn eet eea xa s t h a ha state
  obtain ⟨-, dsp, -⟩ := exec_fsmStep_adjust (state.trans (state_of_mem_adjustStates ha)) h
  rw [dsp, renderAdjust_eq, editBuffer_eq]
  rfl

/-- Settles O46, by the four outcomes of the step. -/
theorem adjustStepsEditAndCommit : Obligations.AdjustStepsEditAndCommit := by
  intro btn eet eea xa s t h a ha state
  obtain ⟨clk, -, fsm⟩ := exec_fsmStep_adjust (state.trans (state_of_mem_adjustStates ha)) h
  obtain ⟨_, kind, field⟩ := a
  intro fire old up new kept
  have edited : editedBuffer field fire (editBuffer kind s.fsm) = new := by
    cases kind <;> cases field <;> rfl
  clear_value new
  have stays (hxa : xa = false) (hcan : fire.can = false) : discards fire xa = false := by
    rw [discards, hxa, hcan]
    rfl
  rw [clk, fsm]
  refine ⟨fun leave => ?_, fun hxa hcan noAccept => ?_, fun hxa hcan accept onMinutes => ?_,
    fun hxa hcan accept onHours => ?_⟩
  · exact adjust_of_discards _ _ _ (by rwa [discards, Bool.or_eq_true])
  · obtain ⟨kept_clk, stored⟩ := adjust_of_edit (kind := kind) (field := field)
      (editBuffer kind s.fsm) s.clk kept (stays hxa hcan) noAccept
    rw [edited, storeBuffer_eq] at stored
    exact ⟨kept_clk, stored⟩
  · obtain rfl : field = .minutes := onMinutes
    obtain ⟨kept_clk, stored⟩ := adjust_of_move (kind := kind) (editBuffer kind s.fsm) s.clk kept
      (stays hxa hcan) accept
    rw [edited] at stored
    refine ⟨kept_clk, stored.trans ?_⟩
    cases kind <;> rfl
  · obtain rfl : field = .hours := onHours
    obtain ⟨committed, stored⟩ := adjust_of_commit (kind := kind) (editBuffer kind s.fsm) s.clk kept
      (stays hxa hcan) accept
    rw [edited] at committed stored
    cases kind with
    | time => exact ⟨fun _ => ⟨stored, committed⟩, nofun⟩
    | alarm => exact ⟨nofun, fun _ => ⟨stored, committed⟩⟩

/-- Settles O47: the edit helpers keep the buffer valid, so `clk_set_time` stores it. -/
theorem timeCommitNeverFails : Obligations.TimeCommitNeverFails := by
  intro btn eet eea s t h state valid noCancel accept
  obtain ⟨clk, -, fsm⟩ := exec_fsmStep_adjust (kind := .time) (field := .hours) state h
  obtain ⟨committed, stored⟩ := adjust_of_commit (kind := .time) (xa := false) s.fsm.etime s.clk
    (latched btn s) noCancel accept
  have kept := minutes_editedBuffer_hours (fired btn s) s.fsm.etime
  have validEdited := valid_editedBuffer .hours (fired btn s) valid
  simp only [editBuffer, committed, stored] at clk fsm
  generalize editedBuffer .hours (fired btn s) s.fsm.etime = u at kept validEdited clk fsm
  obtain ⟨-, set⟩ | ⟨invalid, -⟩ := clkSetTime_cases (zeroSeconds u) s.clk
  · rw [commit, set] at clk
    rw [clk, fsm]
    exact ⟨rfl, rfl, seconds_zeroSeconds u, (minutes_zeroSeconds u).trans kept, rfl⟩
  · simp [valid_zeroSeconds validEdited] at invalid

/-- Settles O49: the table's row of each state, from the state the coordinator's registers end in. -/
theorem transitionRelation : Obligations.TransitionRelation := by
  intro btn eet eea xa s t h
  obtain ⟨-, ht⟩ := exec_fsmStep_next h
  have after : t.fsm = (fsmStep btn eet eea xa s).fsm := by rw [ht, respond_fsm]
  obtain ⟨state, -, -, fsm⟩ | ⟨state, -, -, fsm⟩ | ⟨kind, field, state, -, -, fsm⟩ :=
    fsmStep_cases btn eet eea xa s
  · rw [state, after, fsm, showTimeFsm_eq]
  · rw [state, after, fsm]
  · have next : (latched btn s).state = editState kind field := state
    rw [state, after, fsm, adjustFsm_state, next]
    cases kind <;> cases field <;> rfl

end Sys2Proof.Editing
end

section
/-! The times of the day (R21, R70 to R72) as their seconds, and the ticks that advance them (R75): a
valid time is its second of the day, `advance_second` adds one modulo the day, and a run of ticks is the
iterated `clk_tick`. -/

namespace Sys2Proof.TimeOfDay

open Sys2Proof Sys2Proof.Machine Sys2Proof.Stated

/-! ## Valid times and the seconds of the day (R21) -/

theorem validBcd_iff (t : BcdTime) :
    validBcd t = true ↔
      t.s1.toNat ≤ 9 ∧ t.s10.toNat ≤ 5 ∧ t.m1.toNat ≤ 9 ∧ t.m10.toNat ≤ 5 ∧ t.h1.toNat ≤ 9 ∧
        t.h10.toNat ≤ 2 ∧ (t.h10.toNat ≠ 2 ∨ t.h1.toNat ≤ 3) :=
  ⟨valid_digits, fun ⟨s1, s10, m1, m10, h1, h10, h⟩ => valid_of_digits s1 s10 m1 m10 h1 h10 h⟩

theorem secondOfDay_lt {t : BcdTime} (h : validBcd t = true) : secondOfDay t < 86400 := by
  obtain ⟨hs, hm, hh⟩ := valid_fields h
  unfold secondOfDay
  omega

/-- A valid time is its second of the day. -/
theorem eq_of_secondOfDay {t u : BcdTime} (ht : validBcd t = true) (hu : validBcd u = true)
    (h : secondOfDay t = secondOfDay u) : t = u := by
  obtain ⟨ts, tm, th⟩ := valid_fields ht
  obtain ⟨us, um, uh⟩ := valid_fields hu
  unfold secondOfDay at h
  exact eq_of_fields ht hu (by omega) (by omega) (by omega)

/-- The time of a second of the day. -/
def timeOfSecond (k : Nat) : BcdTime :=
  withSeconds (timeOfMinutes (k / 60)) (k % 60)

theorem timeOfSecond_spec {k : Nat} (h : k < 86400) :
    validBcd (timeOfSecond k) = true ∧ secondOfDay (timeOfSecond k) = k := by
  obtain ⟨valid, -, hm, hh⟩ := timeOfMinutes_fields (f := k / 60) (by omega)
  refine ⟨valid_withSeconds valid (by omega), ?_⟩
  rw [secondOfDay, timeOfSecond, hours_withSeconds, minutes_withSeconds,
    seconds_withSeconds (by omega), hm, hh]
  omega

/-- Settles O15: every second of the day has its time, and a valid time is determined by its second. -/
theorem validTimesAreTheSecondsOfTheDay : Obligations.ValidTimesAreTheSecondsOfTheDay := by
  refine ⟨validBcd_iff, fun t => secondOfDay_lt, fun k hk => ?_⟩
  obtain ⟨valid, second⟩ := timeOfSecond_spec hk
  exact ⟨timeOfSecond k, ⟨valid, second⟩, fun u ⟨hu, hk⟩ =>
    eq_of_secondOfDay hu valid (hk.trans second.symm)⟩

/-! ## The field helpers (R70, R71) -/

theorem wrapDec_of_wrap {v top : Nat} (h : v = 0 ∨ v > top) : wrapDec v top = top := if_pos h

theorem wrapDec_of_pos {v top : Nat} (pos : v ≠ 0) (h : v ≤ top) : wrapDec v top = v - 1 :=
  if_neg (by omega)

/-- Settles O16: the two helpers by their tests, and a written pair read back. -/
theorem fieldHelpersWrapAtTheTop : Obligations.FieldHelpersWrapAtTheTop := by
  refine ⟨fun v top => ⟨wrapInc_of_le, wrapInc_of_lt, wrapDec_of_wrap, wrapDec_of_pos⟩, fun t v =>
    ⟨fun h => ?_, fun h => ?_, fun h => ?_⟩⟩
  · exact ⟨minutes_withMinutes (by omega), tensOf_le (by omega) (by omega), unitsOf_le v,
      hours_withMinutes t v, seconds_withMinutes t v⟩
  · exact ⟨seconds_withSeconds (by omega), tensOf_le (by omega) (by omega), unitsOf_le v,
      hours_withSeconds t v, minutes_withSeconds t v⟩
  · exact ⟨hours_withHours (by omega), tensOf_le (by omega) (by omega), unitsOf_le v,
      minutes_withHours t v, seconds_withHours t v⟩

/-! ## The advances (R72) -/

/-- The carries of `advance_second` as one addition modulo the day. -/
theorem carries_eq_mod {h m s : Nat} (hs : s ≤ 59) (hm : m ≤ 59) (hh : h ≤ 23) :
    (if 59 ≤ s ∧ 59 ≤ m then if 23 ≤ h then 0 else h + 1 else h) * 3600 +
          (if 59 ≤ s then if 59 ≤ m then 0 else m + 1 else m) * 60 +
        (if 59 ≤ s then 0 else s + 1) =
      (h * 3600 + m * 60 + s + 1) % 86400 := by
  split_ifs <;> omega

theorem secondOfDay_advanceSecond {t : BcdTime} (h : validBcd t = true) :
    secondOfDay (advanceSecond t) = (secondOfDay t + 1) % 86400 := by
  obtain ⟨hs, hm, hh⟩ := valid_fields h
  obtain ⟨seconds_eq, minutes_eq, hours_eq⟩ := advanceSecond_fields t
  rw [secondOfDay, secondOfDay, seconds_eq, minutes_eq, hours_eq]
  exact carries_eq_mod hs hm hh

theorem secondOfDay_addMinute {t : BcdTime} (h : validBcd t = true) :
    secondOfDay (addMinute t) = (secondOfDay t + 60) % 86400 := by
  obtain ⟨hs, hm, hh⟩ := valid_fields h
  obtain ⟨seconds_eq, minutes_eq, hours_eq⟩ := addMinute_fields t
  rw [secondOfDay, secondOfDay, seconds_eq, minutes_eq, hours_eq]
  split_ifs <;> omega

theorem advanceSecond_injective {t u : BcdTime} (ht : validBcd t = true) (hu : validBcd u = true)
    (h : advanceSecond t = advanceSecond u) : t = u := by
  have same := congrArg secondOfDay h
  rw [secondOfDay_advanceSecond ht, secondOfDay_advanceSecond hu] at same
  have := secondOfDay_lt ht
  have := secondOfDay_lt hu
  exact eq_of_secondOfDay ht hu (by omega)

/-- The time one second earlier advances to a given valid time. -/
theorem exists_advanceSecond_eq {u : BcdTime} (hu : validBcd u = true) :
    ∃ t, validBcd t = true ∧ advanceSecond t = u := by
  have below := secondOfDay_lt hu
  obtain ⟨valid, second⟩ := timeOfSecond_spec (k := (secondOfDay u + 86399) % 86400) (by omega)
  refine ⟨_, valid, eq_of_secondOfDay (valid_advanceSecond valid) hu ?_⟩
  rw [secondOfDay_advanceSecond valid, second]
  omega

/-- Settles O17: on the seconds of the day the advances are additions modulo 86400. -/
theorem advancesAddOneModuloTheDay : Obligations.AdvancesAddOneModuloTheDay :=
  ⟨fun _ => ⟨advanceSecond_of_lt, advanceSecond_of_le, addMinute_of_lt, addMinute_of_le⟩,
    fun _ h => ⟨valid_advanceSecond h, secondOfDay_advanceSecond h, valid_addMinute h,
      secondOfDay_addMinute h⟩,
    fun _ _ => advanceSecond_injective, fun _ => exists_advanceSecond_eq⟩

/-! ## Ticks (R75) -/

/-- A tick that completes a second. -/
theorem clkTick_of_complete {tps : BitVec 16} {x : Clk} (h : x.acc.toNat + 1 = tps.toNat) :
    clkTick tps x = { x with acc := 0, cur := advanceSecond x.cur } := if_pos h

/-- Any other tick counts. -/
theorem clkTick_of_count {tps : BitVec 16} {x : Clk} (h : x.acc.toNat + 1 ≠ tps.toNat) :
    clkTick tps x = { x with acc := x.acc + 1 } := if_neg h

/-- Settles O21, by the two cases of `clk_tick`. -/
theorem tickCountsOrAdvancesTheSecond : Obligations.TickCountsOrAdvancesTheSecond := by
  intro s below
  rw [exec_clkTick]
  refine ⟨fun complete => ?_, fun count => ⟨s.clk.acc + 1, acc_succ_toNat below, ?_⟩⟩
  · rw [clkTick_of_complete complete]
    rfl
  · rw [clkTick_of_count count]
    rfl

/-- Ticks in a row are `clk_tick` iterated. -/
theorem repeated_clkTick (k : Nat) (s : State) :
    repeated .clkTick (k + 1) s =
      .next { s with clk := (clkTick s.cfg.tps.val)^[k + 1] s.clk, resp := noFields } := by
  induction k generalizing s with
  | zero => exact exec_clkTick s
  | succ k ih =>
    rw [repeated, exec_clkTick, andThen_of_next, ih]
    rfl

/-- Ticks that complete no second only count. -/
theorem iterate_clkTick_of_lt {tps : BitVec 16} (k : Nat) {x : Clk}
    (h : x.acc.toNat + k < tps.toNat) :
    (clkTick tps)^[k] x = { x with acc := x.acc + BitVec.ofNat 16 k } := by
  induction k generalizing x with
  | zero => simp
  | succ k ih =>
    have next := acc_succ_toNat (tps := tps) (acc := x.acc) (by omega)
    have counted := clkTick_of_count (tps := tps) (x := x) (by omega)
    have sum : x.acc + 1 + BitVec.ofNat 16 k = x.acc + BitVec.ofNat 16 (k + 1) := by
      rw [BitVec.add_assoc, Nat.add_comm k, BitVec.ofNat_add]
      rfl
    rw [Function.iterate_succ_apply, counted, ih (by rw [next]; omega), sum]

/-- A whole period of ticks: up to the end of the second, over it, and up to the old count. -/
theorem iterate_clkTick_period {tps : BitVec 16} {x : Clk} (h : x.acc.toNat < tps.toNat) :
    (clkTick tps)^[tps.toNat] x = { x with cur := advanceSecond x.cur } := by
  have split : tps.toNat = x.acc.toNat + 1 + (tps.toNat - 1 - x.acc.toNat) := by omega
  have last : (x.acc + BitVec.ofNat 16 (tps.toNat - 1 - x.acc.toNat)).toNat + 1 = tps.toNat := by
    have := tps.isLt
    rw [BitVec.toNat_add, BitVec.toNat_ofNat]
    omega
  calc (clkTick tps)^[tps.toNat] x
      = (clkTick tps)^[x.acc.toNat + 1] ((clkTick tps)^[tps.toNat - 1 - x.acc.toNat] x) := by
        rw [← Function.iterate_add_apply, ← split]
    _ = (clkTick tps)^[x.acc.toNat] { x with acc := 0, cur := advanceSecond x.cur } := by
        rw [iterate_clkTick_of_lt (x := x) _ (by omega), Function.iterate_succ_apply,
          clkTick_of_complete last]
    _ = { x with cur := advanceSecond x.cur } := by
        rw [iterate_clkTick_of_lt _ ((Nat.zero_add _).trans_lt h)]
        simp

/-- Settles O22: `TPS` ticks are a whole period of `clk_tick`. -/
theorem tpsTicksAdvanceOneSecond : Obligations.TpsTicksAdvanceOneSecond := by
  intro s below
  obtain ⟨k, hk⟩ : ∃ k, s.cfg.tps.val.toNat = k + 1 := Nat.exists_eq_add_one.2 (by omega)
  rw [hk, repeated_clkTick, ← hk, iterate_clkTick_period below]

end Sys2Proof.TimeOfDay
end

section
/-! Requests and steps (R6, R43 to R45, R131, R144 to R146): serving a request neither reads nor writes
the requests still to come, so the requests of one clock cycle run one after another; which request a step
takes; and the reset. -/

namespace Sys2Proof.Requests

open Sys2Proof Sys2Proof.Machine Sys2Proof.Stated

/-! ## Results in a row -/

theorem andThen_assoc (r : Result) (f g : State → Result) :
    andThen (andThen r f) g = andThen r fun s => andThen (f s) g := by
  cases r <;> rfl

@[simp] theorem andThen_next_right (r : Result) : andThen r .next = r := by
  cases r <;> rfl

theorem andThen_congr {r : Result} {f g : State → Result} (h : ∀ t, r = .next t → f t = g t) :
    andThen r f = andThen r g := by
  cases r with
  | next t => exact h t rfl
  | fault x => rfl
  | refused x => rfl

/-! ## Serving a request and the requests still to come (R48) -/

theorem deliver_withInbox (a : Agent) (s : State) (l : List Ports) :
    deliver a (s.withInbox l) = (deliver a s).withInbox l := by
  cases a <;> rfl

theorem runWord_withInbox (a : Agent) (w : Word64) (s : State) (l : List Ports) :
    runWord a w (s.withInbox l) = andThen (runWord a w s) fun t => .next (t.withInbox l) := by
  cases h : decode w with
  | error e =>
    rw [runWord_error _ h, runWord_error _ h, andThen_of_next, ← deliver_withInbox]
    rfl
  | ok i =>
    rw [runWord_ok _ h, runWord_ok _ h, exec_withInbox, andThen_assoc, andThen_assoc]
    simp only [andThen_of_next, deliver_withInbox]

theorem serve_withInbox (r : Request) (s : State) (l : List Ports) :
    serve r (s.withInbox l) = andThen (serve r s) fun t => .next (t.withInbox l) := by
  cases r with
  | reset p =>
    rw [serve, serve, boot, boot]
    split <;> rfl
  | tick => rfl
  | event e => exact runWord_withInbox .fsm (eventWord e) s l
  | command w => exact runWord_withInbox .host w s l

theorem serve_inbox {r : Request} {s t : State} (h : serve r s = .next t) : t.inbox = s.inbox := by
  have same := serve_withInbox r s s.inbox
  rw [show s.withInbox s.inbox = s from rfl, h, andThen_of_next] at same
  rw [Host.Outcome.next.inj same, State.withInbox_inbox]

/-! ## The requests of one clock cycle (R44, R131) -/

/-- Nothing is left of a cycle exactly when it has no request. -/
theorem quiet_iff (p : Ports) : p.quiet = true ↔ pending [p] = 0 := by
  simp [Ports.quiet, pending, and_assoc]

@[simp] theorem remaining_empty (l : List Ports) : remaining {} l = l := rfl

theorem remaining_eq_left (p : Ports) (l : List Ports) : remaining p l = left p l :=
  if_congr (quiet_iff p) rfl rfl

theorem remaining_of_pending {p : Ports} (l : List Ports) (h : 0 < pending [p]) :
    remaining p l = p :: l := by
  rw [remaining_eq_left, left, if_neg (by omega)]

/-- The request that goes first is the one that is taken. -/
theorem nextRequest_left {p : Ports} (l : List Ports) (h : 0 < pending [p]) :
    (nextRequest (p :: l)).2 = left (oneTaken p) l := by
  obtain ⟨rst, tick, evt, cmd⟩ := p
  cases rst with
  | some x => rw [nextRequest_reset l rfl, remaining_eq_left]; rfl
  | none =>
    cases tick with
    | true => rw [nextRequest_tick l rfl rfl, remaining_eq_left]; rfl
    | false =>
      cases evt with
      | some e => rw [nextRequest_event l rfl rfl rfl, remaining_eq_left]; rfl
      | none =>
        cases cmd with
        | some w => rw [nextRequest_command l rfl rfl rfl rfl]; rfl
        | none => cases h

/-- One request fewer is pending. -/
theorem pending_oneTaken {p : Ports} (h : 0 < pending [p]) :
    pending [oneTaken p] + 1 = pending [p] := by
  obtain ⟨rst, tick, evt, cmd⟩ := p
  cases rst with
  | some x => simp [oneTaken, pending]; omega
  | none =>
    cases tick with
    | true => simp [oneTaken, pending]; omega
    | false =>
      cases evt with
      | some e => simp [oneTaken, pending]; omega
      | none =>
        cases cmd with
        | some w => rfl
        | none => cases h

theorem nextRequest_of_quiet {p : Ports} (l : List Ports) (h : pending [p] = 0) :
    nextRequest (p :: l) = (none, l) := by
  have quiet := (quiet_iff p).2 h
  simp only [Ports.quiet, Bool.and_eq_true, Bool.not_eq_true', Option.isNone_iff_eq_none] at quiet
  obtain ⟨⟨⟨rst, tick⟩, evt⟩, cmd⟩ := quiet
  exact nextRequest_none l rst tick evt cmd

/-- Settles O11: the step leaves what `nextRequest` leaves. -/
theorem eachStepTakesOneRequest : Obligations.EachStepTakesOneRequest := by
  intro s
  refine ⟨fun empty => ?_, fun p l hs => ⟨fun none => ?_, fun some =>
    ⟨pending_oneTaken some, fun t ht => ?_⟩⟩⟩
  · rw [step_of_none (by rw [empty]; rfl), ← empty]
    rfl
  · exact step_of_none (by rw [hs, nextRequest_of_quiet l none])
  · rw [step_inbox ht, hs, nextRequest_left l some]

/-! ## The order of one clock cycle (R44) -/

/-- Serving the cycle's event, if it has one. -/
def eventPart (evt : Option Event) (s : State) : Result :=
  match evt with
  | some e => serve (.event e) s
  | none => .next s

/-- Serving the cycle's command word, if it has one. -/
def commandPart (cmd : Option Word64) (s : State) : Result :=
  match cmd with
  | some w => serve (.command w) s
  | none => .next s

theorem inOrder_eq (tick : Bool) (evt : Option Event) (cmd : Option Word64) (s : State) :
    inOrder tick evt cmd s =
      andThen (if tick then serve .tick s else .next s) fun a =>
        andThen (eventPart evt a) (commandPart cmd) := by
  cases evt <;> cases cmd <;> rfl

/-- A step that takes the request `r` of a cycle serves it, whatever is left of the cycle; the steps
after it start with what is left. -/
theorem steps_of_request {s : State} {p q : Ports} {l : List Ports} {r : Request} {k : Nat}
    {next : State → Result} (hs : s.inbox = p :: l)
    (taken : nextRequest (p :: l) = (some r, remaining q l))
    (rest : ∀ u : State, u.inbox = remaining q l → steps k u = next (u.withInbox l)) :
    steps (k + 1) s = andThen (serve r (s.withInbox l)) next := by
  have served : step s =
      andThen (serve r (s.withInbox l)) fun t => .next (t.withInbox (remaining q l)) := by
    rw [step_of_request (by rw [hs, taken]), ← serve_withInbox]
    rfl
  rw [steps, served, andThen_assoc]
  refine andThen_congr fun t ht => ?_
  have kept : t.inbox = l := serve_inbox ht
  rw [andThen_of_next, rest _ rfl]
  exact congrArg next (kept ▸ rfl)

theorem steps_command (cmd : Option Word64) {l : List Ports} {s : State}
    (hs : s.inbox = remaining { cmd := cmd } l) :
    steps (pending [{ cmd := cmd }]) s = commandPart cmd (s.withInbox l) := by
  cases cmd with
  | none =>
    obtain rfl : s.inbox = l := hs
    rfl
  | some w =>
    have last := steps_of_request (k := 0) (q := {}) (next := .next) hs
      (nextRequest_command l rfl rfl rfl rfl) fun u hu => by
        obtain rfl : u.inbox = l := hu
        rfl
    rw [andThen_next_right] at last
    exact last

theorem steps_event (evt : Option Event) (cmd : Option Word64) {l : List Ports} {s : State}
    (hs : s.inbox = remaining { evt := evt, cmd := cmd } l) :
    steps (pending [{ evt := evt, cmd := cmd }]) s =
      andThen (eventPart evt (s.withInbox l)) (commandPart cmd) := by
  cases evt with
  | none => exact steps_command cmd hs
  | some e =>
    have count : pending [{ evt := some e, cmd := cmd }] = pending [{ cmd := cmd }] + 1 :=
      (pending_oneTaken (by simp [pending])).symm
    rw [remaining_of_pending l (by omega)] at hs
    rw [count]
    exact steps_of_request hs (nextRequest_event l rfl rfl rfl) fun _ => steps_command cmd

/-- Settles O10: one request of the cycle after another, each served as if it were alone. -/
theorem simultaneousRequestsRunTickFsmHost : Obligations.SimultaneousRequestsRunTickFsmHost := by
  intro tick evt cmd s l hs some
  rw [inOrder_eq]
  cases tick with
  | false => exact steps_event evt cmd (by rw [hs, remaining_of_pending l some])
  | true =>
    rw [← pending_oneTaken some]
    exact steps_of_request hs (nextRequest_tick l rfl rfl) fun _ => steps_event evt cmd

/-! ## The three agents (R43, R45) -/

/-- Settles O7: the command port is served last, and a placed word is alone in its cycle. -/
theorem hostStepRunsTheDecodedCommand : Obligations.HostStepRunsTheDecodedCommand := by
  intro w i s h
  refine ⟨fun l hs => ?_, ?_⟩
  · rw [step_of_request (by rw [hs]; exact nextRequest_command l rfl rfl rfl rfl), serve, runWord_ok _ h]
    rfl
  · rw [step_withFetchWord, ofNat_toNat_mod, runWord_ok _ h]
    rfl

/-- Settles O9: both commands always complete, and each records its response. -/
theorem tickEventIsTickThenRefresh : Obligations.TickEventIsTickThenRefresh := by
  intro s l hs
  refine ⟨_, _, exec_clkTick _, exec_dspRefresh _, ?_⟩
  rw [step_of_request (by rw [hs]; exact nextRequest_tick l rfl rfl), serve, tickEvent, exec_clkTick,
    andThen_of_next, exec_dspRefresh, andThen_of_next, deliver, deliver]
  simp [State.digits]

/-! ## The reset (R144, R145) -/

theorem boot_of_wellFormed {p : Straps} (ok : p.wellFormed = true) (s : State) :
    boot p s = .next ((State.resetWith (configOf p ok)).withInbox s.inbox) := dif_pos ok

theorem boot_of_not_wellFormed {p : Straps} (bad : ¬ p.wellFormed = true) (s : State) :
    boot p s = .refused .illegalConfiguration := dif_neg bad

/-- The model's check of the straps is R9's and R147's. -/
theorem wellFormed_iff (p : Straps) : p.wellFormed = true ↔ LegalStraps p := by
  simp only [Straps.wellFormed, Straps.tpsOk, Straps.digitsOk, Straps.fsmFits, Straps.blinkDivOk,
    Straps.dotDivOk, Bool.and_eq_true, decide_eq_true_eq, LegalStraps, maxDigits]
  omega

theorem toNat_ofRange {w k : Nat} (low : 1 ≤ k) (high : k < 2 ^ w) :
    (Positive.ofRange w k low high).val.toNat = k := by
  rw [Positive.ofRange, BitVec.toNat_ofNat, Nat.mod_eq_of_lt high]

/-- The parameters that the straps latch (R8). -/
theorem configOf_values {p : Straps} (ok : p.wellFormed = true) :
    (configOf p ok).tps.val.toNat = p.tps ∧ (configOf p ok).digits.val.toNat = p.digits ∧
      (configOf p ok).fsmBlinkDiv.val.toNat = p.fsmBlinkDiv ∧
        (configOf p ok).fsmDotDiv.val.toNat = p.fsmDotDiv ∧
          (configOf p ok).segTable = p.segTable := by
  obtain ⟨⟨tps, tps'⟩, ⟨digits, digits'⟩, ⟨blink, blink'⟩, dot, dot'⟩ := straps_ranges ok
  exact ⟨toNat_ofRange tps tps', toNat_ofRange digits digits', toNat_ofRange blink blink',
    toNat_ofRange dot dot', rfl⟩

/-- Settles O13: the reset is taken before the other requests of its cycle, which stay. -/
theorem resetInputLatchesLegalStraps : Obligations.ResetInputLatchesLegalStraps := by
  intro x p s l reset hs
  have served : step s = boot x (s.withInbox (left { p with rst := none } l)) := by
    rw [step_of_request (by rw [hs]; exact nextRequest_reset l reset), remaining_eq_left]
    rfl
  rw [served, ← wellFormed_iff]
  exact ⟨fun ok => ⟨configOf x ok, boot_of_wellFormed ok _, configOf_values ok⟩,
    fun bad => boot_of_not_wellFormed bad _⟩

theorem get_replicate {α : Type} {n : Nat} (a : α) (k : Fin n) : (Vector.replicate n a).get k = a := by
  rw [Vector.get_eq_getElem, Vector.getElem_replicate]

/-- Settles O12, register by register. -/
theorem resetGivesEveryRegisterItsValue : Obligations.ResetGivesEveryRegisterItsValue := by
  intro c
  have dot (d : Fin 8) : (State.resetWith c).dsp.dots.get d = { per := 0, en := false, ph := 0 } :=
    get_replicate _ d
  refine ⟨⟨rfl, rfl⟩, ⟨rfl, rfl, rfl, rfl, rfl, rfl, rfl⟩, ⟨rfl, rfl, rfl, rfl, rfl, fun d =>
    ⟨get_replicate _ d, ?_, ?_, ?_⟩⟩, ⟨rfl, rfl, rfl⟩, get_replicate _,
    ⟨rfl, rfl, rfl, rfl, rfl, rfl, rfl⟩, rfl, rfl⟩
  all_goals rw [dot]

/-! ## The first tick (R146) -/

/-- A digit with no segments whose window and dot do not blink shows its decimal point alone. -/
theorem patternOf_blank {x : Dsp} {d : BitVec 3} (segments : x.seg.get (slot d) = 0)
    (window : x.bper = 0) (dot : (x.dots.get (slot d)).en = false) : patternOf x d = 0x80 := by
  have shown : digitOff x d = false := by
    rw [← Bool.not_eq_true, digitOff_iff]
    exact fun ⟨blinks, _⟩ => blinks window
  have lit : dotOff x d = false := by
    rw [← Bool.not_eq_true, dotOff_iff, dot]
    exact fun ⟨on, _⟩ => Bool.false_ne_true on
  rw [patternOf, shown, lit, segments]
  rfl

/-- A refresh does not enable or disable a dot (R96). -/
theorem dspAfterRefresh_dot_en (n : Nat) (x : Dsp) (k : Fin 8) :
    ((dspAfterRefresh n x).dots.get k).en = (x.dots.get k).en := by
  rw [Display.dspAfterRefresh_eq]
  split
  · rw [advancePhases_dot]
    split
    · exact Dot.advance_en _
    · rfl
  · rfl

/-- The digit that the first refresh lights. -/
theorem nextDigit_reset {n : Nat} (pos : 0 < n) (n_le : n ≤ 8) :
    nextDigit n Dsp.reset = if n = 1 then 0 else 1 := by
  have next := nextDigit_toNat Dsp.reset pos n_le
  apply BitVec.eq_of_toNat_eq
  rw [next]
  show (0 + 1) % n = _
  split
  · next one => rw [one]; rfl
  · rw [Nat.mod_eq_of_lt (by omega)]; rfl

/-- Settles O14: the registers that reset left give a blank digit whose decimal point is lit. -/
theorem firstTickLightsABlankDigit : Obligations.FirstTickLightsABlankDigit := by
  intro c l
  refine ⟨rfl, rfl, rfl, ?_⟩
  obtain ⟨a, b, tick, refresh, stepped⟩ := tickEventIsTickThenRefresh
    { State.resetWith c with inbox := { tick := true } :: l } l rfl
  refine ⟨_, stepped, ?_⟩
  rw [exec_clkTick] at tick
  obtain rfl := Host.Outcome.next.inj tick
  rw [exec_dspRefresh] at refresh
  obtain rfl := Host.Outcome.next.inj refresh
  refine ⟨patternOf_blank ?_ ?_ ?_, congrArg some (nextDigit_reset (digitCount_pos c) (digitCount_le c))⟩
  · rw [dspAfterRefresh_seg]
    exact get_replicate _ _
  · rw [dspAfterRefresh_bper]
    rfl
  · rw [dspAfterRefresh_dot_en]
    exact congrArg Dot.en (get_replicate _ _)

end Sys2Proof.Requests
end

section
/-! What the display shows (R97, R98, R101, R102): the pattern's segments by the window, its decimal point
by the dot; and a mux cycle as a run of refreshes up to the last digit, the refresh that wraps, and a run
up to the old cursor. -/

namespace Sys2Proof.MuxCycle

open Sys2Proof Sys2Proof.Machine Sys2Proof.Stated

/-! ## The pattern (R97, R98, R102) -/

/-- Settles O33: the two conditions by their formulas, and the bits of the pattern. -/
theorem offHalvesAreTheFirstHalves : Obligations.OffHalvesAreTheFirstHalves := by
  intro x d
  refine ⟨digitOff_iff x d, dotOff_iff x d, fun off k hk => ?_, fun shown k hk => ?_, patternOf_dp x d⟩
  · rw [patternOf_segment x d hk, off, Bool.not_true, Bool.false_and]
  · rw [patternOf_segment x d hk, shown, Bool.not_false, Bool.true_and]

/-- Settles O37: the window decides the segments, the dot's descriptor the decimal point. -/
theorem windowAndDotsDoNotInterfere : Obligations.WindowAndDotsDoNotInterfere := by
  intro x y d
  refine ⟨fun hseg hfrom hto hper hph k hk => ?_, fun hdot => ?_⟩
  · have window : digitOff x d = digitOff y d := by
      rw [digitOff, digitOff, hfrom, hto, hper, hph]
    rw [patternOf_segment x d hk, patternOf_segment y d hk, window, hseg]
  · rw [patternOf_dp, patternOf_dp, dotOff, dotOff, hdot]

/-! ## Commands in a row -/

theorem repeated_one (i : Instr) (s : State) : repeated i 1 s = exec i s :=
  Requests.andThen_next_right (exec i s)

theorem repeated_add (i : Instr) (j k : Nat) (s : State) :
    repeated i (j + k) s = andThen (repeated i j s) (repeated i k) := by
  induction j generalizing s with
  | zero => rw [Nat.zero_add]; rfl
  | succ j ih =>
    rw [Nat.succ_add, repeated, repeated, Requests.andThen_assoc]
    exact congrArg (andThen _) (funext ih)

/-! ## Refreshes in a row (R101) -/

/-- `k` refreshes lead from `s` to `t`, leave the display `x`, and light digit `d` `lit d` times. -/
def Refreshed (k : Nat) (s t : State) (x : Dsp) (lit : BitVec 3 → Nat) : Prop :=
  repeated .dspRefresh k s = .next t ∧ t.dsp = x ∧ t.cfg = s.cfg ∧
    ∃ added, t.drv.trace = s.drv.trace ++ added ∧ ∀ d : BitVec 3, added.count (.on d) = lit d

theorem Refreshed.trans {j k : Nat} {s t u : State} {x y : Dsp} {p q : BitVec 3 → Nat}
    (first : Refreshed j s t x p) (second : Refreshed k t u y q) :
    Refreshed (j + k) s u y fun d => p d + q d := by
  obtain ⟨run, -, cfg, added, trace, lit⟩ := first
  obtain ⟨run', dsp', cfg', added', trace', lit'⟩ := second
  refine ⟨?_, dsp', cfg'.trans cfg, added ++ added', ?_, fun d => ?_⟩
  · rw [repeated_add, run, andThen_of_next, run']
  · rw [trace', trace, List.append_assoc]
  · rw [List.count_append, lit, lit']

theorem Refreshed.congr {k : Nat} {s t : State} {x : Dsp} {p q : BitVec 3 → Nat}
    (h : Refreshed k s t x p) (same : ∀ d, p d = q d) : Refreshed k s t x q := funext same ▸ h

theorem refreshed_one (s : State) :
    ∃ t, Refreshed 1 s t (dspAfterRefresh s.digits s.dsp)
      fun d => if d = nextDigit s.digits s.dsp then 1 else 0 := by
  refine ⟨_, (repeated_one _ s).trans (exec_dspRefresh s), rfl, rfl, _, rfl, fun d => ?_⟩
  simp [List.count_cons, eq_comm (a := d)]

/-- A digit register holds a number below 8 exactly when it has its value. -/
theorem eq_ofNat_iff {d : BitVec 3} {k : Nat} (h : k < 8) : d = BitVec.ofNat 3 k ↔ d.toNat = k := by
  rw [← BitVec.toNat_inj, BitVec.toNat_ofNat, Nat.mod_eq_of_lt h]

/-- A refresh below the last digit moves the cursor alone. -/
theorem dspAfterRefresh_of_lt {n : Nat} {x : Dsp} (h8 : n ≤ 8) (h : x.cur.toNat + 1 < n) :
    dspAfterRefresh n x = { x with cur := nextDigit n x } ∧
      nextDigit n x = BitVec.ofNat 3 (x.cur.toNat + 1) := by
  have next := nextDigit_toNat x (by omega) h8
  rw [Nat.mod_eq_of_lt h] at next
  refine ⟨?_, (eq_ofNat_iff (by omega)).2 next⟩
  rw [Display.dspAfterRefresh_eq, if_neg]
  intro zero
  simp [zero] at next

/-- A refresh of the last digit wraps the cursor and advances the phases. -/
theorem dspAfterRefresh_of_last {n : Nat} {x : Dsp} (h8 : n ≤ 8) (h : x.cur.toNat + 1 = n) :
    dspAfterRefresh n x = { advancePhases n x with cur := 0 } ∧ nextDigit n x = 0 := by
  have next := nextDigit_toNat x (by omega) h8
  rw [h, Nat.mod_self] at next
  have zero : nextDigit n x = 0 := BitVec.eq_of_toNat_eq next
  rw [Display.dspAfterRefresh_eq, if_pos zero, zero]
  exact ⟨rfl, rfl⟩

/-- Refreshes that stay on the display light the digits after the cursor, once each. -/
theorem refreshed_of_lt (k : Nat) {s : State} (h : s.dsp.cur.toNat + k < s.digits) :
    ∃ t, Refreshed k s t { s.dsp with cur := BitVec.ofNat 3 (s.dsp.cur.toNat + k) }
      fun d => if s.dsp.cur.toNat < d.toNat ∧ d.toNat ≤ s.dsp.cur.toNat + k then 1 else 0 := by
  have n_le := digits_le s
  induction k with
  | zero =>
    refine ⟨s, rfl, by simp, rfl, [], by simp, fun d => ?_⟩
    exact (if_neg (by omega)).symm
  | succ k ih =>
    obtain ⟨t, run⟩ := ih (by omega)
    have ⟨_, dsp, cfg, _⟩ := run
    obtain ⟨u, one⟩ := refreshed_one t
    have digits : t.digits = s.digits := congrArg digitCount cfg
    have cur : t.dsp.cur.toNat = s.dsp.cur.toNat + k := by
      rw [dsp]
      exact (eq_ofNat_iff (by omega)).1 rfl
    obtain ⟨moved, next⟩ := dspAfterRefresh_of_lt (n := s.digits) (x := t.dsp) n_le (by omega)
    rw [digits, moved, next, cur, dsp] at one
    refine ⟨u, (run.trans one).congr fun d => ?_⟩
    simp only [eq_ofNat_iff (d := d) (show s.dsp.cur.toNat + k + 1 < 8 by omega)]
    split_ifs <;> omega

/-- Settles O36: the cycle lights the digits above the cursor, digit 0 with the phases advanced, and the
digits up to the old cursor. -/
theorem muxCycleLightsEachDigitOnce : Obligations.MuxCycleLightsEachDigitOnce := by
  intro s inside
  have n_le := digits_le s
  have length : s.digits = s.digits - 1 - s.dsp.cur.toNat + 1 + s.dsp.cur.toNat := by omega
  obtain ⟨t, up⟩ := refreshed_of_lt (s := s) (s.digits - 1 - s.dsp.cur.toNat) (by omega)
  have ⟨_, dsp, cfg, _⟩ := up
  have digits : t.digits = s.digits := congrArg digitCount cfg
  have last : t.dsp.cur.toNat + 1 = s.digits := by
    rw [dsp, (eq_ofNat_iff (by omega)).1 rfl]
    omega
  obtain ⟨u, wrap⟩ := refreshed_one t
  obtain ⟨wrapped, next⟩ := dspAfterRefresh_of_last n_le last
  rw [digits, wrapped, next] at wrap
  have ⟨_, dsp', cfg', _⟩ := wrap
  have digits' : u.digits = s.digits := congrArg digitCount (cfg'.trans cfg)
  have cur' : u.dsp.cur.toNat = 0 := by rw [dsp']; rfl
  obtain ⟨v, back⟩ := refreshed_of_lt (s := u) s.dsp.cur.toNat (by omega)
  obtain ⟨run, dsp'', cfg'', added, trace, lit⟩ := (up.trans wrap).trans back
  rw [← length] at run
  refine ⟨v, run, ?_, cfg'', added, trace, fun d => ?_⟩
  · rw [dsp'', cur', dsp', dsp, Nat.zero_add, BitVec.ofNat_toNat, BitVec.setWidth_eq]
    rfl
  · have zero : d = 0 ↔ d.toNat = 0 := BitVec.toNat_inj.symm
    simp only [lit, cur', zero]
    split_ifs <;> omega

end Sys2Proof.MuxCycle
end

section
/-! What each command can write (R2, R28, R47): for every unit the registers a command leaves in it, tied
to `exec` by one lemma; then who changes the time, the ringing latch and the alarm output, which commands
may be repeated, and what a rejected command changes. -/

namespace Sys2Proof.Commands

open Sys2Proof Sys2Proof.Machine Sys2Proof.Stated

/-! ## The registers a command leaves in each unit -/

/-- The clock engine after a command. -/
def clkAfter (i : Instr) (s : State) : Clk :=
  match i with
  | .clkSetTime u => clkSetTime u s.clk
  | .clkTick => clkTick s.cfg.tps.val s.clk
  | .clkSetAlarm u => clkSetAlarm u s.clk
  | .clkAlarmIsRinging => clkAlarmIsRinging s.clk
  | .clkSetAlarmEnabled b => clkSetAlarmEnabled b s.clk
  | .clkPostponeAlarm => clkPostponeAlarm s.clk
  | .clkPostponeMinutes n => (clkPostponeMinutes n s.clk).1
  | .clkPostponeOneDay => clkPostponeOneDay s.clk
  | .clkResetAlarm => clkResetAlarm s.clk
  | .fsmStep btn eet eea xa => (fsmStep btn eet eea xa s).clk
  | _ => s.clk

/-- The display engine after a command. -/
def dspAfter (i : Instr) (s : State) : Dsp :=
  match i with
  | .dspWriteBcd size v => (dspWriteBcd s.cfg size v s.dsp).1
  | .dspRefresh => dspAfterRefresh s.digits s.dsp
  | .dspCfgDigitBlink first last divisor => (dspCfgDigitBlink s.digits first last divisor s.dsp).1
  | .dspCfgDotBlink digit divisor en => (dspCfgDotBlink s.digits digit divisor en s.dsp).1
  | .fsmStep btn eet eea xa => (fsmStep btn eet eea xa s).dsp
  | _ => s.dsp

/-- The pattern that a refresh shows. -/
def refreshPattern (s : State) : BitVec 8 :=
  patternOf (dspAfterRefresh s.digits s.dsp) (nextDigit s.digits s.dsp)

/-- The driver's outputs after a command: only a refresh calls the driver. -/
def drvAfter (i : Instr) (s : State) : Drv :=
  match i with
  | .dspRefresh =>
    { segOut := refreshPattern s
      digOn := some (nextDigit s.digits s.dsp)
      trace := s.drv.trace ++
        [.offAll, .update (refreshPattern s), .on (nextDigit s.digits s.dsp)] }
  | _ => s.drv

/-- The edge detectors after a command. -/
def edgAfter (i : Instr) (s : State) : Vector Bool edgeN :=
  match i with
  | .edgSample idx smp => if h : idx.toNat < 6 then s.edg.set idx.toNat smp h else s.edg
  | _ => s.edg

/-- The coordinator after a command. -/
def fsmAfter (i : Instr) (s : State) : Fsm :=
  match i with
  | .fsmStep btn eet eea xa => (fsmStep btn eet eea xa s).fsm
  | _ => s.fsm

theorem edgAfter_of_detector {idx : BitVec 4} (h : idx.toNat < 6) (smp : Bool) (s : State) :
    edgAfter (.edgSample idx smp) s = s.edg.set idx.toNat smp := dif_pos h

theorem edgAfter_of_no_detector {idx : BitVec 4} (h : 6 ≤ idx.toNat) (smp : Bool) (s : State) :
    edgAfter (.edgSample idx smp) s = s.edg := dif_neg (Nat.not_lt.2 h)

/-- A command that completes leaves these registers, its response, and everything else as it was. -/
theorem exec_eq {i : Instr} {s t : State} (h : exec i s = .next t) :
    t = { s with clk := clkAfter i s, dsp := dspAfter i s, drv := drvAfter i s, edg := edgAfter i s,
                 fsm := fsmAfter i s, resp := t.resp } := by
  cases i
  case fsmStep btn eet eea xa =>
    obtain ⟨-, rfl⟩ := exec_fsmStep_next h
    exact Editing.respond_fsmStep _ btn eet eea xa s
  case dspRefresh =>
    rw [exec_dspRefresh] at h
    obtain rfl := Host.Outcome.next.inj h
    rfl
  case edgSample idx smp =>
    obtain inside | outside := Nat.lt_or_ge idx.toNat 6
    · have run := Edge.exec_edgSample_of_detector (k := ⟨idx.toNat, inside⟩) rfl smp s
      obtain rfl := Host.Outcome.next.inj (run.symm.trans h)
      rw [edgAfter_of_detector inside]
      rfl
    · have run := Edge.exec_edgSample_of_no_detector outside smp s
      obtain rfl := Host.Outcome.next.inj (run.symm.trans h)
      rw [edgAfter_of_no_detector outside]
      rfl
  all_goals
    obtain rfl := Host.Outcome.next.inj h
    rfl

section

variable {i : Instr} {s t : State}

theorem exec_cfg (h : exec i s = .next t) : t.cfg = s.cfg := (congrArg State.cfg (exec_eq h) :)

theorem exec_clk (h : exec i s = .next t) : t.clk = clkAfter i s := (congrArg State.clk (exec_eq h) :)

theorem exec_dsp (h : exec i s = .next t) : t.dsp = dspAfter i s := (congrArg State.dsp (exec_eq h) :)

theorem exec_drv (h : exec i s = .next t) : t.drv = drvAfter i s := (congrArg State.drv (exec_eq h) :)

theorem exec_edg (h : exec i s = .next t) : t.edg = edgAfter i s := (congrArg State.edg (exec_eq h) :)

theorem exec_fsm (h : exec i s = .next t) : t.fsm = fsmAfter i s := (congrArg State.fsm (exec_eq h) :)

theorem exec_digits (h : exec i s = .next t) : t.digits = s.digits :=
  congrArg digitCount (exec_cfg h)

end

/-! ## The unit of a command (R51) -/

/-- The high nibble of the opcode: 1 clock, 2 display, 3 edge detectors, 4 coordinator. -/
def unitOf (i : Instr) : BitVec 4 := i.opcode.extractLsb' 4 4

theorem opcode_unit (i : Instr) : (opcodeOf (encode i)).extractLsb' 4 4 = unitOf i :=
  congrArg (·.extractLsb' 4 4) (Laws.encodedOpcode i)

section

variable {i : Instr} (s : State)

theorem clkAfter_of_unit (h : unitOf i ≠ 1) (h' : unitOf i ≠ 4) : clkAfter i s = s.clk := by
  unfold clkAfter
  split
  case h_11 => rfl
  all_goals simp [unitOf, Instr.opcode] at h h'

theorem dspAfter_of_unit (h : unitOf i ≠ 2) (h' : unitOf i ≠ 4) : dspAfter i s = s.dsp := by
  cases i
  case dspWriteBcd | dspRefresh | dspCfgDigitBlink | dspCfgDotBlink =>
    simp [unitOf, Instr.opcode] at h
  case fsmStep => simp [unitOf, Instr.opcode] at h'
  all_goals rfl

theorem drvAfter_of_ne (h : i ≠ .dspRefresh) : drvAfter i s = s.drv := by
  unfold drvAfter
  split
  · exact (h rfl).elim
  · rfl

theorem drvAfter_of_unit (h : unitOf i ≠ 2) : drvAfter i s = s.drv :=
  drvAfter_of_ne s fun refresh => h (refresh ▸ rfl)

theorem edgAfter_of_unit (h : unitOf i ≠ 3) : edgAfter i s = s.edg := by
  unfold edgAfter
  split
  · simp [unitOf, Instr.opcode] at h
  · rfl

theorem fsmAfter_of_unit (h : unitOf i ≠ 4) : fsmAfter i s = s.fsm := by
  unfold fsmAfter
  split
  · simp [unitOf, Instr.opcode] at h
  · rfl

end

/-- Settles O52: a unit that is not the command's own keeps its registers. -/
theorem commandsStayInTheirUnits : Obligations.CommandsStayInTheirUnits := by
  intro i s t h
  have whole := exec_eq h
  rw [opcode_unit]
  refine ⟨⟨(congrArg State.cfg whole :), (congrArg State.rsp whole :), (congrArg State.tickRsp whole :),
    (congrArg State.fsmRsp whole :), (congrArg State.inbox whole :)⟩, fun unit => ?_, fun unit =>
      ⟨?_, fun other => (exec_drv h).trans (drvAfter_of_ne s other)⟩, fun unit => ?_, fun unit => ?_⟩
  · rwa [dspAfter_of_unit s (by simp [unit]) (by simp [unit]), drvAfter_of_unit s (by simp [unit]),
      edgAfter_of_unit s (by simp [unit]), fsmAfter_of_unit s (by simp [unit]), ← exec_clk h] at whole
  · rwa [clkAfter_of_unit s (by simp [unit]) (by simp [unit]), edgAfter_of_unit s (by simp [unit]),
      fsmAfter_of_unit s (by simp [unit]), ← exec_dsp h, ← exec_drv h] at whole
  · rwa [clkAfter_of_unit s (by simp [unit]) (by simp [unit]),
      dspAfter_of_unit s (by simp [unit]) (by simp [unit]), drvAfter_of_unit s (by simp [unit]),
      fsmAfter_of_unit s (by simp [unit]), ← exec_edg h] at whole
  · rwa [drvAfter_of_unit s (by simp [unit]), edgAfter_of_unit s (by simp [unit]), ← exec_clk h,
      ← exec_dsp h, ← exec_fsm h] at whole

/-! ## The current time and the accumulator (R74, R75, R117) -/

@[simp] theorem clkSetTime_acc (u : BcdTime) (x : Clk) : (clkSetTime u x).acc = x.acc := by
  obtain ⟨-, h⟩ | ⟨-, h⟩ := clkSetTime_cases u x <;> rw [h]

@[simp] theorem clkPostponeMinutes_acc (n : BitVec 8) (x : Clk) :
    (clkPostponeMinutes n x).1.acc = x.acc := by
  obtain ⟨-, h⟩ | ⟨-, h⟩ := clkPostponeMinutes_cases n x <;> rw [h]

@[simp] theorem clkPostponeMinutes_cur (n : BitVec 8) (x : Clk) :
    (clkPostponeMinutes n x).1.cur = x.cur := by
  obtain ⟨-, h⟩ | ⟨-, h⟩ := clkPostponeMinutes_cases n x <;> rw [h]

/-- Only a tick counts (R25). -/
theorem clkAfter_acc {i : Instr} (s : State) (h : i ≠ .clkTick) : (clkAfter i s).acc = s.clk.acc := by
  cases i
  case clkTick => exact (h rfl).elim
  case clkSetTime u => exact clkSetTime_acc u s.clk
  case clkAlarmIsRinging => exact (clkAlarmIsRinging_frame s.clk).2.1
  case clkPostponeMinutes n => exact clkPostponeMinutes_acc n s.clk
  case fsmStep btn eet eea xa => exact (fsmStep_frame btn eet eea xa s).2.1
  all_goals rfl

/-- The time after a coordinator step: as it was, or the time buffer that the step committed. -/
theorem fsmStep_cur_cases (btn : Buttons) (eet eea xa : Bool) (s : State) :
    (fsmStep btn eet eea xa s).clk.cur = s.clk.cur ∨
      s.fsm.state = .adjustTimeHours ∧ discards (fired btn s) xa = false ∧
        (fired btn s).acc = true ∧
          ∃ u, validBcd u = true ∧ seconds u = 0 ∧ (fsmStep btn eet eea xa s).clk.cur = u ∧
            (fsmStep btn eet eea xa s).fsm.etime = u := by
  obtain ⟨-, clk, -, -⟩ | ⟨-, clk, -, -⟩ | ⟨kind, field, state, clk, -, fsm⟩ :=
    fsmStep_cases btn eet eea xa s
  · rw [clk, showTimeClk_eq]
    exact .inl rfl
  · rw [clk]
    exact .inl (controlAlarmClk_frame _ _).1
  · obtain same | ⟨⟨stay, rfl, accept⟩, -⟩ := adjustClk_cases kind field
      (firing btn (testedSet s) s.fsm.armed) xa (editBuffer kind s.fsm) s.clk
    · exact .inl (by rw [clk, same])
    · obtain ⟨committed, stored⟩ := Editing.adjust_of_commit (kind := kind)
        (editBuffer kind s.fsm) s.clk (latched btn s) stay accept
      rw [clk, fsm, committed, stored]
      cases kind with
      | alarm => exact .inl rfl
      | time =>
        rw [commit]
        obtain ⟨valid, set⟩ | ⟨-, set⟩ := clkSetTime_cases
          (zeroSeconds (editedBuffer .hours (firing btn (testedSet s) s.fsm.armed) s.fsm.etime)) s.clk
        · exact .inr ⟨state, stay, accept, _, valid, seconds_zeroSeconds _, congrArg Clk.cur set, rfl⟩
        · exact .inl (congrArg Clk.cur set :)

/-- The time after a command: as it was, one second later, set, or committed. -/
theorem clkAfter_cur_cases (i : Instr) (s : State) :
    (clkAfter i s).cur = s.clk.cur ∨
      (i = .clkTick ∧ s.clk.acc.toNat + 1 = s.cfg.tps.val.toNat ∧
        (clkAfter i s).cur = advanceSecond s.clk.cur) ∨
      (∃ u, i = .clkSetTime u ∧ validBcd u = true ∧ (clkAfter i s).cur = u) ∨
      ∃ btn eet eea xa, i = .fsmStep btn eet eea xa ∧ s.fsm.state = .adjustTimeHours ∧
        discards (fired btn s) xa = false ∧ (fired btn s).acc = true ∧
          ∃ u, validBcd u = true ∧ seconds u = 0 ∧ (clkAfter i s).cur = u ∧
            (fsmAfter i s).etime = u := by
  cases i
  case clkSetTime u =>
    obtain ⟨valid, h⟩ | ⟨-, h⟩ := clkSetTime_cases u s.clk
    · exact .inr (.inr (.inl ⟨u, rfl, valid, congrArg Clk.cur h⟩))
    · exact .inl (congrArg Clk.cur h :)
  case clkTick =>
    obtain ⟨complete, h⟩ | ⟨-, h⟩ := clkTick_cases s.cfg.tps.val s.clk
    · exact .inr (.inl ⟨rfl, complete, congrArg Clk.cur h⟩)
    · exact .inl (congrArg Clk.cur h :)
  case clkAlarmIsRinging => exact .inl (clkAlarmIsRinging_frame s.clk).1
  case clkPostponeMinutes n => exact .inl (clkPostponeMinutes_cur n s.clk)
  case fsmStep btn eet eea xa =>
    obtain same | committed := fsmStep_cur_cases btn eet eea xa s
    · exact .inl same
    · exact .inr (.inr (.inr ⟨btn, eet, eea, xa, rfl, committed⟩))
  all_goals exact .inl rfl

/-- Settles O29: of the four cases of the time after a command, three change it. -/
theorem onlyTicksAndSetsChangeTheTime : Obligations.OnlyTicksAndSetsChangeTheTime := by
  intro i s t h changed
  rw [exec_clk h] at changed ⊢
  obtain same | tick | set | ⟨btn, eet, eea, xa, hi, state, stay, accept, u, -, second, cur, etime⟩ :=
    clkAfter_cur_cases i s
  · exact absurd same changed
  · exact .inl tick
  · exact .inr (.inl set)
  · obtain ⟨noExit, noCancel⟩ := Bool.or_eq_false_iff.1 stay
    refine .inr (.inr ⟨btn, eet, eea, xa, hi, state, noExit, noCancel, accept, ?_, ?_⟩)
    · rw [cur, exec_fsm h, etime]
    · rw [cur, second]

/-! ## The ringing latch (R79) -/

@[simp] theorem clkSetTime_ring (u : BcdTime) (x : Clk) : (clkSetTime u x).ring = x.ring := by
  obtain ⟨-, h⟩ | ⟨-, h⟩ := clkSetTime_cases u x <;> rw [h]

@[simp] theorem clkTick_ring (tps : BitVec 16) (x : Clk) : (clkTick tps x).ring = x.ring := by
  obtain ⟨-, h⟩ | ⟨-, h⟩ := clkTick_cases tps x <;> rw [h]

/-- An evaluation does not clear the latch. -/
theorem clkAlarmIsRinging_ring_of_ringing {x : Clk} (h : x.ring = true) :
    (clkAlarmIsRinging x).ring = true := by
  obtain ⟨-, -, e⟩ | ⟨-, -, e⟩ | ⟨-, e⟩ := clkAlarmIsRinging_cases x
  · rw [e]
  · rwa [e]
  · rwa [e]

/-- An evaluation sets the latch only on a match with the alarm enabled (R78). -/
theorem match_of_clkAlarmIsRinging_ring {x : Clk} (was : x.ring = false)
    (h : (clkAlarmIsRinging x).ring = true) : x.cur = x.snooze ∧ x.en = true := by
  obtain ⟨hit, enabled, -⟩ | ⟨-, -, e⟩ | ⟨-, e⟩ := clkAlarmIsRinging_cases x
  · exact ⟨hit, enabled⟩
  · rw [e, was] at h
    cases h
  · rw [e, was] at h
    cases h

theorem controlAlarmClk_ring (fire : Buttons) (x : Clk) :
    (controlAlarmClk fire x).ring = ((clkAlarmIsRinging x).ring && !fire.acc && !fire.can) := by
  unfold controlAlarmClk
  cases fire.acc <;> cases fire.can <;>
    simp [clkPostponeMinutes_snooze, clkPostponeOneDay]

/-- Only a `ControlAlarm` step of the coordinator writes the latch. -/
theorem fsmStep_ring_cases (btn : Buttons) (eet eea xa : Bool) (s : State) :
    (fsmStep btn eet eea xa s).clk.ring = s.clk.ring ∨
      s.fsm.state = .controlAlarm ∧
        (fsmStep btn eet eea xa s).clk.ring =
          ((clkAlarmIsRinging s.clk).ring && !(fired btn s).acc && !(fired btn s).can) := by
  obtain ⟨-, clk, -, -⟩ | ⟨state, clk, -, -⟩ | ⟨kind, field, -, clk, -, -⟩ :=
    fsmStep_cases btn eet eea xa s
  · rw [clk, showTimeClk_eq]
    exact .inl rfl
  · rw [clk]
    exact .inr ⟨state, controlAlarmClk_ring _ _⟩
  · rw [clk]
    obtain h | ⟨-, h⟩ := adjustClk_cases kind field (firing btn (testedSet s) s.fsm.armed) xa
      (editBuffer kind s.fsm) s.clk
    · rw [h]
      exact .inl rfl
    · rw [h]
      cases kind with
      | time => exact .inl (clkSetTime_ring _ _)
      | alarm => exact .inl rfl

/-- The commands that clear the latch whenever they succeed (R79). -/
def ClearsRing (i : Instr) : Prop :=
  i = .clkPostponeAlarm ∨
    (∃ n : BitVec 8, i = .clkPostponeMinutes n ∧ 1 ≤ n.toNat ∧ n.toNat < 60) ∨
      i = .clkPostponeOneDay ∨ i = .clkResetAlarm

/-- The latch after a command: as it was, evaluated, cleared, or what a `ControlAlarm` step leaves. -/
theorem clkAfter_ring_cases (i : Instr) (s : State) :
    (clkAfter i s).ring = s.clk.ring ∨
      (i = .clkAlarmIsRinging ∧ (clkAfter i s).ring = (clkAlarmIsRinging s.clk).ring) ∨
      (ClearsRing i ∧ (clkAfter i s).ring = false) ∨
      ∃ btn eet eea xa, i = .fsmStep btn eet eea xa ∧ s.fsm.state = .controlAlarm ∧
        (clkAfter i s).ring =
          ((clkAlarmIsRinging s.clk).ring && !(fired btn s).acc && !(fired btn s).can) := by
  cases i
  case clkSetTime u => exact .inl (clkSetTime_ring u s.clk)
  case clkTick => exact .inl (clkTick_ring s.cfg.tps.val s.clk)
  case clkAlarmIsRinging => exact .inr (.inl ⟨rfl, rfl⟩)
  case clkPostponeAlarm => exact .inr (.inr (.inl ⟨.inl rfl, rfl⟩))
  case clkPostponeMinutes n =>
    obtain ⟨-, h⟩ | ⟨legal, h⟩ := clkPostponeMinutes_cases n s.clk
    · exact .inl (congrArg (·.1.ring) h)
    · exact .inr (.inr (.inl ⟨.inr (.inl ⟨n, rfl, legal⟩), congrArg (·.1.ring) h⟩))
  case clkPostponeOneDay => exact .inr (.inr (.inl ⟨.inr (.inr (.inl rfl)), rfl⟩))
  case clkResetAlarm => exact .inr (.inr (.inl ⟨.inr (.inr (.inr rfl)), rfl⟩))
  case fsmStep btn eet eea xa =>
    obtain same | control := fsmStep_ring_cases btn eet eea xa s
    · exact .inl same
    · exact .inr (.inr (.inr ⟨btn, eet, eea, xa, rfl, control⟩))
  all_goals exact .inl rfl

/-- Settles O25, by the cases of the latch after a command. -/
theorem ringIsALatch : Obligations.RingIsALatch := by
  intro i s t h
  rw [exec_clk h]
  obtain same | ⟨hi, ring⟩ | ⟨clears, off⟩ | ⟨btn, eet, eea, xa, hi, state, ring⟩ :=
    clkAfter_ring_cases i s
  · rw [same]
    exact ⟨fun on off => by simp [on] at off, fun off on => by simp [off] at on⟩
  · rw [ring]
    refine ⟨fun on off => ?_, fun was now => ?_⟩
    · simp [clkAlarmIsRinging_ring_of_ringing on] at off
    · obtain ⟨hit, enabled⟩ := match_of_clkAlarmIsRinging_ring was now
      exact ⟨hit, enabled, .inl hi⟩
  · rw [off]
    refine ⟨fun _ _ => ?_, fun _ on => by simp at on⟩
    obtain hi | hi | hi | hi := clears
    · exact .inl hi
    · exact .inr (.inl hi)
    · exact .inr (.inr (.inl hi))
    · exact .inr (.inr (.inr (.inl hi)))
  · rw [ring]
    refine ⟨fun on off => ?_, fun was now => ?_⟩
    · rw [clkAlarmIsRinging_ring_of_ringing on] at off
      refine .inr (.inr (.inr (.inr ⟨btn, eet, eea, xa, hi, state, ?_⟩)))
      cases accept : (fired btn s).acc with
      | true => exact .inl rfl
      | false => exact .inr (by simpa [accept] using off)
    · simp only [Bool.and_eq_true] at now
      obtain ⟨⟨evaluated, -⟩, -⟩ := now
      obtain ⟨hit, enabled⟩ := match_of_clkAlarmIsRinging_ring was evaluated
      exact ⟨hit, enabled, .inr ⟨btn, eet, eea, xa, hi, state⟩⟩

/-! ## The alarm output (R123) -/

theorem fsmStep_alarmOut {s : State} (h : s.fsm.state ≠ .controlAlarm) (btn : Buttons)
    (eet eea xa : Bool) : (fsmStep btn eet eea xa s).fsm.alarmOut = s.fsm.alarmOut := by
  obtain ⟨-, -, -, fsm⟩ | ⟨state, -⟩ | ⟨kind, field, -, -, -, fsm⟩ := fsmStep_cases btn eet eea xa s
  · rw [fsm, showTimeFsm_eq]
    rfl
  · exact absurd state h
  · rw [fsm]
    exact (adjustFsm_frame ..).2.2

/-- Settles O50: every other command and every other state keep the output. -/
theorem alarmOutputChangesOnlyInControlAlarm : Obligations.AlarmOutputChangesOnlyInControlAlarm := by
  intro i s t h changed
  rw [exec_fsm h] at changed
  unfold fsmAfter at changed
  split at changed
  · next btn eet eea xa =>
    refine ⟨⟨btn, eet, eea, xa, rfl⟩, ?_⟩
    by_contra other
    exact changed (fsmStep_alarmOut other btn eet eea xa)
  · exact absurd rfl changed

/-! ## Repeated commands (R41) -/

theorem clkSetTime_idem (u : BcdTime) (x : Clk) : clkSetTime u (clkSetTime u x) = clkSetTime u x := by
  by_cases h : validBcd u = true
  · simp [clkSetTime, h]
  · simp [clkSetTime, h]

theorem clkPostponeMinutes_idem (n : BitVec 8) (x : Clk) :
    clkPostponeMinutes n (clkPostponeMinutes n x).1 = clkPostponeMinutes n x := by
  by_cases h : badPostponement n = true
  · simp [clkPostponeMinutes, h]
  · simp [clkPostponeMinutes, h]

/-- A second evaluation finds the latch set, or the baseline at the alarm. -/
theorem clkAlarmIsRinging_idem (x : Clk) :
    clkAlarmIsRinging (clkAlarmIsRinging x) = clkAlarmIsRinging x := by
  obtain ⟨hit, enabled, h⟩ | ⟨-, disabled, h⟩ | ⟨-, h⟩ := clkAlarmIsRinging_cases x
  · rw [h]
    simp [clkAlarmIsRinging, hit, enabled]
  · rw [h]
    simp [clkAlarmIsRinging, disabled]
  · rw [h, h]

theorem dspWriteBcd_idem (c : Config) (size : BitVec 4) (v : Vector Nibble 8) (x : Dsp) :
    dspWriteBcd c size v (dspWriteBcd c size v x).1 = dspWriteBcd c size v x := by
  by_cases h : badValues (min size.toNat (digitCount c)) v = true
  · simp only [dspWriteBcd, if_pos h]
  · simp only [dspWriteBcd, if_neg h, get_ofFn]
    congr 3
    funext d
    split_ifs <;> rfl

theorem dspCfgDigitBlink_idem (n : Nat) (first last : BitVec 4) (divisor : BitVec 16) (x : Dsp) :
    dspCfgDigitBlink n first last divisor (dspCfgDigitBlink n first last divisor x).1 =
      dspCfgDigitBlink n first last divisor x := by
  by_cases h : badWindow n first last = true
  · simp only [dspCfgDigitBlink, if_pos h]
  · simp only [dspCfgDigitBlink, if_neg h]

theorem dspCfgDotBlink_idem (n : Nat) (digit : BitVec 4) (divisor : BitVec 16) (en : Bool) (x : Dsp) :
    dspCfgDotBlink n digit divisor en (dspCfgDotBlink n digit divisor en x).1 =
      dspCfgDotBlink n digit divisor en x := by
  by_cases h : n ≤ digit.toNat
  · simp only [dspCfgDotBlink, if_pos h]
  · simp only [dspCfgDotBlink, if_neg h, get_ofFn]
    congr 3
    funext d
    split_ifs <;> rfl

section

variable {i : Instr} {s t : State}

/-- A clock command whose operation is idempotent and whose answer does not change repeats. -/
theorem repeats_of_clk {f : Clk → Clk} {r : Clk → Word64}
    (run : ∀ u : State, exec i u = .next { u with clk := f u.clk, resp := r u.clk })
    (idem : ∀ x, f (f x) = f x) (answer : ∀ x, r (f x) = r x) (h : exec i s = .next t) :
    exec i t = .next t := by
  rw [run] at h ⊢
  obtain rfl := Host.Outcome.next.inj h
  simp only [idem, answer]

/-- A display command whose operation is idempotent, result included, repeats. -/
theorem repeats_of_dsp {f : Config → Dsp → Dsp × Bool}
    (run : ∀ u : State, exec i u =
      .next { u with dsp := (f u.cfg u.dsp).1, resp := resAnswer (f u.cfg u.dsp).2 })
    (idem : ∀ c x, f c (f c x).1 = f c x) (h : exec i s = .next t) : exec i t = .next t := by
  rw [run] at h ⊢
  obtain rfl := Host.Outcome.next.inj h
  simp only [idem]

/-- A command that only answers, from the clock engine's registers, repeats. -/
theorem repeats_of_answer {r : Clk → Word64}
    (run : ∀ u : State, exec i u = .next { u with resp := r u.clk }) (h : exec i s = .next t) :
    exec i t = .next t := repeats_of_clk (f := id) run (fun _ => rfl) (fun _ => rfl) h

end

/-- Settles O51: the operation of each command of the table is idempotent. -/
theorem idempotentCommandsRepeat : Obligations.IdempotentCommandsRepeat := by
  intro i s t listed
  obtain ⟨u, rfl⟩ | ⟨u, rfl⟩ | ⟨b, rfl⟩ | rfl | rfl | ⟨n, rfl⟩ | rfl | rfl | rfl | ⟨u, rfl⟩ | ⟨u, rfl⟩ |
    ⟨u, rfl⟩ | ⟨u, rfl⟩ | ⟨n, v, rfl⟩ | ⟨f, l, k, rfl⟩ | ⟨d, k, b, rfl⟩ := listed
  · exact repeats_of_clk (f := clkSetTime u) (r := fun x => resAnswer (clkSetTime u x).valid)
      (Clock.exec_clkSetTime u) (clkSetTime_idem u) fun x => by rw [clkSetTime_idem]
  · exact repeats_of_clk (f := clkSetAlarm u) (r := fun _ => resAnswer true)
      (Clock.exec_clkSetAlarm u) (fun _ => rfl) fun _ => rfl
  · exact repeats_of_clk (f := clkSetAlarmEnabled b) (r := fun _ => noFields)
      (Clock.exec_clkSetAlarmEnabled b) (fun _ => rfl) fun _ => rfl
  · exact repeats_of_clk (f := clkPostponeOneDay) (r := fun _ => noFields)
      Clock.exec_clkPostponeOneDay (fun _ => rfl) fun _ => rfl
  · exact repeats_of_clk (f := clkResetAlarm) (r := fun _ => noFields)
      Clock.exec_clkResetAlarm (fun _ => rfl) fun _ => rfl
  · exact repeats_of_clk (f := fun x => (clkPostponeMinutes n x).1)
      (r := fun x => resAnswer (clkPostponeMinutes n x).2) (Clock.exec_clkPostponeMinutes n)
      (fun x => congrArg Prod.fst (clkPostponeMinutes_idem n x))
      fun x => by rw [clkPostponeMinutes_idem]
  · exact repeats_of_clk (f := clkAlarmIsRinging)
      (r := fun x => resAnswer (clkAlarmIsRinging x).ring)
      Clock.exec_clkAlarmIsRinging clkAlarmIsRinging_idem fun x => by rw [clkAlarmIsRinging_idem]
  · exact repeats_of_answer (r := fun x => timeResAnswer x.cur x.valid) Clock.exec_clkGetTime
  · exact repeats_of_answer (r := fun x => timeResAnswer x.alarm x.valid) Clock.exec_clkGetAlarm
  · exact repeats_of_answer (r := fun _ => timeAnswer (bcdIncMin u)) (Clock.exec_bcdIncMin u)
  · exact repeats_of_answer (r := fun _ => timeAnswer (bcdDecMin u)) (Clock.exec_bcdDecMin u)
  · exact repeats_of_answer (r := fun _ => timeAnswer (bcdIncHr u)) (Clock.exec_bcdIncHr u)
  · exact repeats_of_answer (r := fun _ => timeAnswer (bcdDecHr u)) (Clock.exec_bcdDecHr u)
  · exact repeats_of_dsp (f := fun c => dspWriteBcd c n v) (Display.exec_dspWriteBcd · n v)
      fun c x => dspWriteBcd_idem c n v x
  · exact repeats_of_dsp (f := fun c => dspCfgDigitBlink (digitCount c) f l k)
      (Display.exec_dspCfgDigitBlink · f l k) fun c x => dspCfgDigitBlink_idem (digitCount c) f l k x
  · exact repeats_of_dsp (f := fun c => dspCfgDotBlink (digitCount c) d k b)
      (Display.exec_dspCfgDotBlink · d k b) fun c x => dspCfgDotBlink_idem (digitCount c) d k b x

/-! ## Rejected commands (R126, R127) -/

/-- The `RES` bit of an answer. -/
theorem resAnswer_bit (b : Bool) : (resAnswer b).getLsbD 32 = b := resBit_word { res := b }

section

variable {x : Clk} {y : Dsp}

theorem clkPostponeMinutes_of_rejected {n : BitVec 8} (h : (clkPostponeMinutes n x).2 = false) :
    (clkPostponeMinutes n x).1 = x := by
  obtain ⟨-, e⟩ | ⟨-, e⟩ := clkPostponeMinutes_cases n x
  · rw [e]
  · simp [e] at h

theorem dspWriteBcd_of_rejected {c : Config} {size : BitVec 4} {v : Vector Nibble 8}
    (h : (dspWriteBcd c size v y).2 = false) : (dspWriteBcd c size v y).1 = y := by
  obtain ⟨-, e⟩ | ⟨-, g, e, -⟩ := dspWriteBcd_cases c size v y
  · rw [e]
  · simp [e] at h

theorem dspCfgDigitBlink_of_rejected {n : Nat} {first last : BitVec 4} {divisor : BitVec 16}
    (h : (dspCfgDigitBlink n first last divisor y).2 = false) :
    (dspCfgDigitBlink n first last divisor y).1 = y := by
  obtain ⟨-, e⟩ | ⟨-, e⟩ := dspCfgDigitBlink_cases n first last divisor y
  · rw [e]
  · simp [e] at h

theorem dspCfgDotBlink_of_rejected {n : Nat} {digit : BitVec 4} {divisor : BitVec 16} {en : Bool}
    (h : (dspCfgDotBlink n digit divisor en y).2 = false) :
    (dspCfgDotBlink n digit divisor en y).1 = y := by
  obtain ⟨-, e⟩ | ⟨-, g, e, -⟩ := dspCfgDotBlink_cases n digit divisor en y
  · rw [e]
  · simp [e] at h

end

/-- Settles O53: `RES` is the operation's own result, and an operation that fails writes nothing. -/
theorem rejectedCommandsChangeNothing : Obligations.RejectedCommandsChangeNothing := by
  intro i s t h failed
  refine ⟨fun listed => ?_, fun u hi => ?_⟩
  · obtain ⟨n, rfl⟩ | ⟨n, v, rfl⟩ | ⟨f, l, k, rfl⟩ | ⟨d, k, b, rfl⟩ | ⟨n, b, rfl⟩ := listed
    · obtain rfl := Host.Outcome.next.inj ((Clock.exec_clkPostponeMinutes n s).symm.trans h)
      rw [clkPostponeMinutes_of_rejected ((resAnswer_bit _).symm.trans failed)]
    · obtain rfl := Host.Outcome.next.inj ((Display.exec_dspWriteBcd s n v).symm.trans h)
      rw [dspWriteBcd_of_rejected ((resAnswer_bit _).symm.trans failed)]
    · obtain rfl := Host.Outcome.next.inj ((Display.exec_dspCfgDigitBlink s f l k).symm.trans h)
      rw [dspCfgDigitBlink_of_rejected ((resAnswer_bit _).symm.trans failed)]
    · obtain rfl := Host.Outcome.next.inj ((Display.exec_dspCfgDotBlink s d k b).symm.trans h)
      rw [dspCfgDotBlink_of_rejected ((resAnswer_bit _).symm.trans failed)]
    · obtain inside | outside := Nat.lt_or_ge n.toNat 6
      · rw [Edge.exec_edgSample_of_detector (k := ⟨n.toNat, inside⟩) rfl] at h
        obtain rfl := Host.Outcome.next.inj h
        have passed := resBit_word { res := true, edge := edgeCode (s.edg.get ⟨n.toNat, inside⟩) b }
        exact absurd (passed.symm.trans failed) (by simp)
      · rw [Edge.exec_edgSample_of_no_detector outside] at h
        obtain rfl := Host.Outcome.next.inj h
        rfl
  · subst hi
    obtain rfl := Host.Outcome.next.inj ((Clock.exec_clkSetTime u s).symm.trans h)
    have invalid := (resAnswer_bit _).symm.trans failed
    obtain ⟨-, e⟩ | ⟨-, e⟩ := clkSetTime_cases u s.clk
    · simp [e] at invalid
    · rw [e]

end Sys2Proof.Commands
end

section
/-! The invariants (R25, R27, R28, R95, R124) and progress (R126, R129): one lemma packages the induction
step (what reset establishes and every command keeps, every step keeps), and each invariant is then a
statement about one unit's operations. -/

namespace Sys2Proof.Invariants

open Sys2Proof Sys2Proof.Machine Sys2Proof.Stated Sys2Proof.Commands

/-! ## From commands to steps -/

/-- A property of the configuration and the units (not of responses, records or requests) that reset
establishes and every command keeps is kept by every step. -/
theorem step_keeps {I : State → Prop}
    (units : ∀ {s t : State}, t.cfg = s.cfg → t.clk = s.clk → t.dsp = s.dsp → t.drv = s.drv →
      t.fsm = s.fsm → I s → I t)
    (reset : ∀ c, I (State.resetWith c))
    (command : ∀ {i : Instr} {s t : State}, I s → exec i s = .next t → I t)
    {s t : State} (h : I s) (stepped : step s = .next t) : I t := by
  have requests {u : State} (l : List Ports) (hu : I u) : I (u.withInbox l) :=
    units (s := u) rfl rfl rfl rfl rfl hu
  have delivered {u : State} (a : Agent) (hu : I u) : I (deliver a u) :=
    units (deliver_cfg a u) (deliver_clk a u) (deliver_dsp a u) (deliver_drv a u) (deliver_fsm a u) hu
  obtain ⟨o, l, -, ⟨-, rfl⟩ | ⟨p, ok, -, rfl⟩ | ⟨u, v, tick, refresh, rfl⟩ | ⟨a, i, u, run, rfl⟩ |
    ⟨a, rfl⟩⟩ := step_cases stepped
  · exact requests l h
  · exact requests l (reset _)
  · exact delivered _ (command (delivered _ (command (requests l h) tick)) refresh)
  · exact delivered a (command (requests l h) run)
  · exact delivered a (units (s := s) rfl rfl rfl rfl rfl h)

/-! ## The clock engine (R25) -/

theorem validBcd_zero : validBcd BcdTime.zero = true := by decide

theorem clockInv_reset (c : Config) : ClockInv (State.resetWith c) := ⟨tps_pos c, validBcd_zero⟩

theorem clockInv_units {s t : State} (cfg : t.cfg = s.cfg) (clk : t.clk = s.clk) (h : ClockInv s) :
    ClockInv t := by
  unfold ClockInv
  rwa [cfg, clk]

/-- A tick keeps the accumulator below `TPS`. -/
theorem clkTick_acc_lt {tps : BitVec 16} {x : Clk} (h : x.acc.toNat < tps.toNat) :
    (clkTick tps x).acc.toNat < tps.toNat := by
  obtain ⟨complete, e⟩ | ⟨count, e⟩ := clkTick_cases tps x
  · rw [e]
    exact (Nat.zero_le _).trans_lt h
  · rw [e]
    have next := acc_succ_toNat h
    show (x.acc + 1).toNat < tps.toNat
    omega

theorem clockInv_exec {i : Instr} {s t : State} (h : ClockInv s) (run : exec i s = .next t) :
    ClockInv t := by
  obtain ⟨below, valid⟩ := h
  unfold ClockInv
  rw [exec_cfg run, exec_clk run]
  constructor
  · by_cases tick : i = .clkTick
    · subst tick
      exact clkTick_acc_lt below
    · rwa [clkAfter_acc s tick]
  · obtain same | ⟨-, -, cur⟩ | ⟨u, -, validSet, cur⟩ |
      ⟨-, -, -, -, -, -, -, -, u, validSet, -, cur, -⟩ := clkAfter_cur_cases i s
    · rwa [same]
    · rw [cur]
      exact valid_advanceSecond valid
    · rwa [cur]
    · rwa [cur]

/-- Settles O55: only a tick counts, and every way to write the time gives a valid one. -/
theorem stepKeepsTheClockInvariant : Obligations.StepKeepsTheClockInvariant := fun _ _ =>
  step_keeps (fun cfg clk _ _ _ => clockInv_units cfg clk) clockInv_reset clockInv_exec

/-! ## The time edit buffer (R124) -/

theorem editInv_reset (c : Config) : EditInv (State.resetWith c) := validBcd_zero

/-- The buffer that an adjust step leaves is valid if it was. -/
theorem valid_adjustFsm_etime (kind : EditKind) (field : EditField) (fire : Buttons) (xa : Bool)
    {f : Fsm} (h : validBcd f.etime = true) :
    validBcd (adjustFsm kind field fire xa (editBuffer kind f) f).etime = true := by
  unfold adjustFsm
  cases discards fire xa with
  | true => exact h
  | false =>
    cases kind with
    | time =>
      have stored := valid_storedBuffer field fire h
      cases fire.acc with
      | true => exact stored
      | false => exact stored
    | alarm =>
      cases fire.acc with
      | true => exact h
      | false => exact h

theorem editInv_fsmStep {s : State} (clock : ClockInv s) (h : EditInv s) (btn : Buttons)
    (eet eea xa : Bool) : validBcd (fsmStep btn eet eea xa s).fsm.etime = true := by
  obtain ⟨-, -, -, fsm⟩ | ⟨-, -, -, fsm⟩ | ⟨kind, field, -, -, -, fsm⟩ :=
    fsmStep_cases btn eet eea xa s
  · obtain ⟨-, valid⟩ := clock
    rw [fsm, showTimeFsm_eq]
    cases eet with
    | true => exact valid
    | false => exact h
  · rw [fsm]
    exact h
  · rw [fsm, ← editBuffer_latched kind btn s]
    exact valid_adjustFsm_etime kind field _ xa (f := latched btn s) h

theorem editInv_exec {i : Instr} {s t : State} (clock : ClockInv s) (h : EditInv s)
    (run : exec i s = .next t) : EditInv t := by
  unfold EditInv
  rw [exec_fsm run]
  unfold fsmAfter
  split
  · exact editInv_fsmStep clock h ..
  · exact h

/-- Settles O58, with the clock's invariant beside it: a `ShowTime` step copies the current time. -/
theorem stepKeepsTheEditBufferValid : Obligations.StepKeepsTheEditBufferValid := by
  intro s t clock edit stepped
  have both : ClockInv t ∧ EditInv t :=
    step_keeps (I := fun s => ClockInv s ∧ EditInv s)
      (fun cfg clk _ _ fsm ⟨clock, edit⟩ =>
        ⟨clockInv_units cfg clk clock, by unfold EditInv; rwa [fsm]⟩)
      (fun c => ⟨clockInv_reset c, editInv_reset c⟩)
      (fun ⟨clock, edit⟩ run => ⟨clockInv_exec clock run, editInv_exec clock edit run⟩)
      ⟨clock, edit⟩ stepped
  exact both.2

/-! ## The display engine (R27) -/

/-- R27 on the registers of a display of `n` digits. -/
def DisplayOk (n : Nat) (x : Dsp) : Prop :=
  x.cur.toNat < n ∧ (x.bfrom.toNat ≤ x.bto.toNat ∧ x.bto.toNat < n) ∧ DescriptorOk x.bph x.bper ∧
    ∀ d : Fin 8,
      DescriptorOk (x.dots.get d).ph (x.dots.get d).per ∧ (x.seg.get d).getLsbD 7 = false ∧
        (n ≤ d.val → x.seg.get d = 0 ∧ x.dots.get d = { per := 0, en := false, ph := 0 })

theorem displayInv_iff (s : State) : DisplayInv s ↔ DisplayOk s.digits s.dsp := Iff.rfl

/-- A programmed descriptor: an even period, its phase cleared (R65, R99, R100). -/
theorem descriptorOk_period (divisor : BitVec 16) : DescriptorOk 0 (period divisor) := by
  have even := period_toNat divisor
  refine ⟨by omega, fun blinks => ?_, fun _ => rfl⟩
  have nonzero : (period divisor).toNat ≠ 0 := fun e => blinks (BitVec.eq_of_toNat_eq e)
  exact Nat.pos_of_ne_zero nonzero

theorem descriptorOk_nextPhase {ph per : BitVec 17} (h : DescriptorOk ph per) (blinks : per ≠ 0) :
    DescriptorOk (nextPhase ph per) per := by
  obtain ⟨even, -⟩ := h
  have pos : 0 < per.toNat := Nat.pos_of_ne_zero fun e => blinks (BitVec.eq_of_toNat_eq e)
  refine ⟨even, fun _ => ?_, fun still => absurd still blinks⟩
  rw [nextPhase_toNat blinks]
  exact Nat.mod_lt _ pos

theorem descriptorOk_advance {x : Dot} (h : DescriptorOk x.ph x.per) :
    DescriptorOk x.advance.ph x.advance.per := by
  rw [Dot.advance_per, Dot.advance_ph]
  split
  · next armed => exact descriptorOk_nextPhase h armed.2
  · exact h

section

variable {n : Nat} {x : Dsp}

/-- Segment values without a decimal point, and none above the display, may be written. -/
theorem displayOk_seg (h : DisplayOk n x) {g : Vector (BitVec 8) 8}
    (hg : ∀ d : Fin 8, (g.get d).getLsbD 7 = false ∧ (n ≤ d.val → g.get d = 0)) :
    DisplayOk n { x with seg := g } := by
  obtain ⟨cur, window, phase, digits⟩ := h
  refine ⟨cur, window, phase, fun d => ?_⟩
  obtain ⟨descriptor, -, unused⟩ := digits d
  obtain ⟨point, blank⟩ := hg d
  exact ⟨descriptor, point, fun outside => ⟨blank outside, (unused outside).2⟩⟩

/-- Descriptors that fit, and none above the display, may be written. -/
theorem displayOk_dots (h : DisplayOk n x) {g : Vector Dot 8}
    (hg : ∀ d : Fin 8, DescriptorOk (g.get d).ph (g.get d).per ∧
      (n ≤ d.val → g.get d = x.dots.get d)) :
    DisplayOk n { x with dots := g } := by
  obtain ⟨cur, window, phase, digits⟩ := h
  refine ⟨cur, window, phase, fun d => ?_⟩
  obtain ⟨-, point, unused⟩ := digits d
  obtain ⟨descriptor, kept⟩ := hg d
  exact ⟨descriptor, point, fun outside =>
    ⟨(unused outside).1, (kept outside).trans (unused outside).2⟩⟩

theorem displayOk_cur (h : DisplayOk n x) {d : BitVec 3} (inside : d.toNat < n) :
    DisplayOk n { x with cur := d } := by
  obtain ⟨-, rest⟩ := h
  exact ⟨inside, rest⟩

theorem displayOk_dspWriteBcd {c : Config} (h : DisplayOk (digitCount c) x) (size : BitVec 4)
    (v : Vector Nibble 8) : DisplayOk (digitCount c) (dspWriteBcd c size v x).1 := by
  obtain ⟨-, e⟩ | ⟨-, g, e, loaded⟩ := dspWriteBcd_cases c size v x
  · rwa [e]
  · rw [e]
    have ⟨_, _, _, digits⟩ := h
    refine displayOk_seg h fun d => ?_
    obtain ⟨-, point, unused⟩ := digits d
    rw [loaded]
    split_ifs with shown inside
    · exact ⟨segPattern_dp c _, fun outside => by omega⟩
    · exact ⟨rfl, fun _ => rfl⟩
    · exact ⟨point, fun outside => (unused outside).1⟩

theorem displayOk_dspCfgDigitBlink (n_le : n ≤ 8) (h : DisplayOk n x) (first last : BitVec 4)
    (divisor : BitVec 16) : DisplayOk n (dspCfgDigitBlink n first last divisor x).1 := by
  obtain ⟨-, e⟩ | ⟨⟨ordered, fits⟩, e⟩ := dspCfgDigitBlink_cases n first last divisor x
  · rwa [e]
  · rw [e]
    obtain ⟨cur, -, -, digits⟩ := h
    have hfirst := digitReg_toNat (i := first) (by omega)
    have hlast := digitReg_toNat (i := last) (by omega)
    exact ⟨cur, ⟨by rwa [hfirst, hlast], by rwa [hlast]⟩, descriptorOk_period divisor, digits⟩

theorem displayOk_dspCfgDotBlink (n_le : n ≤ 8) (h : DisplayOk n x) (digit : BitVec 4)
    (divisor : BitVec 16) (en : Bool) : DisplayOk n (dspCfgDotBlink n digit divisor en x).1 := by
  obtain ⟨-, e⟩ | ⟨below, g, e, dots⟩ := dspCfgDotBlink_cases n digit divisor en x
  · rwa [e]
  · rw [e]
    have ⟨_, _, _, digits⟩ := h
    refine displayOk_dots h fun d => ?_
    rw [dots]
    split
    · next here =>
      have place := (Display.eq_slot_digitReg_iff (by omega) d).1 here
      exact ⟨descriptorOk_period divisor, fun outside => by omega⟩
    · exact ⟨(digits d).1, fun _ => rfl⟩

theorem displayOk_advancePhases (h : DisplayOk n x) : DisplayOk n (advancePhases n x) := by
  obtain ⟨cur, window, phase, digits⟩ := h
  have bph : DescriptorOk (advancePhases n x).bph x.bper := by
    rw [advancePhases_bph]
    split
    · next blinks => exact descriptorOk_nextPhase phase blinks
    · exact phase
  have moved : DisplayOk n { x with bph := (advancePhases n x).bph } := ⟨cur, window, bph, digits⟩
  refine displayOk_dots (g := (advancePhases n x).dots) moved fun d => ?_
  obtain inside | outside := Nat.lt_or_ge d.val n
  · rw [Display.advancePhases_dot_of_lt x inside]
    exact ⟨descriptorOk_advance (digits d).1, fun outside => by omega⟩
  · rw [Display.advancePhases_dot_of_le x outside]
    exact ⟨(digits d).1, fun _ => rfl⟩

theorem displayOk_dspAfterRefresh (n_le : n ≤ 8) (h : DisplayOk n x) :
    DisplayOk n (dspAfterRefresh n x) := by
  have pos : 0 < n := by
    obtain ⟨inside, -⟩ := h
    omega
  have moved : DisplayOk n { x with cur := nextDigit n x } :=
    displayOk_cur h (by rw [nextDigit_toNat x pos n_le]; exact Nat.mod_lt _ pos)
  rw [Display.dspAfterRefresh_eq]
  split
  · exact displayOk_advancePhases moved
  · exact moved

end

section

variable {c : Config} {x : Dsp}

theorem displayOk_renderTime (h : DisplayOk (digitCount c) x) (t : BcdTime) :
    DisplayOk (digitCount c) (renderTime c t x) := displayOk_dspWriteBcd h _ _

theorem displayOk_ensureDigitBlink (h : DisplayOk (digitCount c) x) (first last : BitVec 4)
    (divisor : BitVec 16) : DisplayOk (digitCount c) (ensureDigitBlink c first last divisor x) := by
  unfold ensureDigitBlink
  split
  · exact h
  · exact displayOk_dspCfgDigitBlink (digitCount_le c) h first last divisor

theorem displayOk_ensureDot (h : DisplayOk (digitCount c) x) (d : BitVec 4) (divisor : BitVec 16)
    (en : Bool) : DisplayOk (digitCount c) (ensureDot c d divisor en x) := by
  unfold ensureDot
  split
  · exact h
  · exact displayOk_dspCfgDotBlink (digitCount_le c) h d divisor en

theorem displayOk_renderShowTime (h : DisplayOk (digitCount c) x) (t : BcdTime) (valid active : Bool) :
    DisplayOk (digitCount c) (renderShowTime c t valid active x) := by
  rw [Coordinator.renderShowTime_eq]
  exact displayOk_ensureDot (displayOk_ensureDot (displayOk_ensureDot (displayOk_ensureDot
    (displayOk_ensureDigitBlink (displayOk_renderTime h t) ..) ..) ..) ..) ..

theorem displayOk_renderAdjust (h : DisplayOk (digitCount c) x) (kind : EditKind) (field : EditField)
    (t : BcdTime) : DisplayOk (digitCount c) (renderAdjust c kind field t x) := by
  have window := displayOk_ensureDigitBlink (displayOk_renderTime h t)
    (Editing.editWindow field).1 (Editing.editWindow field).2 c.fsmBlinkDiv.val
  rw [Editing.renderAdjust_eq]
  split
  · exact window
  · exact displayOk_ensureDot (displayOk_ensureDot (displayOk_ensureDot
      (displayOk_ensureDot window ..) ..) ..) ..

end

theorem displayOk_fsmStep {s : State} (h : DisplayOk s.digits s.dsp) (btn : Buttons)
    (eet eea xa : Bool) : DisplayOk s.digits (fsmStep btn eet eea xa s).dsp := by
  obtain ⟨-, -, dsp, -⟩ | ⟨-, -, dsp, -⟩ | ⟨kind, field, -, -, dsp, -⟩ :=
    fsmStep_cases btn eet eea xa s
  · rw [dsp]
    exact displayOk_renderShowTime h ..
  · rwa [dsp]
  · rw [dsp]
    exact displayOk_renderAdjust h ..

theorem displayInv_reset (c : Config) : DisplayInv (State.resetWith c) := by
  have fits : DescriptorOk 0 0 := ⟨rfl, fun blinks => absurd rfl blinks, fun _ => rfl⟩
  have seg (d : Fin 8) : Dsp.reset.seg.get d = 0 := Requests.get_replicate _ d
  have dot (d : Fin 8) : Dsp.reset.dots.get d = { per := 0, en := false, ph := 0 } :=
    Requests.get_replicate _ d
  refine (displayInv_iff _).2 ⟨digitCount_pos c, ⟨le_rfl, digitCount_pos c⟩, fits, fun d => ?_⟩
  show DescriptorOk (Dsp.reset.dots.get d).ph (Dsp.reset.dots.get d).per ∧
    (Dsp.reset.seg.get d).getLsbD 7 = false ∧ (_ → Dsp.reset.seg.get d = 0 ∧ Dsp.reset.dots.get d = _)
  rw [seg, dot]
  exact ⟨fits, rfl, fun _ => ⟨rfl, rfl⟩⟩

theorem displayInv_exec {i : Instr} {s t : State} (h : DisplayInv s) (run : exec i s = .next t) :
    DisplayInv t := by
  rw [displayInv_iff] at h ⊢
  rw [exec_digits run, exec_dsp run]
  cases i
  case dspWriteBcd size v => exact displayOk_dspWriteBcd h size v
  case dspRefresh => exact displayOk_dspAfterRefresh (digits_le s) h
  case dspCfgDigitBlink first last divisor =>
    exact displayOk_dspCfgDigitBlink (digits_le s) h first last divisor
  case dspCfgDotBlink digit divisor en =>
    exact displayOk_dspCfgDotBlink (digits_le s) h digit divisor en
  case fsmStep btn eet eea xa => exact displayOk_fsmStep h btn eet eea xa
  all_goals exact h

/-- Settles O56: each operation of the engine keeps R27 on its registers, and the coordinator only calls
these operations. -/
theorem stepKeepsTheDisplayInvariant : Obligations.StepKeepsTheDisplayInvariant := fun _ _ =>
  step_keeps
    (fun cfg _ dsp _ _ h => by
      rw [displayInv_iff] at h ⊢
      rwa [State.digits, cfg, dsp])
    displayInv_reset displayInv_exec

/-! ## The driver (R28, R95) -/

theorem wholeRefreshes_append {l m : List DrvEvent} (hl : wholeRefreshes l = true)
    (hm : wholeRefreshes m = true) : wholeRefreshes (l ++ m) = true := by
  induction l using wholeRefreshes.induct with
  | case1 => exact hm
  | case2 p d rest ih => exact ih hl
  | case3 l notEmpty notRefresh =>
    rw [wholeRefreshes] at hl
    · cases hl
    · exact notEmpty
    · exact notRefresh

theorem driverInv_reset (c : Config) : DriverInv (State.resetWith c) := ⟨rfl, rfl, nofun⟩

/-- A refresh appends one triple, and the outputs are those it leaves. -/
theorem driverInv_exec {i : Instr} {s t : State} (h : DriverInv s) (run : exec i s = .next t) :
    DriverInv t := by
  obtain ⟨outputs, whole, lit⟩ := h
  unfold DriverInv
  rw [exec_digits run, exec_drv run]
  by_cases refresh : i = .dspRefresh
  · subst refresh
    refine ⟨?_, wholeRefreshes_append whole rfl, fun d hd => ?_⟩
    · simp only [drvAfter, List.foldl_append, outputs]
      simp [Drv.after]
    · obtain rfl := Option.some.inj hd
      rw [nextDigit_toNat s.dsp (digits_pos s) (digits_le s)]
      exact Nat.mod_lt _ (digits_pos s)
  · rw [drvAfter_of_ne s refresh]
    exact ⟨outputs, whole, lit⟩

/-- Settles O57: only a refresh calls the driver, with one whole triple for a digit of the display. -/
theorem stepKeepsTheDriverTrace : Obligations.StepKeepsTheDriverTrace := fun _ _ =>
  step_keeps
    (fun cfg _ _ drv _ h => by
      unfold DriverInv at h ⊢
      rwa [State.digits, cfg, drv])
    driverInv_reset driverInv_exec

/-- Settles O54, from the reset case of each invariant. -/
theorem invariantsHoldAfterReset : Obligations.InvariantsHoldAfterReset := fun c =>
  ⟨clockInv_reset c, displayInv_reset c, driverInv_reset c, editInv_reset c⟩

/-! ## Progress (R126, R129) -/

/-- With four digits every command completes. -/
theorem exists_exec_next {s : State} (four : 4 ≤ s.digits) (i : Instr) : ∃ t, exec i s = .next t := by
  cases i
  case fsmStep btn eet eea xa => exact ⟨_, exec_fsmStep four btn eet eea xa⟩
  case edgSample idx smp =>
    obtain inside | outside := Nat.lt_or_ge idx.toNat 6
    · exact ⟨_, Edge.exec_edgSample_of_detector (k := ⟨idx.toNat, inside⟩) rfl smp s⟩
    · exact ⟨_, Edge.exec_edgSample_of_no_detector outside smp s⟩
  all_goals exact ⟨_, rfl⟩

/-- A word runs to a state with as many digits. -/
theorem exists_runWord_next {s : State} (four : 4 ≤ s.digits) (a : Agent) (w : Word64) :
    ∃ t, runWord a w s = .next t ∧ 4 ≤ t.digits := by
  cases h : decode w with
  | error e => exact ⟨_, runWord_error s h, by simpa [State.digits] using four⟩
  | ok i =>
    obtain ⟨t, run⟩ := exists_exec_next four i
    refine ⟨deliver a t, ?_, ?_⟩
    · rw [runWord_ok s h, run, andThen_of_next]
    · rwa [deliver_digits, exec_digits run]

/-- With four digits every request but a reset with illegal straps is served, and four digits stay. -/
theorem exists_serve_next {s : State} (four : 4 ≤ s.digits) {r : Request}
    (legal : ∀ x, r = .reset x → x.wellFormed = true) :
    ∃ t, serve r s = .next t ∧ 4 ≤ t.digits := by
  cases r with
  | reset x =>
    have ok := legal x rfl
    obtain ⟨-, -, fits, -⟩ := (Requests.wellFormed_iff x).1 ok
    obtain ⟨-, digits, -⟩ := Requests.configOf_values ok
    refine ⟨_, Requests.boot_of_wellFormed ok s, ?_⟩
    show 4 ≤ min (configOf x ok).digits.val.toNat 8
    rwa [digits]
  | tick => exact ⟨_, rfl, four⟩
  | event e => exact exists_runWord_next four .fsm (eventWord e)
  | command w => exact exists_runWord_next four .host w

/-! ## The resets to come

Those that a step leaves, and the one that it takes, were among the requests before it. -/

theorem oneTaken_rst {p : Ports} {x : Straps} (h : (oneTaken p).rst = some x) : p.rst = some x := by
  unfold oneTaken at h
  split_ifs at h
  · exact h
  · exact h
  · exact h

theorem mem_of_mem_left {p q : Ports} {l : List Ports} (h : q ∈ left p l) : q = p ∨ q ∈ l := by
  unfold left at h
  split at h
  · exact .inr h
  · exact List.mem_cons.1 h

theorem rst_of_mem_nextRequest {l : List Ports} {q : Ports} {x : Straps} (h : q ∈ (nextRequest l).2)
    (hq : q.rst = some x) : ∃ p ∈ l, p.rst = some x := by
  cases l with
  | nil => cases h
  | cons p l =>
    obtain none | some := Nat.eq_zero_or_pos (pending [p])
    · rw [Requests.nextRequest_of_quiet l none] at h
      exact ⟨q, List.mem_cons_of_mem p h, hq⟩
    · rw [Requests.nextRequest_left l some] at h
      obtain rfl | later := mem_of_mem_left h
      · exact ⟨p, List.mem_cons_self, oneTaken_rst hq⟩
      · exact ⟨q, List.mem_cons_of_mem p later, hq⟩

theorem rst_of_nextRequest {l rest : List Ports} {x : Straps}
    (h : nextRequest l = (some (.reset x), rest)) : ∃ p ∈ l, p.rst = some x := by
  cases l with
  | nil => cases h
  | cons p l =>
    refine ⟨p, List.mem_cons_self, ?_⟩
    cases reset : p.rst with
    | some y =>
      rw [nextRequest_reset l reset] at h
      obtain ⟨taken, -⟩ := Prod.mk.inj h
      obtain rfl := Request.reset.inj (Option.some.inj taken)
      rfl
    | none =>
      cases tick : p.tick with
      | true => rw [nextRequest_tick l reset tick] at h; cases h
      | false =>
        cases evt : p.evt with
        | some e => rw [nextRequest_event l reset tick evt] at h; cases h
        | none =>
          cases cmd : p.cmd with
          | some w => rw [nextRequest_command l reset tick evt cmd] at h; cases h
          | none => rw [nextRequest_none l reset tick evt cmd] at h; cases h

/-- Settles O59: a ready block serves every request, and neither the digits nor the resets to come get
worse. -/
theorem readyBlockNeverStops : Obligations.ReadyBlockNeverStops := by
  intro s ⟨four, legal⟩
  have served : ∃ t, step s = .next t ∧ 4 ≤ t.digits := by
    cases taken : (nextRequest s.inbox).1 with
    | none => exact ⟨_, step_of_none (Prod.ext taken rfl), four⟩
    | some r =>
      have request : nextRequest s.inbox = (some r, (nextRequest s.inbox).2) := Prod.ext taken rfl
      rw [step_of_request request]
      refine exists_serve_next (s := s.withInbox (nextRequest s.inbox).2) four fun x hr => ?_
      subst hr
      obtain ⟨p, hp, reset⟩ := rst_of_nextRequest request
      exact legal p hp x reset
  obtain ⟨t, stepped, digits⟩ := served
  refine ⟨t, stepped, digits, fun q hq x reset => ?_⟩
  rw [step_inbox stepped] at hq
  obtain ⟨p, hp, reset'⟩ := rst_of_mem_nextRequest hq reset
  exact legal p hp x reset'

end Sys2Proof.Invariants
end
